-- ==== Sys2Proof/Word.lean ====
section
/-! DEFINITION. The words of the CORE: containers, CSR words, field elements, register numbers (00_scope R6, R8, R10). -/

namespace Sys2Proof

/-- The modulus of the field, a constant of the hardware and no parameter (R6, D34). -/
abbrev p : Nat := 21888242871839275222246405745257275088548364400416034343698204186575808495617

/-- A 256-bit storage word, an unsigned integer with bit 0 least significant (R8). -/
abbrev Container := BitVec 256

/-- A 32-bit control and status register value, or a command word (R8, R80). -/
abbrev Word := BitVec 32

/-- A FieldElement: an integer in `[0, p)` (R10). -/
abbrev Fe := Fin p

/-- A register number, 0 to 15 (R21, R81). -/
abbrev Reg := Fin 16

/-- A 4-bit count or width operand, unsigned and not scaled (R83 a). -/
abbrev Count := Fin 16

/-- A 12-bit offset operand in units of one word, unsigned and not scaled (R83 b). -/
abbrev Offset := Fin 4096

/-- "A FieldElement stored in a container occupies the value itself" (R10). -/
def ofFe (a : Fe) : Container := BitVec.ofNat 256 a.val

end Sys2Proof
end

