-- ==== Sys2Proof/Syntax.lean ====
section
/-! DEFINITION. The seventeen commands of 30_encoding R84, one constructor per row of spec/opcode_table.json, with the operands of
their formats (R82), and the names under which a word is rejected (R85). -/

namespace Sys2Proof

/-- A command with its operands. -/
inductive Instr where
  | fadd (rd ra rb : Reg)              -- R108
  | fsub (rd ra rb : Reg)              -- R109
  | fmul (rd ra rb : Reg)              -- R110
  | fpow5 (rd ra : Reg)                -- R111
  | fnorm (rd ra : Reg)                -- R112
  | fdiv (rd ra rb : Reg)              -- R113
  | perm (t : Count)                   -- R127
  | hash (rd ra : Reg) (n : Count)     -- R141
  | cenc (ra rb : Reg)                 -- R160
  | cdec (rd ra rb : Reg)              -- R161
  | cchk (ra rb : Reg)                 -- R162
  | mbuild                             -- R190
  | mroot (rd : Reg)                   -- R191
  | mpath (ra : Reg)                   -- R192
  | mfold (rd ra : Reg)                -- R193
  | fld (rd : Reg) (off : Offset)      -- R210
  | fst (ra : Reg) (off : Offset)      -- R211
  deriving DecidableEq, Repr

/-- Why a word is no command, in the order R85 tests it. -/
inductive Illegal where
  | unknownOpcode       -- no row of R84 has this `op`
  | unusedFieldNotZero  -- a must-be-zero field of the row's format (R82) is not zero
  | groupPastX15        -- a register group would pass `x[15]` (R91)
  deriving DecidableEq, Repr

end Sys2Proof
end

