-- ==== Sys2Proof/WellFormed.lean ====
section
/-! DEFINITION. Which terms of `Instr` are commands: register groups end at or before `x[15]` (30_encoding R91, D38). The other checks
of R85 are about the word and stand in the decoder; the values of `t` and `n` are not checked there (R85). -/

namespace Sys2Proof

/-- R91: the group `x[ra .. ra+g-1]` of `g` registers does not pass `x[15]`; an empty group never does. -/
def groupFits (ra : Reg) (g : Nat) : Bool := g == 0 || decide (ra.val + g ≤ 16)

/-- R91: `HASH` uses `n` registers from `ra`; the cipher commands use the key pair `x[ra], x[ra+1]`; `PERM` always fits. -/
def Instr.wellFormed : Instr → Bool
  | .fadd _ _ _ => true
  | .fsub _ _ _ => true
  | .fmul _ _ _ => true
  | .fpow5 _ _ => true
  | .fnorm _ _ => true
  | .fdiv _ _ _ => true
  | .perm _ => true
  | .hash _ ra n => groupFits ra n.val
  | .cenc ra _ => groupFits ra 2
  | .cdec _ ra _ => groupFits ra 2
  | .cchk ra _ => groupFits ra 2
  | .mbuild => true
  | .mroot _ => true
  | .mpath _ => true
  | .mfold _ _ => true
  | .fld _ _ => true
  | .fst _ _ => true

end Sys2Proof
end

