-- ==== Sys2Proof/Decode.lean ====
section
/-! DEFINITION. The decoder (30_encoding R81, R82, R84, R85), total on every 32-bit word and rejecting by name; the encoder, written
from the same tables; the opcode table of R84 itself; the pseudo-instructions and the assembler text of R88, R89. -/

namespace Sys2Proof

/-! The five fields of R81. -/

/-- `op = w[31:24]`. -/
def opField (w : Word) : BitVec 8 := w.extractLsb' 24 8
/-- `rd = w[23:20]`. -/
def rdField (w : Word) : Reg := (w.extractLsb' 20 4).toFin
/-- `ra = w[19:16]`. -/
def raField (w : Word) : Reg := (w.extractLsb' 16 4).toFin
/-- `rb = w[15:12]`. -/
def rbField (w : Word) : Reg := (w.extractLsb' 12 4).toFin
/-- `imm12 = w[11:0]`. -/
def immField (w : Word) : Offset := (w.extractLsb' 0 12).toFin

/-- `imm12[3:0]`, the count `n` or the width `t` (R83 a). -/
def countOf (imm : Offset) : Count := Fin.ofNat 16 imm.val

/-- `imm12[11:4]`, which formats RN and W want zero (R82). -/
def immHigh (imm : Offset) : Nat := imm.val / 16

/-- A command whose must-be-zero fields were found zero, or the rejection of R85. -/
def whenZero (zero : Bool) (i : Instr) : Except Illegal Instr :=
  if zero then .ok i else .error .unusedFieldNotZero

/-! One reading per format of R82: the fields it uses go to the command, the others must be zero. -/

def formatR3 (f : Reg → Reg → Reg → Instr) (w : Word) : Except Illegal Instr :=
  whenZero (immField w == 0) (f (rdField w) (raField w) (rbField w))
def formatR2 (f : Reg → Reg → Instr) (w : Word) : Except Illegal Instr :=
  whenZero (rbField w == 0 && immField w == 0) (f (rdField w) (raField w))
def formatRN (f : Reg → Reg → Count → Instr) (w : Word) : Except Illegal Instr :=
  whenZero (rbField w == 0 && immHigh (immField w) == 0) (f (rdField w) (raField w) (countOf (immField w)))
def formatW (f : Count → Instr) (w : Word) : Except Illegal Instr :=
  whenZero (rdField w == 0 && raField w == 0 && rbField w == 0 && immHigh (immField w) == 0) (f (countOf (immField w)))
def formatK (f : Reg → Reg → Instr) (w : Word) : Except Illegal Instr :=
  whenZero (rdField w == 0 && immField w == 0) (f (raField w) (rbField w))
def formatZ (f : Instr) (w : Word) : Except Illegal Instr :=
  whenZero (rdField w == 0 && raField w == 0 && rbField w == 0 && immField w == 0) f
def formatD (f : Reg → Instr) (w : Word) : Except Illegal Instr :=
  whenZero (raField w == 0 && rbField w == 0 && immField w == 0) (f (rdField w))
def formatA (f : Reg → Instr) (w : Word) : Except Illegal Instr :=
  whenZero (rdField w == 0 && rbField w == 0 && immField w == 0) (f (raField w))
def formatLI (f : Reg → Offset → Instr) (w : Word) : Except Illegal Instr :=
  whenZero (raField w == 0 && rbField w == 0) (f (rdField w) (immField w))
def formatSI (f : Reg → Offset → Instr) (w : Word) : Except Illegal Instr :=
  whenZero (rdField w == 0 && rbField w == 0) (f (raField w) (immField w))

/-- The row of R84 whose `op` equals `w[31:24]`, and the fields of its format; the group check of R91 comes after. -/
def decodeFields (w : Word) : Except Illegal Instr :=
  match (opField w).toNat with
  | 0x01 => formatR3 .fadd w
  | 0x02 => formatR3 .fsub w
  | 0x03 => formatR3 .fmul w
  | 0x04 => formatR2 .fpow5 w
  | 0x05 => formatR2 .fnorm w
  | 0x06 => formatR3 .fdiv w
  | 0x10 => formatW .perm w
  | 0x20 => formatRN .hash w
  | 0x30 => formatK .cenc w
  | 0x31 => formatR3 .cdec w
  | 0x32 => formatK .cchk w
  | 0x40 => formatZ .mbuild w
  | 0x41 => formatD .mroot w
  | 0x42 => formatA .mpath w
  | 0x43 => formatR2 .mfold w
  | 0x50 => formatLI .fld w
  | 0x51 => formatSI .fst w
  | _    => .error .unknownOpcode

/-- R91: a command whose register group would pass `x[15]` is illegal. -/
def requireGroup (i : Instr) : Except Illegal Instr :=
  if i.wellFormed then .ok i else .error .groupPastX15

/-- Decoding (R85): total; every word is exactly one command or illegal. -/
def decode (w : Word) : Except Illegal Instr := (decodeFields w).bind requireGroup

/-! The encoder, from R81 and R84. -/

/-- A word put together from its five fields (R81). -/
def assemble (op : BitVec 8) (rd ra rb : Reg) (imm : Offset) : Word :=
  op ++ BitVec.ofFin (w := 4) rd ++ BitVec.ofFin (w := 4) ra ++ BitVec.ofFin (w := 4) rb ++ BitVec.ofFin (w := 12) imm

/-- A 4-bit count as an immediate with `imm12[11:4] = 0` (R83 a). -/
def immOfCount (n : Count) : Offset := ⟨n.val, by omega⟩

/-- The word of a command (R81, R82, R84): unused fields are zero. -/
def encode : Instr → Word
  | .fadd rd ra rb => assemble 0x01 rd ra rb 0
  | .fsub rd ra rb => assemble 0x02 rd ra rb 0
  | .fmul rd ra rb => assemble 0x03 rd ra rb 0
  | .fpow5 rd ra   => assemble 0x04 rd ra 0 0
  | .fnorm rd ra   => assemble 0x05 rd ra 0 0
  | .fdiv rd ra rb => assemble 0x06 rd ra rb 0
  | .perm t        => assemble 0x10 0 0 0 (immOfCount t)
  | .hash rd ra n  => assemble 0x20 rd ra 0 (immOfCount n)
  | .cenc ra rb    => assemble 0x30 0 ra rb 0
  | .cdec rd ra rb => assemble 0x31 rd ra rb 0
  | .cchk ra rb    => assemble 0x32 0 ra rb 0
  | .mbuild        => assemble 0x40 0 0 0 0
  | .mroot rd      => assemble 0x41 rd 0 0 0
  | .mpath ra      => assemble 0x42 0 ra 0 0
  | .mfold rd ra   => assemble 0x43 rd ra 0 0
  | .fld rd off    => assemble 0x50 rd 0 0 off
  | .fst ra off    => assemble 0x51 0 ra 0 off

/-- The `match` and `mask` columns of R84 for each command: "a word `w` is the command exactly when `(w AND mask) = match`". -/
def matchMask : Instr → Word × Word
  | .fadd _ _ _ => (0x01000000, 0xFF000FFF)
  | .fsub _ _ _ => (0x02000000, 0xFF000FFF)
  | .fmul _ _ _ => (0x03000000, 0xFF000FFF)
  | .fpow5 _ _  => (0x04000000, 0xFF00FFFF)
  | .fnorm _ _  => (0x05000000, 0xFF00FFFF)
  | .fdiv _ _ _ => (0x06000000, 0xFF000FFF)
  | .perm _     => (0x10000000, 0xFFFFFFF0)
  | .hash _ _ _ => (0x20000000, 0xFF00FFF0)
  | .cenc _ _   => (0x30000000, 0xFFF00FFF)
  | .cdec _ _ _ => (0x31000000, 0xFF000FFF)
  | .cchk _ _   => (0x32000000, 0xFFF00FFF)
  | .mbuild     => (0x40000000, 0xFFFFFFFF)
  | .mroot _    => (0x41000000, 0xFF0FFFFF)
  | .mpath _    => (0x42000000, 0xFFF0FFFF)
  | .mfold _ _  => (0x43000000, 0xFF00FFFF)
  | .fld _ _    => (0x50000000, 0xFF0FF000)
  | .fst _ _    => (0x51000000, 0xFFF0F000)

/-- The rows of R84 as (match, mask), in the table's order. -/
def opcodeTable : List (Word × Word) :=
  [(0x01000000, 0xFF000FFF), (0x02000000, 0xFF000FFF), (0x03000000, 0xFF000FFF), (0x04000000, 0xFF00FFFF),
   (0x05000000, 0xFF00FFFF), (0x06000000, 0xFF000FFF), (0x10000000, 0xFFFFFFF0), (0x20000000, 0xFF00FFF0),
   (0x30000000, 0xFFF00FFF), (0x31000000, 0xFF000FFF), (0x32000000, 0xFFF00FFF), (0x40000000, 0xFFFFFFFF),
   (0x41000000, 0xFF0FFFFF), (0x42000000, 0xFFF0FFFF), (0x43000000, 0xFF00FFFF), (0x50000000, 0xFF0FF000),
   (0x51000000, 0xFFF0F000)]

/-- What the decoder reads from the word whose bits are `w`, of which the table gives `nbits` (every command is one 32-bit word, R80;
bits at and above `nbits` are zero). -/
def decodeTableWord (nbits w : Nat) : Option Instr := (decode (BitVec.ofNat 32 (w % 2 ^ nbits))).toOption

/-! Pseudo-instructions, each its exact expansion (R89). -/

/-- `FSQR rd, ra` is `FMUL rd, ra, ra`. -/
def pseudoFsqr (rd ra : Reg) : Instr := .fmul rd ra ra
/-- `FDBL rd, ra` is `FADD rd, ra, ra`. -/
def pseudoFdbl (rd ra : Reg) : Instr := .fadd rd ra ra
/-- `HASH1 rd, ra` is `HASH rd, ra, 1`. -/
def pseudoHash1 (rd ra : Reg) : Instr := .hash rd ra 1
/-- `HASH2 rd, ra` is `HASH rd, ra, 2`. -/
def pseudoHash2 (rd ra : Reg) : Instr := .hash rd ra 2

/-! The assembler's spelling of a command (R88). -/

/-- Registers are `x0` .. `x15`. -/
def regText (r : Reg) : String := "x" ++ Nat.repr r.val

/-- One command's line: the mnemonic in capitals, then the operands separated by commas, destination first (R88). -/
def asmText : Instr → String
  | .fadd rd ra rb => "FADD " ++ regText rd ++ ", " ++ regText ra ++ ", " ++ regText rb
  | .fsub rd ra rb => "FSUB " ++ regText rd ++ ", " ++ regText ra ++ ", " ++ regText rb
  | .fmul rd ra rb => "FMUL " ++ regText rd ++ ", " ++ regText ra ++ ", " ++ regText rb
  | .fpow5 rd ra   => "FPOW5 " ++ regText rd ++ ", " ++ regText ra
  | .fnorm rd ra   => "FNORM " ++ regText rd ++ ", " ++ regText ra
  | .fdiv rd ra rb => "FDIV " ++ regText rd ++ ", " ++ regText ra ++ ", " ++ regText rb
  | .perm t        => "PERM " ++ Nat.repr t.val
  | .hash rd ra n  => "HASH " ++ regText rd ++ ", " ++ regText ra ++ ", " ++ Nat.repr n.val
  | .cenc ra rb    => "CENC " ++ regText ra ++ ", " ++ regText rb
  | .cdec rd ra rb => "CDEC " ++ regText rd ++ ", " ++ regText ra ++ ", " ++ regText rb
  | .cchk ra rb    => "CCHK " ++ regText ra ++ ", " ++ regText rb
  | .mbuild        => "MBUILD"
  | .mroot rd      => "MROOT " ++ regText rd
  | .mpath ra      => "MPATH " ++ regText ra
  | .mfold rd ra   => "MFOLD " ++ regText rd ++ ", " ++ regText ra
  | .fld rd off    => "FLD " ++ regText rd ++ ", " ++ Nat.repr off.val
  | .fst ra off    => "FST " ++ regText ra ++ ", " ++ Nat.repr off.val

end Sys2Proof
end

