-- ==== Sys2Proof/Config.lean ====
section
/-! DEFINITION. The parameters of the CORE (00_scope R5, 10_state R44) as plain data, and the values the spec leaves free. -/

namespace Sys2Proof

/-- The constant tables of ONE width `t` (R5, R44): `rc` lists `RC(t, 0), RC(t, 1), ...`, `mds` lists the rows of `MDS(t)`.
A finite list stands for the table that continues with the element 0, so every value of this type is a table (log 18). -/
structure Tables where
  rc  : List Fe
  mds : List (List Fe)
  deriving DecidableEq, Repr, Inhabited

/-- The parameters of R5. The ranges hold by the types: `DMEM_WORDS = dmemLast + 1` is in `[1, 2^31]`, `maxLevels` in `[0, 32]`,
every table entry in `[0, p)`; a width is in `WSET` when its slot (slot `t - 2` for width `t`) holds tables (R38, R262). -/
structure Params where
  tables    : Vector (Option Tables) 8
  zero0     : Fe
  dmemLast  : BitVec 31
  maxLevels : Fin 33
  deriving DecidableEq, Repr, Inhabited

/-- The parameters of the machine in `State.reset`: a free value, no body (R5 OPEN, U1 to U6, log 2). -/
opaque Config.params : Params

/-- What word `a` of `DMEM` holds after reset number `epoch`: a free value, no body (R40, R261, U8, U24, log 3). -/
opaque Config.dmemAtReset : (epoch : Nat) → (a : Nat) → Container

/-- The `k`-th unspecified value a host read draws while the core is busy: a free value, no body (R48, U10, log 6). -/
opaque Config.busyRead : (k : Nat) → Container

end Sys2Proof
end

