-- ==== Sys2Proof/Machine/State.lean ====
section
/-! DEFINITION. The state of one CORE (10_state R20) as plain data, with what the host will do next; the reasons a step can stop; reset. -/

namespace Sys2Proof.Machine

/-- The cause codes 1 to 8 of 60_exceptions R221. Code 0 is "no cause"; code 9 (`BusyAccess`) never stands in `CAUSE` (R28). -/
inductive Cause where
  | unsupportedWidth   -- 1
  | capacityExceeded   -- 2
  | notFound           -- 3
  | divisionByZero     -- 4
  | illegalCommand     -- 5
  | nonCanonical       -- 6
  | addressRange       -- 7
  | badArgument        -- 8
  deriving DecidableEq, Repr

/-- `raise E(info)` of 00_scope R9: a cause and its information word (R222). -/
structure Error where
  cause : Cause
  info  : Word
  deriving DecidableEq, Repr

/-- The fields of CSR `STATUS` (R27). Bits 31:5 are reserved, read 0 and are never written, so they have no storage. -/
structure Status where
  busy  : Bool
  done  : Bool
  err   : Bool
  fatal : Bool
  eq    : Bool
  deriving DecidableEq, Repr

/-- The sixteen CSRs by name (R24); `Csr.number` in Machine/Port.lean gives the numbers. -/
inductive Csr where
  | id | cmd | status | cause | einfo | esticky | src | dst | aux | len | levels | idx | tlevels | tleaves | dmemsz | widths
  deriving DecidableEq, Repr

/-- The tree store `TREE = (levels, leaves)` (R43). -/
structure Tree where
  levels : Nat
  leaves : List Fe
  deriving DecidableEq, Repr

/-- One word of `DMEM` at its word address (20_memory R62): the smallest unit any access moves (R64, R68; log 4). -/
abbrev Cell := Nat × Container

/-- The words of `DMEM` written since reset, addresses strictly rising (`Memory.wf` in Machine/Ops.lean). An unlisted address holds no
listed value: it reads as the free value `Config.dmemAtReset` (R40, log 3). -/
abbrev Memory := List Cell

/-- The six host transactions of 20_memory R61, and the raw port accesses of R63 they travel over. -/
inductive Transaction where
  | readCsr   (n : Csr)
  | writeCsr  (n : Csr) (v : Word)
  | readX     (i : Reg)
  | writeX    (i : Reg) (v : Container)
  | readMem   (a : Nat)
  | writeMem  (a : Nat) (v : Container)
  | readPort  (paddr : Word)
  | writePort (paddr : Word) (data : Container)
  deriving DecidableEq, Repr

/-- What the host does next (log 5). `request` waits for `BUSY = 0` first, as 70_reset_and_hazards R264 (c) asks; `barge` does not wait
(R48, R270); `reset` asserts the reset input, which it may at any time (R260). -/
inductive HostEvent where
  | request (t : Transaction)
  | barge   (t : Transaction)
  | reset
  deriving DecidableEq, Repr

/-- The state of the CORE (R20), the parameters it was built with (R5), and the host's side of the port. -/
structure State where
  /-- Element registers `x[0..15]` (R21). -/
  x       : Vector Container 16
  /-- CSR 1 `CMD`, the last accepted command word (R26). -/
  cmd     : Word
  /-- CSR 2 `STATUS` (R27). -/
  status  : Status
  /-- CSR 3 `CAUSE`; `none` is code 0 (R28). -/
  cause   : Option Cause
  /-- CSR 4 `EINFO` (R29). -/
  einfo   : Word
  /-- CSR 5 `ESTICKY` (R30). -/
  esticky : Word
  /-- CSR 6 `SRC` (R31). -/
  src     : Word
  /-- CSR 7 `DST` (R31). -/
  dst     : Word
  /-- CSR 8 `AUX` (R31). -/
  aux     : Word
  /-- CSR 9 `LEN` (R32). -/
  len     : Word
  /-- CSR 10 `LEVELS` (R33). -/
  levels  : Word
  /-- CSR 11 `IDX` (R34). -/
  idx     : Word
  /-- Element memory (R62). -/
  dmem    : Memory
  /-- The tree store; CSRs `TLEVELS`, `TLEAVES` are views of it (R35, R36, R43). -/
  tree    : Tree
  /-- Constant tables and sizes, never written by any step (R5, R44, R262; log 1). CSRs `DMEMSZ`, `WIDTHS` are views of it. -/
  params  : Params
  /-- MODEL's own: what the host does next, oldest first (log 5). -/
  inbox   : List HostEvent
  /-- MODEL's own: what host reads returned, newest first (R61, log 5). -/
  replies : List Container
  /-- MODEL's own: number of unspecified read values drawn so far (R48, log 6). -/
  draws   : Nat
  /-- MODEL's own: number of resets so far (R261, log 3). -/
  epoch   : Nat
  deriving DecidableEq, Repr

/-- Why a step can stop with a fault. The CORE's own errors are no faults: each is a next state (60_exceptions R224). -/
inductive Fault where
  /-- Raised by the host's turn (`perform`) for an abstract `HostReadMem` or `HostWriteMem` whose address is not below `DMEM_WORDS`: R61
  has no such transaction, and U16 asks a model to stop there. SAFE: the model stops where the hardware has no step (log 8). -/
  | noSuchWord (a : Nat)
  deriving DecidableEq, Repr

/-- Why a step can be refused. -/
inductive Refusal where
  /-- Raised only by an arm of `exec` without a meaning; no arm of this model is one. SAFE: the model stops. -/
  | notModelled (mnemonic : String)
  deriving DecidableEq, Repr

/-- The state after the first reset of a CORE with parameters `c` (R40, R260): `x`, the stored CSRs and the flags 0, the empty tree of
depth 0, no word of `DMEM` written, and a host that has done nothing yet. -/
def State.resetWith (c : Params) : State where
  x       := Vector.replicate 16 0
  cmd     := 0
  status  := { busy := false, done := false, err := false, fatal := false, eq := false }
  cause   := none
  einfo   := 0
  esticky := 0
  src     := 0
  dst     := 0
  aux     := 0
  len     := 0
  levels  := 0
  idx     := 0
  dmem    := []
  tree    := { levels := 0, leaves := [] }
  params  := c
  inbox   := []
  replies := []
  draws   := 0
  epoch   := 0

/-- The machine right after reset (R40), with the parameters the spec leaves open. -/
def State.reset : State := State.resetWith Config.params

end Sys2Proof.Machine
end

