-- ==== Sys2Proof/Machine/Params.lean ====
section
/-! DEFINITION. How the rules read the parameters of 00_scope R5: sizes, `WSET`, and the entries of the tables. -/

namespace Sys2Proof.Machine

/-- `DMEM_WORDS`, in `[1, 2^31]` (R5, U5). -/
def dmemWords (c : Params) : Nat := c.dmemLast.toNat + 1

/-- `MAX_LEVELS`, in `[0, 32]` (R5, U6). -/
def maxLevelsOf (c : Params) : Nat := c.maxLevels.val

/-- The tables of width `t`, when `t` is in `WSET` (R5, R38, R262). No width outside 2..9 has a slot. -/
def tablesFor (c : Params) (t : Nat) : Option Tables :=
  if 2 ≤ t then (c.tables.toList[t - 2]?).join else none

/-- `t` is in `WSET`. -/
def inWset (c : Params) (t : Nat) : Bool := (tablesFor c t).isSome

/-- `RC(t, k)` (R5). -/
def rcAt (T : Tables) (k : Nat) : Fe := T.rc.getD k 0

/-- `MDS(t, i, j)`, row `i`, column `j` (R5, R124). -/
def mdsAt (T : Tables) (i j : Nat) : Fe := (T.mds.getD i []).getD j 0

/-- CSR `DMEMSZ` reads `DMEM_WORDS` (R37). -/
def dmemszWord (c : Params) : Word := BitVec.ofNat 32 (dmemWords c)

/-- CSR `WIDTHS`: bit `t` is 1 exactly when `t` is in `WSET` (R38). -/
def widthsWord (c : Params) : Word :=
  BitVec.ofNat 32 (((List.range 10).map fun t => if inWset c t then 2 ^ t else 0).sum)

end Sys2Proof.Machine
end

