-- ==== Sys2Proof/Machine/Flags.lean ====
section
/-! DEFINITION. Cause codes, the `STATUS` word and the computation of its fields, the sticky bits (10_state R27, R28, R30, R41;
60_exceptions R221, R224). -/

namespace Sys2Proof.Machine

/-- The code of a cause (R221). -/
def causeCode : Cause → Nat
  | .unsupportedWidth => 1
  | .capacityExceeded => 2
  | .notFound         => 3
  | .divisionByZero   => 4
  | .illegalCommand   => 5
  | .nonCanonical     => 6
  | .addressRange     => 7
  | .badArgument      => 8

/-- The code of `BusyAccess`, which has a bit in `ESTICKY` and never stands in `CAUSE` (R221, R234). -/
def busyAccessCode : Nat := 9

/-- CSR `CAUSE` as a word: the code in bits [3:0], 0 when there is none (R28). -/
def causeWord : Option Cause → Word
  | none   => 0
  | some c => BitVec.ofNat 32 (causeCode c)

/-- `STATUS.FATAL` of an error: `(c != 3) ? 1 : 0` (R224); only `NotFound` is recoverable. -/
def causeFatal (c : Cause) : Bool := causeCode c != 3

/-- One bit of a word. -/
def bitIf (b : Bool) (k : Nat) : Word := if b then BitVec.ofNat 32 (2 ^ k) else 0

/-- CSR `STATUS` as a word: `BUSY` 0, `DONE` 1, `ERR` 2, `FATAL` 3, `EQ` 4, bits 31:5 zero (R27). -/
def statusWord (f : Status) : Word :=
  bitIf f.busy 0 ||| bitIf f.done 1 ||| bitIf f.err 2 ||| bitIf f.fatal 3 ||| bitIf f.eq 4

/-- `ESTICKY[c] <- 1`; the other sticky bits keep their values (R30, R224). -/
def setStickyBit (esticky : Word) (c : Nat) : Word := esticky ||| bitIf true c

/-- Acceptance sets `BUSY` and clears `DONE`; the rest keeps the previous command's values (R46). -/
def statusAccepted (f : Status) : Status := { f with busy := true, done := false }

/-- Completion without error: `ERR`, `FATAL`, `BUSY` 0, `DONE` 1; `EQ` as the rule left it (R47). -/
def statusSucceeded (f : Status) : Status := { f with busy := false, done := true, err := false, fatal := false }

/-- Completion with an error of cause `c` (R224): `EQ` keeps its value. -/
def statusFailed (f : Status) (c : Cause) : Status :=
  { f with busy := false, done := true, err := true, fatal := causeFatal c }

end Sys2Proof.Machine
end

