-- ==== Sys2Proof/Machine/Ops.lean ====
section
/-! DEFINITION. The named operations over registers and memory, acceptance, and the two ways a command completes: `State.succeed`, and
`State.fail`, the one place where an error is taken (60_exceptions R224). -/

namespace Sys2Proof.Machine

/-! Registers (10_state R21, 00_scope R9). -/

/-- `x[i]`, raw. -/
def State.reg (s : State) (i : Reg) : Container := s.x[i.val]

/-- `x[i] <- v`. -/
def State.setReg (s : State) (i : Reg) (v : Container) : State := { s with x := s.x.set i.val v }

/-- `x[i] <- v[i]` for `i` from 0 to `len(v) - 1`; the registers above keep their values. -/
def State.setLowRegs (s : State) (v : List Container) : State := { s with x := s.x.mapIdx fun i old => v.getD i old }

/-! `DMEM` (20_memory R62): a list of written words in one canonical form. -/

/-- The canonical form: addresses strictly rising. What an unlisted address reads as is no value of the list (log 3), so no entry can
equal it. -/
abbrev Memory.wf (m : Memory) : Prop := m.Pairwise fun c d => c.1 < d.1

/-- The word written at `a` since reset, if any. -/
def Memory.read : Memory → Nat → Option Container
  | [], _          => none
  | (b, v) :: m, a => if a = b then some v else Memory.read m a

/-- `DMEM[a] <- v`, keeping the canonical form. -/
def Memory.write : Memory → Nat → Container → Memory
  | [], a, v => [(a, v)]
  | (b, w) :: m, a, v =>
    if a < b then (a, v) :: (b, w) :: m else if a = b then (a, v) :: m else (b, w) :: Memory.write m a v

/-- `MemWrite(a, n, v)` of 00_scope R9: the sequence `v` at consecutive addresses from `a`, element 0 at the base (R62). -/
def Memory.writeAll : Memory → Nat → List Container → Memory
  | m, _, []      => m
  | m, a, v :: vs => Memory.writeAll (Memory.write m a v) (a + 1) vs

/-- `MemRead(a, 1)`: the raw word `DMEM[a]`; a word never written since reset holds a free value (R40, R271, log 3). -/
def State.word (s : State) (a : Nat) : Container := (Memory.read s.dmem a).getD (Config.dmemAtReset s.epoch a)

/-- `MemWrite(a, n, v)` on the state. -/
def State.writeWords (s : State) (a : Nat) (vs : List Container) : State := { s with dmem := Memory.writeAll s.dmem a vs }

/-! The other writes a command's rule can make. -/

/-- `STATUS.EQ <- b` (R41). -/
def State.setEq (s : State) (b : Bool) : State := { s with status := { s.status with eq := b } }

/-- `IDX <- i` (R34). -/
def State.setIdx (s : State) (i : Nat) : State := { s with idx := BitVec.ofNat 32 i }

/-- `TREE <- (levels, leaves)`, both parts at once, and with it `TLEVELS`, `TLEAVES` (R35, R36, R43). -/
def State.setTree (s : State) (levels : Nat) (leaves : List Fe) : State := { s with tree := { levels := levels, leaves := leaves } }

/-! Acceptance and completion. -/

/-- Acceptance of the word `w` by an idle core (R46): nothing else changes. -/
def State.accept (s : State) (w : Word) : State := { s with cmd := w, status := statusAccepted s.status }

/-- Completion of a command whose rule raised no error (R47); `s` already holds the rule's writes. -/
def State.succeed (s : State) : State := { s with status := statusSucceeded s.status, cause := none, einfo := 0 }

/-- Completion of a command whose rule executed `raise e` (R224), the shared error entry: `CAUSE`, `EINFO`, one bit of `ESTICKY` and
`STATUS` are written, and nothing else (precise abort). -/
def State.fail (s : State) (e : Error) : State :=
  { s with
    status  := statusFailed s.status e.cause
    cause   := some e.cause
    einfo   := e.info
    esticky := setStickyBit s.esticky (causeCode e.cause) }

/-- The state after the completion step (R47). `r` is the outcome of the command's rule on the state at acceptance: the state with all the
rule's writes, or the error it raised, and then none of them. -/
def completed (s : State) : Except Error State → State
  | .ok s'   => s'.succeed
  | .error e => s.fail e

/-- The completion step: every command completes with a next state, error or not (R47, R268). -/
def complete (s : State) (r : Except Error State) : Host.Outcome State Fault Refusal := .next (completed s r)

/-- Completion of an accepted word that is no command (R230): cause 5, `EINFO` the word. -/
def completeIllegal (s : State) : Host.Outcome State Fault Refusal :=
  complete s (.error { cause := .illegalCommand, info := s.cmd })

/-- The word `w` accepted and the host quiet, so that the next step completes it (log 12). -/
def State.present (s : State) (w : Word) : State := { s.accept w with inbox := [] }

/-- The reset input (R260, R261): everything takes its reset value, also while busy; the content of `DMEM` is a new unspecified one; the
parameters are what they were; what the host has read and has still to do is the host's. -/
def State.afterReset (s : State) : State :=
  { State.resetWith s.params with inbox := s.inbox, replies := s.replies, draws := s.draws, epoch := s.epoch + 1 }

end Sys2Proof.Machine
end

