-- ==== Sys2Proof/Machine/Operands.lean ====
section
/-! DEFINITION. How commands read their operands and the checks they make first: `fe`, `feMem`, register groups, regions, widths
(00_scope R9, 20_memory R66, R67, R212, 30_encoding R83, R91, 60_exceptions R225, R227). -/

namespace Sys2Proof.Machine

/-- A container read as a FieldElement: `NonCanonical(info)` when it is not below `p` (R9, R227). -/
def canonical (info : Word) (v : Container) : Except Error Fe :=
  if h : v.toNat < p then .ok ⟨v.toNat, h⟩ else .error { cause := .nonCanonical, info := info }

/-- `fe(x[i])` of R9: `EINFO = 0x80000000 + i`. -/
def State.fe (s : State) (i : Reg) : Except Error Fe := canonical (BitVec.ofNat 32 (0x80000000 + i.val)) (s.reg i)

/-- `feMem(a)` of R9: `EINFO = a`. -/
def State.feMem (s : State) (a : Nat) : Except Error Fe := canonical (BitVec.ofNat 32 a) (s.word a)

/-- Read a list of operands in order; the first that raises is the one reported (R77, R227). -/
def readAll {α : Type} (f : α → Except Error Fe) : List α → Except Error (List Fe)
  | []     => .ok []
  | a :: l => do
    let v ← f a
    let vs ← readAll f l
    return v :: vs

/-- The register group `x[ra], ..., x[ra+g-1]` (R83, R91), for a group that fits. -/
def regGroup (ra : Reg) (g : Nat) : List Reg := ((List.finRange 16).drop ra.val).take g

/-- The addresses `base, ..., base + count - 1` of a region (R212 b). -/
def region (base count : Nat) : List Nat := (List.range count).map (base + ·)

/-- The registers of a group, read as FieldElements, lowest first (R227). -/
def State.feRegs (s : State) (ra : Reg) (g : Nat) : Except Error (List Fe) := readAll s.fe (regGroup ra g)

/-- The words of a region, read as FieldElements in increasing address (R77). -/
def State.feRegion (s : State) (base count : Nat) : Except Error (List Fe) := readAll s.feMem (region base count)

/-- Raise `e` when the check fails. -/
def require (ok : Bool) (e : Error) : Except Error Unit := if ok then .ok () else .error e

/-- R91: a register group past `x[15]` is `IllegalCommand`. The decoder never lets one through; the check stands here too because the
command's rule lists it (R141), and `EINFO` is the word in `CMD` (log 17). -/
def requireFits (s : State) (ra : Reg) (g : Nat) : Except Error Unit :=
  require (groupFits ra g) { cause := .illegalCommand, info := s.cmd }

/-- The tables of width `t`, or `UnsupportedWidth(t)` (R120, R225). -/
def requireWidth (c : Params) (t : Nat) : Except Error Tables :=
  match tablesFor c t with
  | some T => .ok T
  | none   => .error { cause := .unsupportedWidth, info := BitVec.ofNat 32 t }

/-- The range check of R66, in the natural numbers: `AddressRange(base mod 2^32)`; an empty region never raises. -/
def requireRegion (s : State) (base count : Nat) : Except Error Unit :=
  require (count == 0 || decide (base + count ≤ dmemWords s.params)) { cause := .addressRange, info := BitVec.ofNat 32 base }

/-- `LEVELS > MAX_LEVELS` is `BadArgument(LEVELS)` (R233). -/
def requireDepth (s : State) : Except Error Unit :=
  require (decide (s.levels.toNat ≤ maxLevelsOf s.params)) { cause := .badArgument, info := s.levels }

/-- The effective address base CSR plus `zext_32(imm12)`, in the natural numbers (R210, R211, R212 a). -/
def effective (base : Word) (off : Offset) : Nat := base.toNat + off.val

/-- `ceil(L / 3)`, the number of cipher blocks (00_scope R8, 20_memory R67). -/
def blockCount (L : Nat) : Nat := (L + 2) / 3

end Sys2Proof.Machine
end

