-- ==== Sys2Proof/Machine/Field.lean ====
section
/-! DEFINITION. Field arithmetic: the functions of 40_field_arithmetic R100 to R107 and the commands R108 to R113. -/

namespace Sys2Proof.Machine

/-- An integer reduced modulo `p`. -/
def Field.reduce (n : Nat) : Fe := ⟨n % p, Nat.mod_lt _ (by decide)⟩

/-- `(a + b) mod p` (R100); the laws R116 gives it, with `sub`, `mul`, `div` and `pow5`, are `Obligations.FieldLawsHold`. -/
def Field.add (a b : Fe) : Fe := Field.reduce (a.val + b.val)

/-- `(a - b) mod p` (R101). -/
def Field.sub (a b : Fe) : Fe := Field.reduce (a.val + p - b.val)

/-- `(a * b) mod p` of the exact product (R102). -/
def Field.mul (a b : Fe) : Fe := Field.reduce (a.val * b.val)

/-- R103. -/
def Field.square (a : Fe) : Fe := Field.mul a a

/-- The S-box: two squarings, then one multiply (R104). -/
def Field.pow5 (a : Fe) : Fe := Field.mul (Field.square (Field.square a)) a

/-- `v mod p` of any container (R105, D37). -/
def Field.normalize (v : Container) : Fe := Field.reduce v.toNat

/-- `b ^ e` by `fuel` squarings, for `e < 2^fuel`. -/
def Field.pow (b : Fe) : (fuel e : Nat) → Fe
  | 0, _     => Field.reduce 1
  | k + 1, e =>
    let h := Field.pow (Field.square b) k (e / 2)
    if e % 2 = 1 then Field.mul b h else h

/-- `inv(b)` for `b != 0`, the `c` with `mul(b, c) = 1` (R106), computed by the fixed exponentiation `b^(p-2)` (R268, G3, log 13). -/
def Field.inv (b : Fe) : Fe := Field.pow b 254 (p - 2)

/-- `div(a, b)`: `none` is the failure `DivisionByZero`, on the divisor alone (R107). -/
def Field.div (a b : Fe) : Option Fe := if b.val = 0 then none else some (Field.mul a (Field.inv b))

/-- The shape of `FADD`, `FSUB`, `FMUL`: `x[ra]`, then `x[rb]`, read as FieldElements; `x[rd]` written. -/
def fieldBinary (f : Fe → Fe → Fe) (rd ra rb : Reg) (s : State) : Except Error State := do
  let a ← s.fe ra
  let b ← s.fe rb
  return s.setReg rd (ofFe (f a b))

/-- `FADD rd, ra, rb` (R108). -/
def ruleFadd (rd ra rb : Reg) (s : State) : Except Error State := fieldBinary Field.add rd ra rb s

/-- Completion of `FADD`. -/
def execFadd (rd ra rb : Reg) (s : State) : Host.Outcome State Fault Refusal := complete s (ruleFadd rd ra rb s)

/-- `FSUB rd, ra, rb`: `ra` is the minuend (R109). -/
def ruleFsub (rd ra rb : Reg) (s : State) : Except Error State := fieldBinary Field.sub rd ra rb s

/-- Completion of `FSUB`. -/
def execFsub (rd ra rb : Reg) (s : State) : Host.Outcome State Fault Refusal := complete s (ruleFsub rd ra rb s)

/-- `FMUL rd, ra, rb` (R110). -/
def ruleFmul (rd ra rb : Reg) (s : State) : Except Error State := fieldBinary Field.mul rd ra rb s

/-- Completion of `FMUL`. -/
def execFmul (rd ra rb : Reg) (s : State) : Host.Outcome State Fault Refusal := complete s (ruleFmul rd ra rb s)

/-- `FPOW5 rd, ra` (R111). -/
def ruleFpow5 (rd ra : Reg) (s : State) : Except Error State := do
  let a ← s.fe ra
  return s.setReg rd (ofFe (Field.pow5 a))

/-- Completion of `FPOW5`. -/
def execFpow5 (rd ra : Reg) (s : State) : Host.Outcome State Fault Refusal := complete s (ruleFpow5 rd ra s)

/-- `FNORM rd, ra`: `x[ra]` is read raw (R112). -/
def ruleFnorm (rd ra : Reg) (s : State) : Except Error State := .ok (s.setReg rd (ofFe (Field.normalize (s.reg ra))))

/-- Completion of `FNORM`. -/
def execFnorm (rd ra : Reg) (s : State) : Host.Outcome State Fault Refusal := complete s (ruleFnorm rd ra s)

/-- `FDIV rd, ra, rb`: `NonCanonical` of `ra`, then `rb`, before `DivisionByZero(rb)` (R113, R229). -/
def ruleFdiv (rd ra rb : Reg) (s : State) : Except Error State := do
  let a ← s.fe ra
  let b ← s.fe rb
  match Field.div a b with
  | none   => .error { cause := .divisionByZero, info := BitVec.ofNat 32 rb.val }
  | some q => return s.setReg rd (ofFe q)

/-- Completion of `FDIV`. -/
def execFdiv (rd ra rb : Reg) (s : State) : Host.Outcome State Fault Refusal := complete s (ruleFdiv rd ra rb s)

end Sys2Proof.Machine
end

