-- ==== Sys2Proof/Machine/Permutation.lean ====
section
/-! DEFINITION. The permutation engine (41_permutation): the function `permute` R120 to R126 and the command `PERM` R127. -/

namespace Sys2Proof.Machine

/-- `R_P(t)`, the partial rounds of width `t` (00_scope R7); widths outside 2..9 have no tables and are never asked for. -/
def partialRounds : Nat → Nat
  | 2 => 56
  | 3 => 57
  | 4 => 56
  | 5 => 60
  | 6 => 60
  | 7 => 63
  | 8 => 64
  | 9 => 63
  | _ => 0

/-- `R_F` (R7). -/
def fullRounds : Nat := 8

/-- `total_rounds(t) = R_F + R_P(t)` (R7). -/
def totalRounds (t : Nat) : Nat := fullRounds + partialRounds t

/-- Round `r` is full when `r < R_F/2` or `r >= R_F/2 + R_P(t)` (R123). -/
def isFullRound (t r : Nat) : Bool := decide (r < fullRounds / 2) || decide (fullRounds / 2 + partialRounds t ≤ r)

/-- Step 1, add round constants: `S'[i] = add(S[i], RC(t, r*t + i))` (R122). -/
def ark (T : Tables) (r : Nat) (S : List Fe) : List Fe :=
  S.mapIdx fun i a => Field.add a (rcAt T (r * S.length + i))

/-- Step 2, the S-box layer: every slot in a full round, slot 0 alone in a partial round (R123). -/
def sbox (r : Nat) (S : List Fe) : List Fe :=
  if isFullRound S.length r then S.map Field.pow5
  else S.mapIdx fun i a => if i = 0 then Field.pow5 a else a

/-- `MDS(t,i,0)*S[0] + ... + MDS(t,i,t-1)*S[t-1]` (R124). -/
def mixRow (T : Tables) (i : Nat) (S : List Fe) : Fe :=
  (S.mapIdx fun j a => Field.mul (mdsAt T i j) a).foldl Field.add (Field.reduce 0)

/-- Step 3, the linear layer, all outputs from the old `S` (R124). -/
def mix (T : Tables) (S : List Fe) : List Fe := (List.range S.length).map fun i => mixRow T i S

/-- One round, full or partial: constants, S-box, matrix, in this order (R121, R126). -/
def round (T : Tables) (r : Nat) (S : List Fe) : List Fe := mix T (sbox r (ark T r S))

/-- The rounds `0 .. total-1` on a state of width `t = len(s)` whose tables are `T` (R121). -/
def permuteWith (T : Tables) (s : List Fe) : List Fe := (List.range (totalRounds s.length)).foldl (fun S r => round T r S) s

/-- `permute(s)`: fails with `UnsupportedWidth(len(s))` before anything else is computed (R120, R121). -/
def permute (c : Params) (s : List Fe) : Except Error (List Fe) := do
  let T ← requireWidth c s.length
  return permuteWith T s

/-- `PERM t` (R127): the width is checked before the operands; `x[0 .. t-1]` are read and overwritten. -/
def rulePerm (t : Count) (s : State) : Except Error State := do
  let T ← requireWidth s.params t.val
  let v ← s.feRegs 0 t.val
  return s.setLowRegs ((permuteWith T v).map ofFe)

/-- Completion of `PERM`. -/
def execPerm (t : Count) (s : State) : Host.Outcome State Fault Refusal := complete s (rulePerm t s)

end Sys2Proof.Machine
end

