-- ==== Sys2Proof/Machine/Cipher.lean ====
section
/-! DEFINITION. The cipher construction (43_cipher): the functions R150 to R157 and the commands R160 to R162. `T5` are the tables of
width 5 throughout. -/

namespace Sys2Proof.Machine

/-- The key pair `key[0], key[1]` (R150). -/
structure Key where
  k0 : Fe
  k1 : Fe
  deriving DecidableEq, Repr

/-- `[add(nonce, mul(L, 2^128)), key[0], key[1], 0, 0]` (R152, R153). -/
def cinit (k : Key) (nonce : Fe) (L : Nat) : List Fe :=
  [Field.add nonce (Field.mul (Field.reduce L) (Field.reduce (2 ^ 128))), k.k0, k.k1, Field.reduce 0, Field.reduce 0]

/-- The message in blocks of three, the last padded with zeros (R150, R151). -/
def blocks : List Fe → List (List Fe)
  | []               => []
  | [a]              => [[a, Field.reduce 0, Field.reduce 0]]
  | [a, b]           => [[a, b, Field.reduce 0]]
  | a :: b :: c :: m => [a, b, c] :: blocks m

/-- The rate slots 2, 3, 4 (R152). -/
def rateSlots (S : List Fe) : List Fe := S.drop 2

/-- The rate slots take the words `cs`; the capacity slots 0 and 1 stay (R152). -/
def withRate (S cs : List Fe) : List Fe := S.take 2 ++ cs

/-- The tag: slot 2 of the state after the final permutation (R152 d). -/
def tagOf (S : List Fe) : Fe := S.getD 2 (Field.reduce 0)

/-- The block loop of `encrypt` (R154): add the block to the rate slots, emit them, permute, also after the last block. -/
def encryptBlocks (T5 : Tables) (S : List Fe) : List (List Fe) → List Fe × List Fe
  | []      => ([], S)
  | b :: bs =>
    let c := List.zipWith Field.add (rateSlots S) b
    let r := encryptBlocks T5 (permuteWith T5 (withRate S c)) bs
    (c ++ r.1, r.2)

/-- `encrypt(msg, key, nonce)`: `3 * ceil(len/3)` words and the tag (R154). -/
def encrypt (T5 : Tables) (msg : List Fe) (k : Key) (nonce : Fe) : List Fe :=
  let r := encryptBlocks T5 (permuteWith T5 (cinit k nonce msg.length)) (blocks msg)
  r.1 ++ [tagOf r.2]

/-- The block loop of `decrypt` (R155): subtract the rate slots, then the rate slots take the ciphertext words, permute. -/
def decryptBlocks (T5 : Tables) (S : List Fe) : List (List Fe) → List Fe × List Fe
  | []      => ([], S)
  | c :: cs =>
    let m := List.zipWith Field.sub c (rateSlots S)
    let r := decryptBlocks T5 (permuteWith T5 (withRate S c)) cs
    (m ++ r.1, r.2)

/-- What `decrypt` returns (R155): plaintext, recomputed tag, whether the tag matches. -/
structure Decrypted where
  plain : List Fe
  tag   : Fe
  ok    : Bool
  deriving DecidableEq, Repr

/-- `decrypt(ct, key, nonce, L)` (R155): the recovered padding is dropped without being looked at (R156, D20). -/
def decrypt (T5 : Tables) (ct : List Fe) (k : Key) (nonce : Fe) (L : Nat) : Decrypted :=
  let r := decryptBlocks T5 (permuteWith T5 (cinit k nonce L)) (blocks (ct.take (3 * blockCount L)))
  { plain := r.1.take L, tag := tagOf r.2, ok := ct[3 * blockCount L]? == some (tagOf r.2) }

/-- `check(ct, msg, key, nonce)`, also called `verify` (R157). -/
def check (T5 : Tables) (ct msg : List Fe) (k : Key) (nonce : Fe) : Bool := encrypt T5 msg k nonce == ct

/-- The key registers `x[ra], x[ra+1]`, then the nonce `x[rb]`, read as FieldElements in that order (R150, R227). -/
def State.feKeyNonce (s : State) (ra rb : Reg) : Except Error (Key × Fe) := do
  let v ← s.feRegs ra 2
  let n ← s.fe rb
  return ({ k0 := v.getD 0 (Field.reduce 0), k1 := v.getD 1 (Field.reduce 0) }, n)

/-- `CENC ra, rb` (R160): regions read `[SRC, SRC+L)`, write `[DST, DST+3*nb+1)` (R67). -/
def ruleCenc (ra rb : Reg) (s : State) : Except Error State := do
  requireFits s ra 2
  let T ← requireWidth s.params 5
  let L := s.len.toNat
  requireRegion s s.src.toNat L
  requireRegion s s.dst.toNat (3 * blockCount L + 1)
  let (k, n) ← s.feKeyNonce ra rb
  let msg ← s.feRegion s.src.toNat L
  return s.writeWords s.dst.toNat ((encrypt T msg k n).map ofFe)

/-- Completion of `CENC`. -/
def execCenc (ra rb : Reg) (s : State) : Host.Outcome State Fault Refusal := complete s (ruleCenc ra rb s)

/-- `CDEC rd, ra, rb` (R161): regions read `[SRC, SRC+3*nb+1)`, write `[DST, DST+L)`; `x[rd]` takes the recomputed tag, `EQ` the tag match. -/
def ruleCdec (rd ra rb : Reg) (s : State) : Except Error State := do
  requireFits s ra 2
  let T ← requireWidth s.params 5
  let L := s.len.toNat
  requireRegion s s.src.toNat (3 * blockCount L + 1)
  requireRegion s s.dst.toNat L
  let (k, n) ← s.feKeyNonce ra rb
  let ct ← s.feRegion s.src.toNat (3 * blockCount L + 1)
  let d := decrypt T ct k n L
  return (((s.writeWords s.dst.toNat (d.plain.map ofFe)).setReg rd (ofFe d.tag)).setEq d.ok)

/-- Completion of `CDEC`. -/
def execCdec (rd ra rb : Reg) (s : State) : Host.Outcome State Fault Refusal := complete s (ruleCdec rd ra rb s)

/-- `CCHK ra, rb` (R162): regions read `[SRC, SRC+L)`, read `[AUX, AUX+3*nb+1)`; `EQ` is the exact match. -/
def ruleCchk (ra rb : Reg) (s : State) : Except Error State := do
  requireFits s ra 2
  let T ← requireWidth s.params 5
  let L := s.len.toNat
  requireRegion s s.src.toNat L
  requireRegion s s.aux.toNat (3 * blockCount L + 1)
  let (k, n) ← s.feKeyNonce ra rb
  let msg ← s.feRegion s.src.toNat L
  let ct ← s.feRegion s.aux.toNat (3 * blockCount L + 1)
  return s.setEq (check T ct msg k n)

/-- Completion of `CCHK`. -/
def execCchk (ra rb : Reg) (s : State) : Host.Outcome State Fault Refusal := complete s (ruleCchk ra rb s)

end Sys2Proof.Machine
end

