-- ==== Sys2Proof/Machine/DataMovement.lean ====
section
/-! DEFINITION. Data movement (45_data_movement R210, R211): raw containers, no canonical check, no arithmetic. -/

namespace Sys2Proof.Machine

/-- `FLD rd, off` (R210): `x[rd] <- DMEM[SRC + off]`. -/
def ruleFld (rd : Reg) (off : Offset) (s : State) : Except Error State := do
  requireRegion s (effective s.src off) 1
  return s.setReg rd (s.word (effective s.src off))

/-- Completion of `FLD`. -/
def execFld (rd : Reg) (off : Offset) (s : State) : Host.Outcome State Fault Refusal := complete s (ruleFld rd off s)

/-- `FST ra, off` (R211): `DMEM[DST + off] <- x[ra]`. -/
def ruleFst (ra : Reg) (off : Offset) (s : State) : Except Error State := do
  requireRegion s (effective s.dst off) 1
  return s.writeWords (effective s.dst off) [s.reg ra]

/-- Completion of `FST`. -/
def execFst (ra : Reg) (off : Offset) (s : State) : Host.Outcome State Fault Refusal := complete s (ruleFst ra off s)

end Sys2Proof.Machine
end

