-- ==== Sys2Proof/Machine/Hash.lean ====
section
/-! DEFINITION. The hash construction (42_hash): the function `hash` R140, `hash2` R142, and the command `HASH` R141. -/

namespace Sys2Proof.Machine

/-- `hash(v)` with the tables of width `len(v) + 1`: slot 0 is the capacity slot, value 0; the result is slot 0 of the final state (R140). -/
def hashWith (T : Tables) (v : List Fe) : Fe := (permuteWith T (Field.reduce 0 :: v)).headD (Field.reduce 0)

/-- `hash(v)` of R140: fails with `UnsupportedWidth(len(v) + 1)`. -/
def hash (c : Params) (v : List Fe) : Except Error Fe := do
  let T ← requireWidth c (v.length + 1)
  return hashWith T v

/-- `hash2(l, r) = hash([l, r])`, width 3, left child in slot 1 (R142). -/
def hash2 (T3 : Tables) (l r : Fe) : Fe := hashWith T3 [l, r]

/-- `HASH rd, ra, n` (R141): group, width, operands lowest first, result. -/
def ruleHash (rd ra : Reg) (n : Count) (s : State) : Except Error State := do
  requireFits s ra n.val
  let T ← requireWidth s.params (n.val + 1)
  let v ← s.feRegs ra n.val
  return s.setReg rd (ofFe (hashWith T v))

/-- Completion of `HASH`. -/
def execHash (rd ra : Reg) (n : Count) (s : State) : Host.Outcome State Fault Refusal := complete s (ruleHash rd ra n s)

end Sys2Proof.Machine
end

