-- ==== Sys2Proof/Machine/Merkle.lean ====
section
/-! DEFINITION. The Merkle accumulator (44_merkle): the tree functions R180 to R189 and the commands R190 to R193. `T3` are the tables of
width 3, `z0` is `ZERO0` throughout. -/

namespace Sys2Proof.Machine

/-- `zero[0] = ZERO0`, `zero[i] = hash2(zero[i-1], zero[i-1])` (R181). -/
def zeroAt (T3 : Tables) (z0 : Fe) : Nat → Fe
  | 0     => z0
  | i + 1 => hash2 T3 (zeroAt T3 z0 i) (zeroAt T3 z0 i)

/-- The layer above: pairs are hashed in order, only a missing RIGHT sibling is replaced, by `z` (R182). -/
def nextLayer (T3 : Tables) (z : Fe) : List Fe → List Fe
  | []          => []
  | [l]         => [hash2 T3 l z]
  | l :: r :: m => hash2 T3 l r :: nextLayer T3 z m

/-- `layers[L]` (R182). -/
def layer (T3 : Tables) (z0 : Fe) (leaves : List Fe) : Nat → List Fe
  | 0     => leaves
  | L + 1 => nextLayer T3 (zeroAt T3 z0 L) (layer T3 z0 leaves L)

/-- `root(levels, leaves)`: `layers[levels][0]` if it exists, else `zero[levels]` (R183). -/
def treeRoot (T3 : Tables) (z0 : Fe) (levels : Nat) (leaves : List Fe) : Fe :=
  (layer T3 z0 leaves levels).headD (zeroAt T3 z0 levels)

/-- The smallest index whose leaf equals `leaf` (R184, D23); `none` is `NotFound` (R186). -/
def findLeaf (leaf : Fe) : List Fe → Option Nat
  | []     => none
  | a :: l => if a = leaf then some 0 else (findLeaf leaf l).map (· + 1)

/-- The sibling of node `i` of a layer whose missing right sibling is `z` (R185); the left sibling of an odd node always exists. -/
def sibling (z : Fe) (lay : List Fe) (i : Nat) : Fe :=
  if i % 2 = 0 then lay.getD (i + 1) z else lay.getD (i - 1) z

/-- The level loop of `pathFor` (R185): `n` levels from level `L`, whose layer is `lay` and whose current index is `i`. -/
def pathFrom (T3 : Tables) (z0 : Fe) : (n L : Nat) → (lay : List Fe) → (i : Nat) → List Fe
  | 0, _, _, _       => []
  | n + 1, L, lay, i =>
    sibling (zeroAt T3 z0 L) lay i :: pathFrom T3 z0 n (L + 1) (nextLayer T3 (zeroAt T3 z0 L) lay) (i / 2)

/-- `pathIndices[L] = floor(i0 / 2^L) mod 2`, bit `L` of the leaf index (R189). -/
def pathIndex (i0 L : Nat) : Nat := i0 / 2 ^ L % 2

/-- `pathFor(levels, leaves, leaf)`: the path elements and the leaf index, which carries the path indices (R185, R189). -/
def pathFor (T3 : Tables) (z0 : Fe) (levels : Nat) (leaves : List Fe) (leaf : Fe) : Option (List Fe × Nat) :=
  (findLeaf leaf leaves).map fun i0 => (pathFrom T3 z0 levels 0 leaves i0, i0)

/-- `fold` of R188 over the path elements, lowest level first; `i` is `idx` shifted down to the current level, so its bit 0 is
`pathIndices[L]`: 0 means the node is the left child. -/
def foldPath (T3 : Tables) (node : Fe) : List Fe → Nat → Fe
  | [], _     => node
  | e :: l, i => foldPath T3 (if i % 2 = 0 then hash2 T3 node e else hash2 T3 e node) l (i / 2)

/-- `MBUILD` (R190): the leaves are copied; on any error the previous tree is kept. -/
def ruleMbuild (s : State) : Except Error State := do
  let _T ← requireWidth s.params 3
  requireDepth s
  require (decide (s.len.toNat ≤ 2 ^ s.levels.toNat)) { cause := .capacityExceeded, info := s.len }
  requireRegion s s.src.toNat s.len.toNat
  let leaves ← s.feRegion s.src.toNat s.len.toNat
  return s.setTree s.levels.toNat leaves

/-- Completion of `MBUILD`. -/
def execMbuild (s : State) : Host.Outcome State Fault Refusal := complete s (ruleMbuild s)

/-- `MROOT rd` (R191). -/
def ruleMroot (rd : Reg) (s : State) : Except Error State := do
  let T ← requireWidth s.params 3
  return s.setReg rd (ofFe (treeRoot T s.params.zero0 s.tree.levels s.tree.leaves))

/-- Completion of `MROOT`. -/
def execMroot (rd : Reg) (s : State) : Host.Outcome State Fault Refusal := complete s (ruleMroot rd s)

/-- `MPATH ra` (R192): the depth is the built tree's; the region is checked even when the leaf will not be found. -/
def ruleMpath (ra : Reg) (s : State) : Except Error State := do
  let T ← requireWidth s.params 3
  requireRegion s s.dst.toNat s.tree.levels
  let leaf ← s.fe ra
  match pathFor T s.params.zero0 s.tree.levels s.tree.leaves leaf with
  | none          => .error { cause := .notFound, info := 0 }
  | some (pe, i0) => return (s.writeWords s.dst.toNat (pe.map ofFe)).setIdx i0

/-- Completion of `MPATH`. -/
def execMpath (ra : Reg) (s : State) : Host.Outcome State Fault Refusal := complete s (ruleMpath ra s)

/-- `MFOLD rd, ra` (R193): depth from CSR `LEVELS`, directions from `IDX`; `TREE` is not read. -/
def ruleMfold (rd ra : Reg) (s : State) : Except Error State := do
  let T ← requireWidth s.params 3
  requireDepth s
  requireRegion s s.src.toNat s.levels.toNat
  let node ← s.fe ra
  let pe ← s.feRegion s.src.toNat s.levels.toNat
  return s.setReg rd (ofFe (foldPath T node pe s.idx.toNat))

/-- Completion of `MFOLD`. -/
def execMfold (rd ra : Reg) (s : State) : Host.Outcome State Fault Refusal := complete s (ruleMfold rd ra s)

end Sys2Proof.Machine
end

