-- ==== Sys2Proof/Machine/Dispatch.lean ====
section
/-! DEFINITION. One arm per command: the direct call of its meaning. -/

namespace Sys2Proof.Machine

def exec (i : Instr) (s : State) : Host.Outcome State Fault Refusal :=
  match i with
  | .fadd rd ra rb => Sys2Proof.Machine.execFadd rd ra rb s
  | .fsub rd ra rb => Sys2Proof.Machine.execFsub rd ra rb s
  | .fmul rd ra rb => Sys2Proof.Machine.execFmul rd ra rb s
  | .fpow5 rd ra => Sys2Proof.Machine.execFpow5 rd ra s
  | .fnorm rd ra => Sys2Proof.Machine.execFnorm rd ra s
  | .fdiv rd ra rb => Sys2Proof.Machine.execFdiv rd ra rb s
  | .perm t => Sys2Proof.Machine.execPerm t s
  | .hash rd ra n => Sys2Proof.Machine.execHash rd ra n s
  | .cenc ra rb => Sys2Proof.Machine.execCenc ra rb s
  | .cdec rd ra rb => Sys2Proof.Machine.execCdec rd ra rb s
  | .cchk ra rb => Sys2Proof.Machine.execCchk ra rb s
  | .mbuild => Sys2Proof.Machine.execMbuild s
  | .mroot rd => Sys2Proof.Machine.execMroot rd s
  | .mpath ra => Sys2Proof.Machine.execMpath ra s
  | .mfold rd ra => Sys2Proof.Machine.execMfold rd ra s
  | .fld rd off => Sys2Proof.Machine.execFld rd off s
  | .fst ra off => Sys2Proof.Machine.execFst ra off s

end Sys2Proof.Machine
end

