-- ==== Sys2Proof/Machine/Port.lean ====
section
/-! DEFINITION. The host's side: CSR reads and writes (10_state R24 to R39), the port map (20_memory R63), the transactions idle (R61) and
busy (10_state R48), and whose turn it is (R45). -/

namespace Sys2Proof.Machine

/-- The number of a CSR (R24). -/
def csrNumber : Csr → Fin 16
  | .id => 0 | .cmd => 1 | .status => 2 | .cause => 3 | .einfo => 4 | .esticky => 5 | .src => 6 | .dst => 7 | .aux => 8 | .len => 9
  | .levels => 10 | .idx => 11 | .tlevels => 12 | .tleaves => 13 | .dmemsz => 14 | .widths => 15

/-- The CSRs in the order of their numbers (R24). -/
def csrNames : Vector Csr 16 :=
  #v[.id, .cmd, .status, .cause, .einfo, .esticky, .src, .dst, .aux, .len, .levels, .idx, .tlevels, .tleaves, .dmemsz, .widths]

/-- The CSR with a number (R24). -/
def csrOfNumber (n : Fin 16) : Csr := csrNames[n.val]

/-- The 32-bit value of a CSR, reserved bits 0 (R25 to R38). -/
def State.csr (s : State) : Csr → Word
  | .id      => 0x5A4B5207
  | .cmd     => s.cmd
  | .status  => statusWord s.status
  | .cause   => causeWord s.cause
  | .einfo   => s.einfo
  | .esticky => s.esticky
  | .src     => s.src
  | .dst     => s.dst
  | .aux     => s.aux
  | .len     => s.len
  | .levels  => s.levels
  | .idx     => s.idx
  | .tlevels => BitVec.ofNat 32 s.tree.levels
  | .tleaves => BitVec.ofNat 32 s.tree.leaves.length
  | .dmemsz  => dmemszWord s.params
  | .widths  => widthsWord s.params

/-- A host write of an idle core's CSR (R24, R39): `CMD` issues the command (R26, R46), the read-only ones ignore it. -/
def State.writeCsr (s : State) (n : Csr) (v : Word) : State :=
  match n with
  | .cmd     => s.accept v
  | .src     => { s with src := v }
  | .dst     => { s with dst := v }
  | .aux     => { s with aux := v }
  | .len     => { s with len := v }
  | .levels  => { s with levels := v }
  | .idx     => { s with idx := v }
  | .id      => s
  | .status  => s
  | .cause   => s
  | .einfo   => s
  | .esticky => s
  | .tlevels => s
  | .tleaves => s
  | .dmemsz  => s
  | .widths  => s

/-- What a transaction addresses. -/
inductive Target where
  | csr (n : Csr)
  | reg (i : Reg)
  | mem (a : Nat)
  | nothing          -- a reserved or unpopulated port address
  deriving DecidableEq, Repr

/-- The port map of R63 for a core with parameters `c`. -/
def portTarget (c : Params) (paddr : Word) : Target :=
  let n := paddr.toNat
  if n < 0x10 then .csr (csrOfNumber (Fin.ofNat 16 n))
  else if n < 0x20 then .reg (Fin.ofNat 16 (n - 0x10))
  else if n < 0x80000000 then .nothing
  else if n - 0x80000000 < dmemWords c then .mem (n - 0x80000000)
  else .nothing

/-- What a transaction addresses (R61, R63). -/
def targetOf (c : Params) : Transaction → Target
  | .readCsr n         => .csr n
  | .writeCsr n _      => .csr n
  | .readX i           => .reg i
  | .writeX i _        => .reg i
  | .readMem a         => .mem a
  | .writeMem a _      => .mem a
  | .readPort paddr    => portTarget c paddr
  | .writePort paddr _ => portTarget c paddr

/-- The data a write carries; `none` for a read. A CSR value travels in data bits [31:0] (R63). -/
def writeData : Transaction → Option Container
  | .readCsr _        => none
  | .writeCsr _ v     => some (v.setWidth 256)
  | .readX _          => none
  | .writeX _ v       => some v
  | .readMem _        => none
  | .writeMem _ v     => some v
  | .readPort _       => none
  | .writePort _ data => some data

/-- What an idle core returns to a read (R61, R63): bits [255:32] of a CSR read 0, a reserved or unpopulated address reads 0. -/
def State.readTarget (s : State) : Target → Container
  | .csr n   => (s.csr n).setWidth 256
  | .reg i   => s.reg i
  | .mem a   => s.word a
  | .nothing => 0

/-- What a write does to an idle core (R61, R63): data bits [255:32] are ignored for a CSR, any value is stored raw elsewhere. -/
def State.writeTarget (s : State) (data : Container) : Target → State
  | .csr n   => s.writeCsr n (data.setWidth 32)
  | .reg i   => s.setReg i data
  | .mem a   => s.writeWords a [data]
  | .nothing => s

/-- A read's value goes to the host. -/
def State.reply (s : State) (v : Container) : State := { s with replies := v :: s.replies }

/-- A transaction with an idle core: no error, no status change but the one of an issue (R61). -/
def performIdle (s : State) (t : Transaction) : State :=
  match writeData t with
  | none      => s.reply (s.readTarget (targetOf s.params t))
  | some data => s.writeTarget data (targetOf s.params t)

/-- The unspecified value a busy core returns for a target (R48): any container, but a CSR's value has 32 bits (R63). -/
def drawnValue (k : Nat) : Target → Container
  | .csr _   => ((Config.busyRead k).setWidth 32).setWidth 256
  | .reg _   => Config.busyRead k
  | .mem _   => Config.busyRead k
  | .nothing => Config.busyRead k

/-- A transaction with a busy core (R48, R234, R270): `STATUS` reads true, any other read draws an unspecified value, every write is
ignored and sets bit 9 of `ESTICKY` (log 6, log 7). -/
def performBusy (s : State) (t : Transaction) : State :=
  match writeData t with
  | none =>
    if targetOf s.params t = .csr .status then s.reply (s.readTarget (.csr .status))
    else { s.reply (drawnValue s.draws (targetOf s.params t)) with draws := s.draws + 1 }
  | some _ => { s with esticky := setStickyBit s.esticky busyAccessCode }

/-- An abstract memory transaction outside `[0, DMEM_WORDS)`: R61 has none (U16). -/
def outside (c : Params) : Transaction → Option Nat
  | .readMem a     => if a < dmemWords c then none else some a
  | .writeMem a _  => if a < dmemWords c then none else some a
  | .readCsr _     => none
  | .writeCsr _ _  => none
  | .readX _       => none
  | .writeX _ _    => none
  | .readPort _    => none
  | .writePort _ _ => none

/-- One host transaction, atomic (R61, R68). -/
def perform (s : State) (t : Transaction) : Host.Outcome State Fault Refusal :=
  match outside s.params t with
  | some a => .fault (.noSuchWord a)
  | none   => .next (if s.status.busy then performBusy s t else performIdle s t)

/-- Whose turn it is (R45, log 5). -/
inductive Turn where
  | core                                                -- completion of the accepted command (R47)
  | host (t : Transaction) (rest : List HostEvent)      -- a transaction
  | reset (rest : List HostEvent)                       -- the reset input
  | nobody                                              -- idle core, quiet host (R269)
  deriving DecidableEq, Repr

/-- A reset or a `barge` comes at once; a `request` waits for the core; otherwise the core completes what it accepted (R45, R264). -/
def nextTurn (s : State) : Turn :=
  match s.inbox with
  | []                => if s.status.busy then .core else .nobody
  | .reset :: rest    => .reset rest
  | .barge t :: rest  => .host t rest
  | .request t :: rest => if s.status.busy then .core else .host t rest

/-- The host's turn: the event leaves the queue. -/
def hostTurn (s : State) (t : Transaction) (rest : List HostEvent) : Host.Outcome State Fault Refusal :=
  perform { s with inbox := rest } t

/-- The reset's turn. -/
def resetTurn (s : State) (rest : List HostEvent) : Host.Outcome State Fault Refusal :=
  .next (State.afterReset { s with inbox := rest })

end Sys2Proof.Machine
end

