-- ==== Sys2Proof/Machine/Step.lean ====
section
/-! DEFINITION. One step: a host transaction, the completion of the accepted command, a reset, or nothing (10_state R45 to R48). -/

namespace Sys2Proof.Machine

/-- Completion of the word in `CMD` (R47): the command it decodes to, or `IllegalCommand` (R85, R230). -/
def runCommand (s : State) : Host.Outcome State Fault Refusal :=
  match decode s.cmd with
  | .ok i    => exec i s
  | .error _ => completeIllegal s

/-- One step of the machine. -/
def step (s : State) : Host.Outcome State Fault Refusal :=
  match nextTurn s with
  | .core        => runCommand s
  | .host t rest => hostTurn s t rest
  | .reset rest  => resetTurn s rest
  | .nobody      => .next s

/-- `s` with the word whose low `nbits` bits are `w` accepted, so that the very next step completes it: the CORE takes its next command
from `CMD` with `BUSY = 1` (R23, R46), and the host is quiet meanwhile (log 12). -/
def State.withFetchWord (s : State) (nbits w : Nat) : State := s.present (BitVec.ofNat 32 (w % 2 ^ nbits))

end Sys2Proof.Machine
end

