-- ==== Sys2Proof/Safety.lean ====
section
/-! DEFINITION. The terms claims are stated in: what a run and its end are, when no fault is recorded, the invariant of every state a run
reaches, and the states a command leaves when it succeeds and when it fails, written out field by field. -/

namespace Sys2Proof.Machine

/-- "A model's premise 'no fault recorded' is `ESTICKY = 0`" (R30). -/
def State.noFaultRecorded (s : State) : Prop := s.esticky = 0

/-- The run has ended (R269): the last transaction is performed and the command it issued, if any, has completed. -/
def State.runEnded (s : State) : Prop := s.inbox = [] ∧ s.status.busy = false

/-- The next step is the core's: it has accepted a command and the host waits (R45, R264). -/
def State.coreTurn (s : State) : Prop :=
  s.status.busy = true ∧ (s.inbox = [] ∨ ∃ t rest, s.inbox = .request t :: rest)

/-- Every abstract memory transaction the host still has to do names a word that exists (R61). -/
def State.hostInRange (s : State) : Prop :=
  ∀ e ∈ s.inbox, ∀ t, (e = .request t ∨ e = .barge t) → outside s.params t = none

/-- The state after a command succeeded (R47), having written the registers `x`, the memory `dmem`, `IDX`, `TREE` and the flag `EQ` to
the values given here, and nothing else. -/
def State.succeededWith (s : State) (x : Vector Container 16) (dmem : Memory) (idx : Word) (tree : Tree) (eq : Bool) : State :=
  { s with
    x := x, dmem := dmem, idx := idx, tree := tree, cause := none, einfo := 0
    status := { busy := false, done := true, err := false, fatal := false, eq := eq } }

/-- The state after a command succeeded that wrote no more than the registers. -/
def State.succeededX (s : State) (x : Vector Container 16) : State := s.succeededWith x s.dmem s.idx s.tree s.status.eq

/-- The state after a command raised an error of cause `c` (R224): the error registers and nothing else. -/
def State.failedWith (s : State) (c : Cause) (info : Word) : State :=
  { s with
    cause := some c, einfo := info, esticky := s.esticky ||| BitVec.ofNat 32 (2 ^ causeCode c)
    status := { busy := false, done := true, err := true, fatal := decide (c ≠ .notFound), eq := s.status.eq } }

/-- Register number `k` holds a FieldElement. -/
def State.regCanonical (s : State) (k : Nat) : Prop := (s.x.toList.getD k 0).toNat < p

/-- The FieldElement in register number `k` (where `regCanonical` holds). -/
def State.regElem (s : State) (k : Nat) : Fe := Field.reduce (s.x.toList.getD k 0).toNat

/-- `DMEM[a]` holds a FieldElement. -/
def State.wordCanonical (s : State) (a : Nat) : Prop := (s.word a).toNat < p

/-- The FieldElements in `DMEM[base .. base+n-1]` (where `wordCanonical` holds). -/
def State.elems (s : State) (base n : Nat) : List Fe := (List.range n).map fun i => Field.reduce (s.word (base + i)).toNat

/-! The tables of the spec that say, command by command, what is checked, read and written. -/

/-- The width whose tables a command needs before anything else (R222, R225, D29). -/
def widthOf : Instr → Option Nat
  | .fadd _ _ _ => none
  | .fsub _ _ _ => none
  | .fmul _ _ _ => none
  | .fpow5 _ _ => none
  | .fnorm _ _ => none
  | .fdiv _ _ _ => none
  | .perm t => some t.val
  | .hash _ _ n => some (n.val + 1)
  | .cenc _ _ => some 5
  | .cdec _ _ _ => some 5
  | .cchk _ _ => some 5
  | .mbuild => some 3
  | .mroot _ => some 3
  | .mpath _ => some 3
  | .mfold _ _ => some 3
  | .fld _ _ => none
  | .fst _ _ => none

/-- The regions of a command as (base, count), in checking order (20_memory R67), with `nb = ceil(LEN / 3)`. -/
def regionsOf (s : State) : Instr → List (Nat × Nat)
  | .fadd _ _ _ => []
  | .fsub _ _ _ => []
  | .fmul _ _ _ => []
  | .fpow5 _ _ => []
  | .fnorm _ _ => []
  | .fdiv _ _ _ => []
  | .perm _ => []
  | .hash _ _ _ => []
  | .cenc _ _ => [(s.src.toNat, s.len.toNat), (s.dst.toNat, 3 * blockCount s.len.toNat + 1)]
  | .cdec _ _ _ => [(s.src.toNat, 3 * blockCount s.len.toNat + 1), (s.dst.toNat, s.len.toNat)]
  | .cchk _ _ => [(s.src.toNat, s.len.toNat), (s.aux.toNat, 3 * blockCount s.len.toNat + 1)]
  | .mbuild => [(s.src.toNat, s.len.toNat)]
  | .mroot _ => []
  | .mpath _ => [(s.dst.toNat, s.tree.levels)]
  | .mfold _ _ => [(s.src.toNat, s.levels.toNat)]
  | .fld _ off => [(s.src.toNat + off.val, 1)]
  | .fst _ off => [(s.dst.toNat + off.val, 1)]

/-- The region a command writes, as (base, count): the "write" entries of R67. -/
def writeRegionOf (s : State) : Instr → Nat × Nat
  | .fadd _ _ _ => (0, 0)
  | .fsub _ _ _ => (0, 0)
  | .fmul _ _ _ => (0, 0)
  | .fpow5 _ _ => (0, 0)
  | .fnorm _ _ => (0, 0)
  | .fdiv _ _ _ => (0, 0)
  | .perm _ => (0, 0)
  | .hash _ _ _ => (0, 0)
  | .cenc _ _ => (s.dst.toNat, 3 * blockCount s.len.toNat + 1)
  | .cdec _ _ _ => (s.dst.toNat, s.len.toNat)
  | .cchk _ _ => (0, 0)
  | .mbuild => (0, 0)
  | .mroot _ => (0, 0)
  | .mpath _ => (s.dst.toNat, s.tree.levels)
  | .mfold _ _ => (0, 0)
  | .fld _ _ => (0, 0)
  | .fst _ off => (s.dst.toNat + off.val, 1)

/-- The numbers of the registers a command reads as FieldElements, in the order they are checked (10_state R22, R227). -/
def operandRegs : Instr → List Nat
  | .fadd _ ra rb => [ra.val, rb.val]
  | .fsub _ ra rb => [ra.val, rb.val]
  | .fmul _ ra rb => [ra.val, rb.val]
  | .fpow5 _ ra => [ra.val]
  | .fnorm _ _ => []
  | .fdiv _ ra rb => [ra.val, rb.val]
  | .perm t => List.range t.val
  | .hash _ ra n => (List.range n.val).map (ra.val + ·)
  | .cenc ra rb => [ra.val, ra.val + 1, rb.val]
  | .cdec _ ra rb => [ra.val, ra.val + 1, rb.val]
  | .cchk ra rb => [ra.val, ra.val + 1, rb.val]
  | .mbuild => []
  | .mroot _ => []
  | .mpath ra => [ra.val]
  | .mfold _ ra => [ra.val]
  | .fld _ _ => []
  | .fst _ _ => []

/-- The addresses of the words a command reads as FieldElements, in the order they are checked (R67, R77, R227). -/
def operandWords (s : State) : Instr → List Nat
  | .fadd _ _ _ => []
  | .fsub _ _ _ => []
  | .fmul _ _ _ => []
  | .fpow5 _ _ => []
  | .fnorm _ _ => []
  | .fdiv _ _ _ => []
  | .perm _ => []
  | .hash _ _ _ => []
  | .cenc _ _ => (List.range s.len.toNat).map (s.src.toNat + ·)
  | .cdec _ _ _ => (List.range (3 * blockCount s.len.toNat + 1)).map (s.src.toNat + ·)
  | .cchk _ _ => (List.range s.len.toNat).map (s.src.toNat + ·) ++ (List.range (3 * blockCount s.len.toNat + 1)).map (s.aux.toNat + ·)
  | .mbuild => (List.range s.len.toNat).map (s.src.toNat + ·)
  | .mroot _ => []
  | .mpath _ => []
  | .mfold _ _ => (List.range s.levels.toNat).map (s.src.toNat + ·)
  | .fld _ _ => []
  | .fst _ _ => []

/-- The numbers of the registers a command writes (10_state R22, column W). -/
def destinationRegs : Instr → List Nat
  | .fadd rd _ _ => [rd.val]
  | .fsub rd _ _ => [rd.val]
  | .fmul rd _ _ => [rd.val]
  | .fpow5 rd _ => [rd.val]
  | .fnorm rd _ => [rd.val]
  | .fdiv rd _ _ => [rd.val]
  | .perm t => List.range t.val
  | .hash rd _ _ => [rd.val]
  | .cenc _ _ => []
  | .cdec rd _ _ => [rd.val]
  | .cchk _ _ => []
  | .mbuild => []
  | .mroot rd => [rd.val]
  | .mpath _ => []
  | .mfold rd _ => [rd.val]
  | .fld rd _ => [rd.val]
  | .fst _ _ => []

/-- Which causes a command can raise (60_exceptions R223). `IllegalCommand` is every command's: it is the decoder's. -/
def causesOf : Instr → List Cause
  | .fadd _ _ _ => [.illegalCommand, .nonCanonical]
  | .fsub _ _ _ => [.illegalCommand, .nonCanonical]
  | .fmul _ _ _ => [.illegalCommand, .nonCanonical]
  | .fpow5 _ _ => [.illegalCommand, .nonCanonical]
  | .fnorm _ _ => [.illegalCommand]
  | .fdiv _ _ _ => [.divisionByZero, .illegalCommand, .nonCanonical]
  | .perm _ => [.unsupportedWidth, .illegalCommand, .nonCanonical]
  | .hash _ _ _ => [.unsupportedWidth, .illegalCommand, .nonCanonical]
  | .cenc _ _ => [.unsupportedWidth, .illegalCommand, .nonCanonical, .addressRange]
  | .cdec _ _ _ => [.unsupportedWidth, .illegalCommand, .nonCanonical, .addressRange]
  | .cchk _ _ => [.unsupportedWidth, .illegalCommand, .nonCanonical, .addressRange]
  | .mbuild => [.unsupportedWidth, .capacityExceeded, .illegalCommand, .nonCanonical, .addressRange, .badArgument]
  | .mroot _ => [.unsupportedWidth, .illegalCommand]
  | .mpath _ => [.unsupportedWidth, .notFound, .illegalCommand, .nonCanonical, .addressRange]
  | .mfold _ _ => [.unsupportedWidth, .illegalCommand, .nonCanonical, .addressRange, .badArgument]
  | .fld _ _ => [.illegalCommand, .addressRange]
  | .fst _ _ => [.illegalCommand, .addressRange]

/-- A region of `DMEM` that the range check of R66 lets pass. -/
def regionFits (c : Params) (r : Nat × Nat) : Prop := r.2 = 0 ∨ r.1 + r.2 ≤ dmemWords c

/-! The checks of a command in the order of 60_exceptions R231, the word being a command. -/

/-- No `UnsupportedWidth`. -/
def widthOk (s : State) (i : Instr) : Prop := ∀ t, widthOf i = some t → tablesFor s.params t ≠ none

/-- No `BadArgument`: it is raised by `MBUILD` and `MFOLD` (R233). -/
def depthOk (s : State) (i : Instr) : Prop :=
  (i = .mbuild ∨ ∃ rd ra, i = .mfold rd ra) → s.levels.toNat ≤ maxLevelsOf s.params

/-- No `CapacityExceeded`: it is raised by `MBUILD` (R226). -/
def capacityOk (s : State) (i : Instr) : Prop := i = .mbuild → s.len.toNat ≤ 2 ^ s.levels.toNat

/-- No `AddressRange`. -/
def regionsOk (s : State) (i : Instr) : Prop := ∀ r ∈ regionsOf s i, regionFits s.params r

/-- No `NonCanonical`. -/
def operandsOk (s : State) (i : Instr) : Prop :=
  (∀ k ∈ operandRegs i, s.regCanonical k) ∧ ∀ a ∈ operandWords s i, s.wordCanonical a

/-- Neither `DivisionByZero` nor `NotFound` (R229, R228). -/
def dataOk (s : State) (i : Instr) : Prop :=
  (∀ rd ra rb, i = .fdiv rd ra rb → (s.regElem rb.val).val ≠ 0) ∧ ∀ ra, i = .mpath ra → s.regElem ra.val ∈ s.tree.leaves

/-- The invariant of every state of a run. -/
structure State.Inv (s : State) : Prop where
  /-- "`BUSY` and `DONE` are never both 1" (R27). -/
  busyDone     : ¬(s.status.busy = true ∧ s.status.done = true)
  /-- `ERR` is `CAUSE != 0` (R27). -/
  errIsCause   : s.status.err = s.cause.isSome
  /-- `FATAL` is 1 for every cause but `NotFound`, 0 without one (R27). -/
  fatalIsCause : s.status.fatal = decide (s.cause ≠ none ∧ s.cause ≠ some .notFound)
  /-- `EINFO` is 0 when the last command raised no error (R29). -/
  einfoZero    : s.cause = none → s.einfo = 0
  /-- `ESTICKY` bits 0 and [31:10] read 0 (R30). -/
  stickyBits   : ∀ k, s.esticky.getLsbD k = true → 1 ≤ k ∧ k ≤ 9
  /-- The last error is recorded (R30). -/
  stickyCause  : ∀ c, s.cause = some c → s.esticky.getLsbD (causeCode c) = true
  /-- The memory is in its canonical form. -/
  dmemForm     : Memory.wf s.dmem
  /-- Every written word exists (R62). -/
  dmemRange    : ∀ c ∈ s.dmem, c.1 < dmemWords s.params
  /-- `TLEVELS` is in `[0, MAX_LEVELS]` (R35, R43). -/
  treeDepth    : s.tree.levels ≤ maxLevelsOf s.params
  /-- "`layers[0].length ≤ 2^levels`" (R36, R43). -/
  treeCapacity : s.tree.leaves.length ≤ 2 ^ s.tree.levels
  /-- `TLEAVES` fits its CSR (R36). -/
  treeCount    : s.tree.leaves.length < 2 ^ 32

end Sys2Proof.Machine
end

