-- ==== Sys2Proof/Certificates/Slice0/Obligations.lean ====
section
/-! DEFINITION. The statements for the provers. Each is for every state, so for every choice of the parameters `RC`, `MDS`, `ZERO0`, `WSET`,
`DMEM_WORDS`, `MAX_LEVELS` (00_scope R5), which the state carries. -/

open Sys2Proof Sys2Proof.Machine

/-! ## Reset, acceptance, completion -/

/-- R40, R260, R261, R25, R37, R38: the state after reset, and the reset input, which acts at any time, also while busy. What the host has
read and still has to do, and the counters `draws` and `epoch`, are the model's own fields (log 3, 5, 6). -/
def Obligations.ResetLeavesTheSpecifiedState : Prop :=
  (∀ c : Params,
    let s := State.resetWith c
    (∀ i : Reg, s.reg i = 0) ∧
    s.csr .id = 0x5A4B5207 ∧
    (∀ n ∈ ([.cmd, .status, .cause, .einfo, .esticky, .src, .dst, .aux, .len, .levels, .idx, .tlevels, .tleaves] : List Csr), s.csr n = 0) ∧
    s.csr .dmemsz = BitVec.ofNat 32 (dmemWords c) ∧
    (∀ t, t < 32 → (s.csr .widths).getLsbD t = inWset c t) ∧
    s.tree = { levels := 0, leaves := [] } ∧
    ∀ a, Memory.read s.dmem a = none) ∧
  State.reset = State.resetWith Config.params ∧
  ∀ (s : State) (rest : List HostEvent), s.inbox = .reset :: rest →
    step s = .next { State.resetWith s.params with inbox := rest, replies := s.replies, draws := s.draws, epoch := s.epoch + 1 }

/-- R46: acceptance by an idle core, whether or not the host asked first. -/
def Obligations.AcceptanceWritesCommandAndStatusOnly : Prop :=
  ∀ (s : State) (w : Word) (rest : List HostEvent), s.status.busy = false →
    (s.inbox = .request (.writeCsr .cmd w) :: rest ∨ s.inbox = .barge (.writeCsr .cmd w) :: rest) →
    step s = .next { s with inbox := rest, cmd := w, status := { s.status with busy := true, done := false } }

/-- R45, R47, R85: the core's step is the completion of the command that the word in `CMD` decodes to; a presented word is what the next
step completes. R61, R71: the host's step is the whole of one transaction, which leaves the queue (log 5). An idle core with a quiet
host stays as it is (R269, log 21). -/
def Obligations.StepCompletesTheAcceptedCommand : Prop :=
  (∀ (s : State) (i : Instr), s.coreTurn → decode s.cmd = .ok i → step s = exec i s) ∧
  (∀ (s : State) (w : Word) (i : Instr), decode w = .ok i →
    (s.withFetchWord 32 w.toNat).cmd = w ∧ step (s.withFetchWord 32 w.toNat) = exec i (s.withFetchWord 32 w.toNat)) ∧
  (∀ (s : State) (t : Transaction) (rest : List HostEvent),
    (s.inbox = .request t :: rest ∧ s.status.busy = false) ∨ s.inbox = .barge t :: rest → step s = perform { s with inbox := rest } t) ∧
  ∀ s : State, s.inbox = [] → s.status.busy = false → step s = .next s

/-- R230: a word that decodes to no command completes with cause 5, `EINFO` the word, and stays readable in `CMD`. -/
def Obligations.IllegalWordCompletesWithIllegalCommand : Prop :=
  ∀ (s : State) (e : Illegal), s.coreTurn → decode s.cmd = .error e →
    step s = .next (s.failedWith .illegalCommand s.cmd) ∧ (s.failedWith .illegalCommand s.cmd).csr .cmd = s.cmd

/-! ## Encoding -/

/-- Every encoding example of 30_encoding section 4, words written out: the nineteen commands, the six illegal words, and `PERM 10`, which
is a command. -/
def Obligations.EncodingExamplesDecode : Prop :=
  decode 0x01312000 = .ok (.fadd 3 1 2) ∧ decode 0x020FF000 = .ok (.fsub 0 15 15) ∧ decode 0x03444000 = .ok (.fmul 4 4 4) ∧
  decode 0x04210000 = .ok (.fpow5 2 1) ∧ decode 0x05770000 = .ok (.fnorm 7 7) ∧ decode 0x06123000 = .ok (.fdiv 1 2 3) ∧
  decode 0x10000003 = .ok (.perm 3) ∧ decode 0x10000009 = .ok (.perm 9) ∧ decode 0x20010002 = .ok (.hash 0 1 2) ∧
  decode 0x20800008 = .ok (.hash 8 0 8) ∧ decode 0x30046000 = .ok (.cenc 4 6) ∧ decode 0x31746000 = .ok (.cdec 7 4 6) ∧
  decode 0x32046000 = .ok (.cchk 4 6) ∧ decode 0x40000000 = .ok .mbuild ∧ decode 0x41100000 = .ok (.mroot 1) ∧
  decode 0x42020000 = .ok (.mpath 2) ∧ decode 0x43320000 = .ok (.mfold 3 2) ∧ decode 0x50200005 = .ok (.fld 2 5) ∧
  decode 0x51020FFF = .ok (.fst 2 4095) ∧
  decode 0x00000000 = .error .unknownOpcode ∧ decode 0x01312001 = .error .unusedFieldNotZero ∧
  decode 0x10100003 = .error .unusedFieldNotZero ∧ decode 0x20090008 = .error .groupPastX15 ∧
  decode 0x300F6000 = .error .groupPastX15 ∧ decode 0x44000000 = .error .unknownOpcode ∧ decode 0x1000000A = .ok (.perm 10)

/-- R81 to R85, R91: decoding the encoded word of a command gives the command back, and a decoded word is its command's encoding. -/
def Obligations.DecodeAndEncodeAgree : Prop :=
  (∀ i : Instr, i.wellFormed = true → decode (encode i) = .ok i) ∧
  ∀ (w : Word) (i : Instr), decode w = .ok i → encode i = w ∧ i.wellFormed = true

/-- R84, R85: a word is a command exactly when it matches a row of the table, and then the row's command, but for the group check of R91. -/
def Obligations.DecoderAgreesWithOpcodeTable : Prop :=
  (∀ (w : Word) (i : Instr), decode w = .ok i → matchMask i ∈ opcodeTable ∧ w &&& (matchMask i).2 = (matchMask i).1) ∧
  (∀ (w : Word) (row : Word × Word), row ∈ opcodeTable → w &&& row.2 = row.1 →
    ∃ i, matchMask i = row ∧ encode i = w ∧ decode w = if i.wellFormed then .ok i else .error .groupPastX15) ∧
  ∀ w : Word, (∀ row ∈ opcodeTable, w &&& row.2 ≠ row.1) → ∃ e, decode w = .error e

/-- R85: "no two rows overlap because their `op` values differ". -/
def Obligations.OpcodeRowsNeverOverlap : Prop :=
  opcodeTable.Pairwise fun a b => ∀ w : Word, ¬(w &&& a.2 = a.1 ∧ w &&& b.2 = b.1)

/-- R91: which commands have a register group that passes `x[15]`. -/
def Obligations.RegisterGroupsEndAtX15 : Prop :=
  (∀ (rd ra : Reg) (n : Count), (Instr.hash rd ra n).wellFormed = false ↔ 1 ≤ n.val ∧ 15 < ra.val + n.val - 1) ∧
  (∀ ra rb : Reg, (Instr.cenc ra rb).wellFormed = false ↔ ra = 15) ∧
  (∀ rd ra rb : Reg, (Instr.cdec rd ra rb).wellFormed = false ↔ ra = 15) ∧
  (∀ ra rb : Reg, (Instr.cchk ra rb).wellFormed = false ↔ ra = 15) ∧
  ∀ t : Count, (Instr.perm t).wellFormed = true

/-! ## Field functions -/

/-- R100, R101, R102, R105: the values of `add`, `sub`, `mul`, `normalize`. -/
def Obligations.FieldFunctionValues : Prop :=
  (∀ a b : Fe, (Field.add a b).val = (a.val + b.val) % p ∧
    (a.val + b.val < p → (Field.add a b).val = a.val + b.val) ∧ (p ≤ a.val + b.val → (Field.add a b).val = a.val + b.val - p)) ∧
  (∀ a b : Fe, ((Field.sub a b).val : Int) = ((a.val : Int) - b.val) % p ∧
    (b.val ≤ a.val → (Field.sub a b).val = a.val - b.val) ∧ (a.val < b.val → (Field.sub a b).val = a.val + p - b.val)) ∧
  (∀ a b : Fe, (Field.mul a b).val = a.val * b.val % p) ∧
  ∀ v : Container, (Field.normalize v).val = v.toNat % p ∧ (v.toNat < p → (Field.normalize v).val = v.toNat) ∧
    ∃ k ≤ 5, v.toNat = (Field.normalize v).val + k * p

/-- R103, R104: the S-box is two squarings and a multiply, and its value is the fifth power. -/
def Obligations.FifthPowerValue : Prop :=
  ∀ a : Fe, Field.square a = Field.mul a a ∧ Field.pow5 a = Field.mul (Field.square (Field.square a)) a ∧ (Field.pow5 a).val = a.val ^ 5 % p

/-- R106: `inv(b)` is the unique `c` with `mul(b, c) = 1`. -/
def Obligations.InverseIsTheUniqueSolution : Prop :=
  ∀ b : Fe, b.val ≠ 0 → ∀ c : Fe, (Field.mul b c).val = 1 ↔ c = Field.inv b

/-- R107: division fails exactly for divisor 0, and else gives the one `q` with `mul(q, b) = a`. -/
def Obligations.DivisionFailsOnZeroDivisorOnly : Prop :=
  ∀ a b : Fe, (b.val = 0 → Field.div a b = none) ∧
    (b.val ≠ 0 → ∃ q, Field.div a b = some q ∧ q = Field.mul a (Field.inv b) ∧ ∀ q', Field.mul q' b = a ↔ q' = q)

/-- R116: the arithmetic laws. -/
def Obligations.FieldLawsHold : Prop :=
  (∀ a b : Fe, Field.add a b = Field.add b a ∧ Field.mul a b = Field.mul b a) ∧
  (∀ a b c : Fe, Field.add (Field.add a b) c = Field.add a (Field.add b c) ∧ Field.mul (Field.mul a b) c = Field.mul a (Field.mul b c) ∧
    Field.mul a (Field.add b c) = Field.add (Field.mul a b) (Field.mul a c)) ∧
  (∀ a : Fe, Field.add a (Field.reduce 0) = a ∧ Field.mul a (Field.reduce 1) = a) ∧
  (∀ a b : Fe, Field.sub (Field.add a b) b = a ∧ Field.add (Field.sub a b) b = a) ∧
  (∀ a b q : Fe, b.val ≠ 0 → Field.div a b = some q → Field.mul q b = a) ∧
  ∀ a b : Fe, Field.pow5 (Field.mul a b) = Field.mul (Field.pow5 a) (Field.pow5 b)

/-! ## Field commands -/

/-- R108, R109, R110: results of `FADD`, `FSUB`, `FMUL` on canonical operands; `rd` may be a source. -/
def Obligations.AddSubMulCommandResults : Prop :=
  ∀ (rd ra rb : Reg) (s : State), (s.reg ra).toNat < p → (s.reg rb).toNat < p →
    exec (.fadd rd ra rb) s =
      .next (s.succeededX (s.x.set rd.val (BitVec.ofNat 256 (((s.reg ra).toNat + (s.reg rb).toNat) % p)))) ∧
    exec (.fsub rd ra rb) s =
      .next (s.succeededX (s.x.set rd.val (BitVec.ofNat 256
        (if (s.reg rb).toNat ≤ (s.reg ra).toNat then (s.reg ra).toNat - (s.reg rb).toNat
         else (s.reg ra).toNat + p - (s.reg rb).toNat)))) ∧
    exec (.fmul rd ra rb) s =
      .next (s.succeededX (s.x.set rd.val (BitVec.ofNat 256 ((s.reg ra).toNat * (s.reg rb).toNat % p))))

/-- R111, R112: results of `FPOW5` on a canonical operand and of `FNORM` on any. -/
def Obligations.PowerAndNormalizeCommandResults : Prop :=
  (∀ (rd ra : Reg) (s : State), (s.reg ra).toNat < p →
    exec (.fpow5 rd ra) s = .next (s.succeededX (s.x.set rd.val (BitVec.ofNat 256 ((s.reg ra).toNat ^ 5 % p))))) ∧
  ∀ (rd ra : Reg) (s : State),
    exec (.fnorm rd ra) s = .next (s.succeededX (s.x.set rd.val (BitVec.ofNat 256 ((s.reg ra).toNat % p))))

/-- R113, R229: `FDIV` on canonical operands, divisor not 0 and 0. -/
def Obligations.DivideCommandResult : Prop :=
  ∀ (rd ra rb : Reg) (s : State), (s.reg ra).toNat < p → (s.reg rb).toNat < p →
    ((s.reg rb).toNat ≠ 0 → ∃ q, q < p ∧ q * (s.reg rb).toNat % p = (s.reg ra).toNat ∧
      exec (.fdiv rd ra rb) s = .next (s.succeededX (s.x.set rd.val (BitVec.ofNat 256 q)))) ∧
    ((s.reg rb).toNat = 0 →
      exec (.fdiv rd ra rb) s = .next (s.failedWith .divisionByZero (BitVec.ofNat 32 rb.val)))

/-! ## Permutation and hash -/

/-- R122, R123, R124: the value of every slot after each of the three steps of a round. -/
def Obligations.RoundLayerValues : Prop :=
  ∀ (T : Tables) (r : Nat) (S : List Fe),
    (ark T r S).length = S.length ∧ (sbox r S).length = S.length ∧ (mix T S).length = S.length ∧
    ∀ i, i < S.length →
      ((ark T r S).getD i 0).val = ((S.getD i 0).val + (rcAt T (r * S.length + i)).val) % p ∧
      ((sbox r S).getD i 0).val =
        (if (r < 4 ∨ 4 + partialRounds S.length ≤ r) ∨ i = 0 then (S.getD i 0).val ^ 5 % p else (S.getD i 0).val) ∧
      ((mix T S).getD i 0).val = (∑ j ∈ Finset.range S.length, (mdsAt T i j).val * (S.getD j 0).val) % p

/-- R120, R121, R7, R125: `permute` runs the rounds `0 .. total-1` in order, each with its three steps in order, and fails for a width
without tables; widths outside 2..9 have none. -/
def Obligations.PermutationRunsEveryRoundInOrder : Prop :=
  (∀ (T : Tables) (s : List Fe), ∃ f : Nat → List Fe, f 0 = s ∧ (∀ r, f (r + 1) = mix T (sbox r (ark T r (f r)))) ∧
    (∀ r, (f r).length = s.length) ∧ permuteWith T s = f (8 + partialRounds s.length)) ∧
  ([2, 3, 4, 5, 6, 7, 8, 9].map partialRounds = [56, 57, 56, 60, 60, 63, 64, 63]) ∧
  (∀ (c : Params) (s : List Fe),
    (∀ T, tablesFor c s.length = some T → permute c s = .ok (permuteWith T s)) ∧
    (tablesFor c s.length = none → permute c s = .error { cause := .unsupportedWidth, info := BitVec.ofNat 32 s.length })) ∧
  ∀ (c : Params) (t : Nat), tablesFor c t ≠ none → 2 ≤ t ∧ t ≤ 9

/-- R127: `PERM t` overwrites `x[0 .. t-1]` and no other register. -/
def Obligations.PermCommandResult : Prop :=
  ∀ (t : Count) (s : State) (T : Tables), tablesFor s.params t.val = some T → (∀ k < t.val, s.regCanonical k) →
    exec (.perm t) s = .next (s.succeededX (Vector.ofFn fun i : Fin 16 =>
      if i.val < t.val then ofFe ((permuteWith T ((List.range t.val).map s.regElem)).getD i.val 0) else s.reg i))

/-- R140: the hash is slot 0 of the permutation of `[0] ++ inputs`; it fails for 0 inputs and for 9 and more. -/
def Obligations.HashIsSlotZeroOfThePermutation : Prop :=
  ∀ (c : Params) (v : List Fe),
    (∀ T, tablesFor c (v.length + 1) = some T → (permuteWith T (0 :: v)).length = v.length + 1 ∧
      ∃ h, hash c v = .ok h ∧ (permuteWith T (0 :: v))[0]? = some h) ∧
    (tablesFor c (v.length + 1) = none → hash c v = .error { cause := .unsupportedWidth, info := BitVec.ofNat 32 (v.length + 1) }) ∧
    (v.length = 0 ∨ 9 ≤ v.length → tablesFor c (v.length + 1) = none)

/-- R141: `HASH rd, ra, n`. -/
def Obligations.HashCommandResult : Prop :=
  ∀ (rd ra : Reg) (n : Count) (s : State) (T : Tables), ra.val + n.val ≤ 16 → tablesFor s.params (n.val + 1) = some T →
    (∀ j < n.val, s.regCanonical (ra.val + j)) →
    exec (.hash rd ra n) s = .next (s.succeededX (s.x.set rd.val
      (ofFe ((permuteWith T (0 :: (List.range n.val).map fun j => s.regElem (ra.val + j))).getD 0 0))))

/-! ## Cipher -/

/-- R153: the initial state, its slot 0 being `nonce + L * 2^128` modulo `p`. -/
def Obligations.CipherInitialStateValue : Prop :=
  ∀ (k : Key) (nonce : Fe) (L : Nat), L < 2 ^ 32 →
    L * 2 ^ 128 < p ∧ (cinit k nonce L).map Fin.val = [(nonce.val + L * 2 ^ 128) % p, k.k0.val, k.k1.val, 0, 0]

/-- R151, R152, R154: encryption as the spec's loop says it: `St b` is the state before block `b`; slots 0 and 1 are changed by the
permutation only; padding is 0 (a message word past the end reads 0 here); the tag is slot 2 of the last state. The layout is the spec's
decision D18 (log 14). -/
def Obligations.EncryptionFollowsTheSchedule : Prop :=
  ∀ (T : Tables) (msg : List Fe) (k : Key) (nonce : Fe),
    let nb := (msg.length + 2) / 3
    let ct := encrypt T msg k nonce
    ct.length = 3 * nb + 1 ∧
    ∃ St : Nat → List Fe, St 0 = permuteWith T (cinit k nonce msg.length) ∧
      (∀ b < nb, (∀ j < 3, ct.getD (3 * b + j) 0 = Field.add ((St b).getD (2 + j) 0) (msg.getD (3 * b + j) 0)) ∧
        St (b + 1) = permuteWith T
          [(St b).getD 0 0, (St b).getD 1 0, ct.getD (3 * b) 0, ct.getD (3 * b + 1) 0, ct.getD (3 * b + 2) 0]) ∧
      ct.getD (3 * nb) 0 = (St nb).getD 2 0

/-- R155, R156: decryption as the spec's loop says it, of any ciphertext, forged ones among them: each plaintext word is the ciphertext word
minus the rate slot, the rate slots take the ciphertext words, the tag is slot 2 of the last state, and it matches exactly when it is the
last ciphertext word. The layout is the spec's decision D18 (log 14). -/
def Obligations.DecryptionFollowsTheSchedule : Prop :=
  ∀ (T : Tables) (ct : List Fe) (k : Key) (nonce : Fe) (L : Nat),
    let nb := (L + 2) / 3
    let d := decrypt T ct k nonce L
    ct.length = 3 * nb + 1 →
    d.plain.length = L ∧
    ∃ St : Nat → List Fe, St 0 = permuteWith T (cinit k nonce L) ∧
      (∀ b < nb, St (b + 1) = permuteWith T
        [(St b).getD 0 0, (St b).getD 1 0, ct.getD (3 * b) 0, ct.getD (3 * b + 1) 0, ct.getD (3 * b + 2) 0]) ∧
      (∀ b j, j < 3 → 3 * b + j < L → d.plain.getD (3 * b + j) 0 = Field.sub (ct.getD (3 * b + j) 0) ((St b).getD (2 + j) 0)) ∧
      d.tag = (St nb).getD 2 0 ∧ (d.ok = true ↔ d.tag = ct.getD (3 * nb) 0)

/-- R163: decryption recovers the message for every length, key, nonce and every choice of tables; the recomputed tag is the appended one. -/
def Obligations.CipherRoundTripRecoversMessage : Prop :=
  ∀ (T : Tables) (msg : List Fe) (k : Key) (nonce : Fe),
    let d := decrypt T (encrypt T msg k nonce) k nonce msg.length
    d.plain = msg ∧ d.ok = true ∧ (encrypt T msg k nonce).getLast? = some d.tag

/-- R157, R164: `check` accepts the encryption of the message and rejects that of every other message of the same length. -/
def Obligations.TamperedMessageFailsCheck : Prop :=
  ∀ (T : Tables) (msg : List Fe) (k : Key) (nonce : Fe),
    check T (encrypt T msg k nonce) msg k nonce = true ∧
    ∀ msg', msg'.length = msg.length → msg' ≠ msg → check T (encrypt T msg k nonce) msg' k nonce = false

/-- R160: `CENC ra, rb`, regions free to overlap (R76). -/
def Obligations.EncryptCommandResult : Prop :=
  ∀ (ra rb : Reg) (s : State) (T : Tables), ra ≠ 15 → tablesFor s.params 5 = some T →
    regionsOk s (.cenc ra rb) → operandsOk s (.cenc ra rb) →
    let n := 3 * ((s.len.toNat + 2) / 3) + 1
    let ct := encrypt T (s.elems s.src.toNat s.len.toNat) { k0 := s.regElem ra.val, k1 := s.regElem (ra.val + 1) } (s.regElem rb.val)
    ∃ t, exec (.cenc ra rb) s = .next t ∧ t = s.succeededWith s.x t.dmem s.idx s.tree s.status.eq ∧
      (∀ j < n, t.word (s.dst.toNat + j) = ofFe (ct.getD j 0)) ∧
      ∀ a, a < s.dst.toNat ∨ s.dst.toNat + n ≤ a → t.word a = s.word a

/-- R161: `CDEC rd, ra, rb`: exactly `LEN` words are written, `x[rd]` takes the recomputed tag, `EQ` the match: it is 1 when the tag is the
last ciphertext word and 0 when it is not, which is no error. -/
def Obligations.DecryptCommandResult : Prop :=
  ∀ (rd ra rb : Reg) (s : State) (T : Tables), ra ≠ 15 → tablesFor s.params 5 = some T →
    regionsOk s (.cdec rd ra rb) → operandsOk s (.cdec rd ra rb) →
    let d := decrypt T (s.elems s.src.toNat (3 * ((s.len.toNat + 2) / 3) + 1))
      { k0 := s.regElem ra.val, k1 := s.regElem (ra.val + 1) } (s.regElem rb.val) s.len.toNat
    ∃ t, exec (.cdec rd ra rb) s = .next t ∧ t = s.succeededWith (s.x.set rd.val (ofFe d.tag)) t.dmem s.idx s.tree d.ok ∧
      (t.status.eq = true ↔ t.reg rd = s.word (s.src.toNat + 3 * ((s.len.toNat + 2) / 3))) ∧
      (∀ j < s.len.toNat, t.word (s.dst.toNat + j) = ofFe (d.plain.getD j 0)) ∧
      ∀ a, a < s.dst.toNat ∨ s.dst.toNat + s.len.toNat ≤ a → t.word a = s.word a

/-- R162: `CCHK ra, rb` writes `EQ` and nothing else. -/
def Obligations.CheckCommandResult : Prop :=
  ∀ (ra rb : Reg) (s : State) (T : Tables), ra ≠ 15 → tablesFor s.params 5 = some T →
    regionsOk s (.cchk ra rb) → operandsOk s (.cchk ra rb) →
    exec (.cchk ra rb) s = .next (s.succeededWith s.x s.dmem s.idx s.tree
      (decide (s.elems s.aux.toNat (3 * ((s.len.toNat + 2) / 3) + 1) =
        encrypt T (s.elems s.src.toNat s.len.toNat) { k0 := s.regElem ra.val, k1 := s.regElem (ra.val + 1) } (s.regElem rb.val))))

/-- R160, R161, R163 at the level of commands: after a `CENC` that succeeded, `CDEC` of its output with the same key, nonce and `LEN` writes
the message to any region that fits, and `EQ = 1`. -/
def Obligations.EncryptThenDecryptCommands : Prop :=
  ∀ (s t : State) (rd ra rb : Reg) (out : Word), exec (.cenc ra rb) s = .next t → t.cause = none →
    regionFits s.params (out.toNat, s.len.toNat) →
    ∃ u, exec (.cdec rd ra rb) { t with src := s.dst, dst := out } = .next u ∧ u.cause = none ∧ u.status.eq = true ∧
      ∀ j < s.len.toNat, u.word (out.toNat + j) = s.word (s.src.toNat + j)

/-! ## Merkle accumulator -/

/-- R142, R181, R182: the node hash is slot 0 of the permutation of `[0, l, r]`; the defaults are `ZERO0` and each the hash of two of the one
before; each layer from the one below; only a missing right sibling is replaced; the length of layer `L` is `ceil(len / 2^L)`. -/
def Obligations.LayersFollowThePairingRule : Prop :=
  ∀ (T : Tables) (z0 : Fe) (leaves : List Fe) (L : Nat),
    (∀ l r : Fe, hash2 T l r = (permuteWith T [0, l, r]).getD 0 0 ∧
      ∀ c : Params, tablesFor c 3 = some T → hash c [l, r] = .ok (hash2 T l r)) ∧
    zeroAt T z0 0 = z0 ∧ (∀ i, zeroAt T z0 (i + 1) = hash2 T (zeroAt T z0 i) (zeroAt T z0 i)) ∧
    layer T z0 leaves 0 = leaves ∧
    (layer T z0 leaves L).length = (leaves.length + 2 ^ L - 1) / 2 ^ L ∧
    (layer T z0 leaves (L + 1)).length = ((layer T z0 leaves L).length + 1) / 2 ∧
    ∀ i < (layer T z0 leaves (L + 1)).length,
      (layer T z0 leaves (L + 1)).getD i 0 =
        hash2 T ((layer T z0 leaves L).getD (2 * i) 0)
          (if 2 * i + 1 < (layer T z0 leaves L).length then (layer T z0 leaves L).getD (2 * i + 1) 0 else zeroAt T z0 L)

/-- R184, R186: the search finds the smallest index, and nothing exactly when the leaf is absent. -/
def Obligations.FirstMatchingLeafIsFound : Prop :=
  ∀ (leaf : Fe) (leaves : List Fe),
    (∀ i, findLeaf leaf leaves = some i ↔ leaves[i]? = some leaf ∧ ∀ j < i, leaves[j]? ≠ some leaf) ∧
    (findLeaf leaf leaves = none ↔ leaf ∉ leaves)

/-- R194: every leaf in the tree has a path, and replaying it gives the root, for every choice of tables and `ZERO0`. -/
def Obligations.PathReplayReconstructsRoot : Prop :=
  ∀ (T : Tables) (z0 : Fe) (levels : Nat) (leaves : List Fe) (leaf : Fe), leaves.length ≤ 2 ^ levels → leaf ∈ leaves →
    ∃ pe i0, pathFor T z0 levels leaves leaf = some (pe, i0) ∧ leaves[i0]? = some leaf ∧ pe.length = levels ∧
      foldPath T leaf pe i0 = treeRoot T z0 levels leaves

/-- R197: node `i` of layer `L` depends only on the leaves with index in `[i * 2^L, (i+1) * 2^L)`. -/
def Obligations.SubtreeDependsOnItsOwnLeaves : Prop :=
  ∀ (T : Tables) (z0 : Fe) (leaves leaves' : List Fe) (L i : Nat),
    (∀ j, i * 2 ^ L ≤ j → j < (i + 1) * 2 ^ L → leaves[j]? = leaves'[j]?) →
    (layer T z0 leaves L)[i]? = (layer T z0 leaves' L)[i]?

/-- R190, R191, R35, R36: `MBUILD` copies the leaves into the tree store, and CSRs `TLEVELS`, `TLEAVES` then read `LEVELS` and `LEN`; `MROOT rd` gives the one node of the top layer or the default. -/
def Obligations.BuildAndRootCommandResults : Prop :=
  (∀ s : State, widthOk s .mbuild → depthOk s .mbuild → capacityOk s .mbuild → regionsOk s .mbuild → operandsOk s .mbuild →
    let t := s.succeededWith s.x s.dmem s.idx
      { levels := s.levels.toNat, leaves := s.elems s.src.toNat s.len.toNat } s.status.eq
    exec .mbuild s = .next t ∧ t.csr .tlevels = s.levels ∧ t.csr .tleaves = s.len) ∧
  ∀ (rd : Reg) (s : State) (T : Tables), tablesFor s.params 3 = some T →
    exec (.mroot rd) s = .next (s.succeededX (s.x.set rd.val
      (ofFe ((layer T s.params.zero0 s.tree.leaves s.tree.levels).getD 0 (zeroAt T s.params.zero0 s.tree.levels)))))

/-- R192, R185, R189, R228: `MPATH ra`: the sibling of each level at `DST + L`, the first matching index in `IDX`; when the leaf is absent,
`NotFound` with `EINFO` 0 and no write. -/
def Obligations.PathCommandResult : Prop :=
  ∀ (ra : Reg) (s : State) (T : Tables), tablesFor s.params 3 = some T → regionsOk s (.mpath ra) → (s.reg ra).toNat < p →
    (∀ i0, s.tree.leaves[i0]? = some (s.regElem ra.val) → (∀ j < i0, s.tree.leaves[j]? ≠ some (s.regElem ra.val)) →
      ∃ t, exec (.mpath ra) s = .next t ∧ t = s.succeededWith s.x t.dmem (BitVec.ofNat 32 i0) s.tree s.status.eq ∧
        (∀ L < s.tree.levels, t.word (s.dst.toNat + L) = ofFe
          (if i0 / 2 ^ L % 2 = 0
           then (layer T s.params.zero0 s.tree.leaves L).getD (i0 / 2 ^ L + 1) (zeroAt T s.params.zero0 L)
           else (layer T s.params.zero0 s.tree.leaves L).getD (i0 / 2 ^ L - 1) 0)) ∧
        ∀ a, a < s.dst.toNat ∨ s.dst.toNat + s.tree.levels ≤ a → t.word a = s.word a) ∧
    (s.regElem ra.val ∉ s.tree.leaves → exec (.mpath ra) s = .next (s.failedWith .notFound 0))

/-- R193, R188: `MFOLD rd, ra`: bit `L` of `IDX` says on which side the sibling of level `L` goes. -/
def Obligations.FoldCommandResult : Prop :=
  ∀ (rd ra : Reg) (s : State) (T : Tables), tablesFor s.params 3 = some T → depthOk s (.mfold rd ra) → regionsOk s (.mfold rd ra) →
    operandsOk s (.mfold rd ra) →
    exec (.mfold rd ra) s = .next (s.succeededX (s.x.set rd.val (ofFe
      ((List.range s.levels.toNat).foldl
        (fun node L => if s.idx.getLsbD L then hash2 T (Field.reduce (s.word (s.src.toNat + L)).toNat) node
          else hash2 T node (Field.reduce (s.word (s.src.toNat + L)).toNat))
        (s.regElem ra.val)))))

/-- R196: `MBUILD` with `LEN = 0`, then `MROOT rd`, gives `zero[LEVELS]`. -/
def Obligations.EmptyTreeRootIsTheDefault : Prop :=
  ∀ (s : State) (rd : Reg) (T : Tables), tablesFor s.params 3 = some T → s.levels.toNat ≤ maxLevelsOf s.params → s.len = 0 →
    ∃ t, exec .mbuild s = .next t ∧ t.cause = none ∧
      exec (.mroot rd) t = .next (t.succeededX (t.x.set rd.val (ofFe (zeroAt T s.params.zero0 s.levels.toNat))))

/-- R192, R193, R194 at the level of commands: in a state of a run, `MFOLD` over what `MPATH` wrote gives what `MROOT` gives. -/
def Obligations.PathThenFoldCommandsGiveTheRoot : Prop :=
  ∀ (s t : State) (rd ra : Reg), s.Inv → exec (.mpath ra) s = .next t → t.cause = none →
    ∃ u v, exec (.mfold rd ra) { t with src := s.dst, levels := BitVec.ofNat 32 s.tree.levels } = .next u ∧ u.cause = none ∧
      exec (.mroot rd) s = .next v ∧ v.cause = none ∧ u.reg rd = v.reg rd

/-! ## Data movement -/

/-- R210, R211: `FLD`, `FST` move one raw word at base plus offset. -/
def Obligations.LoadAndStoreCommandResults : Prop :=
  (∀ (rd : Reg) (off : Offset) (s : State), s.src.toNat + off.val < dmemWords s.params →
    exec (.fld rd off) s = .next (s.succeededX (s.x.set rd.val (s.word (s.src.toNat + off.val))))) ∧
  ∀ (ra : Reg) (off : Offset) (s : State), s.dst.toNat + off.val < dmemWords s.params →
    ∃ t, exec (.fst ra off) s = .next t ∧ t = s.succeededWith s.x t.dmem s.idx s.tree s.status.eq ∧
      t.word (s.dst.toNat + off.val) = s.reg ra ∧ ∀ a, a ≠ s.dst.toNat + off.val → t.word a = s.word a

/-! ## Errors -/

/-- R225, R231: a command whose width has no tables reports it before anything else. -/
def Obligations.UnsupportedWidthIsReportedFirst : Prop :=
  ∀ (i : Instr) (s : State) (t : Nat), i.wellFormed = true → widthOf i = some t → tablesFor s.params t = none →
    exec i s = .next (s.failedWith .unsupportedWidth (BitVec.ofNat 32 t))

/-- R226, R233, R195, R231: depth, then capacity. -/
def Obligations.DepthAndCapacityErrors : Prop :=
  (∀ s : State, widthOk s .mbuild → maxLevelsOf s.params < s.levels.toNat →
    exec .mbuild s = .next (s.failedWith .badArgument s.levels)) ∧
  (∀ (s : State) (rd ra : Reg), widthOk s (.mfold rd ra) → maxLevelsOf s.params < s.levels.toNat →
    exec (.mfold rd ra) s = .next (s.failedWith .badArgument s.levels)) ∧
  ∀ s : State, widthOk s .mbuild → s.levels.toNat ≤ maxLevelsOf s.params → 2 ^ s.levels.toNat < s.len.toNat →
    exec .mbuild s = .next (s.failedWith .capacityExceeded s.len)

/-- R66, R67, R231: the first region that fails is reported, before any data is looked at; a region with count 0 never fails. -/
def Obligations.AddressRangeErrors : Prop :=
  ∀ (i : Instr) (s : State), i.wellFormed = true → widthOk s i → depthOk s i → capacityOk s i →
    (∀ before base count after, regionsOf s i = before ++ (base, count) :: after →
      (∀ r ∈ before, r.2 = 0 ∨ r.1 + r.2 ≤ dmemWords s.params) → 0 < count → dmemWords s.params < base + count →
      exec i s = .next (s.failedWith .addressRange (BitVec.ofNat 32 base))) ∧
    ((∀ r ∈ regionsOf s i, r.2 = 0 ∨ r.1 + r.2 ≤ dmemWords s.params) → ∀ t, exec i s = .next t → t.cause ≠ some .addressRange)

/-- R227, R77, R231: the first operand that holds no FieldElement is reported, registers before memory words. -/
def Obligations.NonCanonicalOperandsReportedInOrder : Prop :=
  ∀ (i : Instr) (s : State), i.wellFormed = true → widthOk s i → depthOk s i → capacityOk s i → regionsOk s i →
    (∀ before k after, operandRegs i = before ++ k :: after → (∀ j ∈ before, s.regCanonical j) → ¬s.regCanonical k →
      exec i s = .next (s.failedWith .nonCanonical (BitVec.ofNat 32 (0x80000000 + k)))) ∧
    ∀ before a after, (∀ j ∈ operandRegs i, s.regCanonical j) → operandWords s i = before ++ a :: after →
      (∀ b ∈ before, s.wordCanonical b) → ¬s.wordCanonical a →
      exec i s = .next (s.failedWith .nonCanonical (BitVec.ofNat 32 a))

/-- R47, R231: a command succeeds exactly when every check of its rule passes. -/
def Obligations.CommandSucceedsExactlyWhenChecksPass : Prop :=
  ∀ (i : Instr) (s : State), i.wellFormed = true →
    ∃ t, exec i s = .next t ∧
      (t.cause = none ↔ widthOk s i ∧ depthOk s i ∧ capacityOk s i ∧ regionsOk s i ∧ operandsOk s i ∧ dataOk s i)

/-- R224: a command that raised an error changed the error registers and nothing else. -/
def Obligations.ErrorsArePrecise : Prop :=
  ∀ (i : Instr) (s t : State) (c : Cause), exec i s = .next t → t.cause = some c → t = s.failedWith c t.einfo

/-- R223: which command can raise which cause; a decoded command never raises `IllegalCommand`. -/
def Obligations.CausesPerCommand : Prop :=
  ∀ (i : Instr) (s t : State) (c : Cause), exec i s = .next t → t.cause = some c →
    c ∈ causesOf i ∧ (i.wellFormed = true → c ≠ .illegalCommand)

/-! ## What commands leave alone -/

/-- R22, R31 to R34, R41, R43: the outputs of each command; everything else keeps its value. -/
def Obligations.CommandsWriteOnlyTheirOutputs : Prop :=
  ∀ (i : Instr) (s t : State), exec i s = .next t →
    (t.cmd = s.cmd ∧ t.src = s.src ∧ t.dst = s.dst ∧ t.aux = s.aux ∧ t.len = s.len ∧ t.levels = s.levels ∧ t.params = s.params ∧
      t.inbox = s.inbox ∧ t.replies = s.replies ∧ t.draws = s.draws ∧ t.epoch = s.epoch) ∧
    t.status.busy = false ∧ t.status.done = true ∧
    (∀ r : Reg, t.reg r ≠ s.reg r → r.val ∈ destinationRegs i) ∧
    (t.tree ≠ s.tree → i = .mbuild) ∧
    (t.idx ≠ s.idx → ∃ ra, i = .mpath ra) ∧
    (t.status.eq ≠ s.status.eq → (∃ rd ra rb, i = .cdec rd ra rb) ∨ ∃ ra rb, i = .cchk ra rb)

/-- R67, R224: every word outside the region a command writes keeps its value, and every register a command other than `FLD` changes holds
a FieldElement (R114). -/
def Obligations.MemoryOutsideTheWriteRegionIsUnchanged : Prop :=
  ∀ (i : Instr) (s t : State), exec i s = .next t →
    (∀ a, (a < (writeRegionOf s i).1 ∨ (writeRegionOf s i).1 + (writeRegionOf s i).2 ≤ a) → t.word a = s.word a) ∧
    ((∀ rd off, i ≠ .fld rd off) → ∀ r : Reg, t.reg r ≠ s.reg r → (t.reg r).toNat < p)

/-! ## The whole machine -/

/-- The invariant holds right after reset, whatever the parameters. -/
def Obligations.InvariantHoldsAtReset : Prop := State.reset.Inv ∧ ∀ c : Params, (State.resetWith c).Inv

/-- R27 to R30, R35, R36, R43, R62: every step keeps the invariant. -/
def Obligations.InvariantKeptByEveryStep : Prop := ∀ s t : State, s.Inv → step s = .next t → t.Inv

/-- R5, R25, R37, R38, R44, R262: no step changes the parameters, nor the three CSRs that are constants. -/
def Obligations.ParametersNeverChange : Prop :=
  ∀ s t : State, step s = .next t →
    t.params = s.params ∧ t.csr .id = 0x5A4B5207 ∧ t.csr .dmemsz = s.csr .dmemsz ∧ t.csr .widths = s.csr .widths

/-- R85, R61, U16: no step is refused, and the one fault is the host's: a transaction on a word that does not exist. -/
def Obligations.StepsNeverRefuseAndRarelyFault : Prop :=
  ∀ s : State, (∀ r, step s ≠ .refused r) ∧
    ∀ f, step s = .fault f → ∃ t rest a, (s.inbox = .request t :: rest ∨ s.inbox = .barge t :: rest) ∧ f = .noSuchWord a ∧
      dmemWords s.params ≤ a ∧ (t = .readMem a ∨ ∃ v, t = .writeMem a v)

/-- R268, R269: every run ends. The bound is the model's own, not the spec's: two steps an event of the queue and one for a command already
accepted, because acceptance and completion are one step each (log 15) and what the host does is a queue (log 5). -/
def Obligations.EveryRunEnds : Prop :=
  ∀ s : State, s.hostInRange → ∃ k t, k ≤ 2 * s.inbox.length + 1 ∧ Host.Core.run core k s = .next t ∧ t.runEnded

/-- R30, R234: a sticky bit stays set until a reset. -/
def Obligations.StickyBitsStayUntilReset : Prop :=
  ∀ (s t : State) (k : Nat), step s = .next t → (∀ rest, s.inbox ≠ .reset :: rest) → s.esticky.getLsbD k = true → t.esticky.getLsbD k = true

/-- R48, R234: what a transaction does while the core is busy, in the abstract and in the port form. The value an unspecified read returns
is a free value (log 6). That a port write to a reserved or unpopulated address sets sticky bit 9 like any other write is the model's
reading of R48 beside R63 (log 7). -/
def Obligations.BusyCoreIgnoresTheHost : Prop :=
  ∀ (s : State) (t : Transaction), s.status.busy = true → outside s.params t = none →
    ((writeData t).isSome = true → perform s t = .next { s with esticky := s.esticky ||| BitVec.ofNat 32 (2 ^ 9) }) ∧
    (t = .readCsr .status ∨ t = .readPort 2 ∨ (targetOf s.params t = .csr .status ∧ writeData t = none) →
      perform s t = .next { s with replies := (statusWord s.status).setWidth 256 :: s.replies }) ∧
    (writeData t = none → ∃ v k, perform s t = .next { s with replies := v :: s.replies, draws := k })

/-- R47, R48: a host that does not wait does not disturb the running command: its result is the same, but for sticky bit 9, which every
write sets, a port write to a reserved or unpopulated address among them (the model's reading, log 7). -/
def Obligations.RunningCommandIsNotDisturbed : Prop :=
  ∀ (s : State) (t : Transaction) (rest : List HostEvent) (i : Instr), s.status.busy = true → outside s.params t = none →
    s.inbox = .barge t :: rest → decode s.cmd = .ok i →
    ∃ s' u u', step s = .next s' ∧ decode s'.cmd = .ok i ∧ exec i s = .next u ∧ exec i s' = .next u' ∧
      u' = { u with
        inbox := rest, replies := s'.replies, draws := s'.draws
        esticky := if (writeData t).isSome then u.esticky ||| BitVec.ofNat 32 (2 ^ 9) else u.esticky }

/-- R24 to R36, R39: CSR writes by the host of an idle core, each into its own field; what each CSR reads; the fields of `STATUS`; the
codes of `CAUSE` and of the sticky bits (R221); `TLEVELS` and `TLEAVES` read the whole depth and number of leaves in every state of a run. -/
def Obligations.CsrAccessRules : Prop :=
  (∀ (s : State) (n : Csr) (v : Word), s.status.busy = false →
    (n ∈ ([.src, .dst, .aux, .len, .levels, .idx] : List Csr) →
      ∃ t, perform s (.writeCsr n v) = .next t ∧ t.csr n = v ∧ (∀ m, m ≠ n → t.csr m = s.csr m) ∧ t.x = s.x ∧ t.dmem = s.dmem ∧
        t.tree = s.tree ∧ t.params = s.params) ∧
    (n ∈ ([.id, .status, .cause, .einfo, .esticky, .tlevels, .tleaves, .dmemsz, .widths] : List Csr) →
      perform s (.writeCsr n v) = .next s) ∧
    perform s (.readCsr n) = .next { s with replies := (s.csr n).setWidth 256 :: s.replies }) ∧
  (∀ (s : State) (v : Word), s.status.busy = false →
    perform s (.writeCsr .src v) = .next { s with src := v } ∧ perform s (.writeCsr .dst v) = .next { s with dst := v } ∧
    perform s (.writeCsr .aux v) = .next { s with aux := v } ∧ perform s (.writeCsr .len v) = .next { s with len := v } ∧
    perform s (.writeCsr .levels v) = .next { s with levels := v } ∧ perform s (.writeCsr .idx v) = .next { s with idx := v }) ∧
  (∀ s : State, s.csr .id = 0x5A4B5207 ∧ s.csr .cmd = s.cmd ∧ s.csr .einfo = s.einfo ∧ s.csr .esticky = s.esticky ∧ s.csr .src = s.src ∧
    s.csr .dst = s.dst ∧ s.csr .aux = s.aux ∧ s.csr .len = s.len ∧ s.csr .levels = s.levels ∧ s.csr .idx = s.idx) ∧
  (∀ s : State, s.Inv → (s.csr .tlevels).toNat = s.tree.levels ∧ (s.csr .tleaves).toNat = s.tree.leaves.length) ∧
  (∀ (s : State) (k : Nat), (s.csr .status).getLsbD k =
    (decide (k = 0) && s.status.busy || decide (k = 1) && s.status.done || decide (k = 2) && s.status.err ||
      decide (k = 3) && s.status.fatal || decide (k = 4) && s.status.eq)) ∧
  (∀ s : State, (s.cause = none → s.csr .cause = 0) ∧
    ∀ c k, (c, k) ∈ ([(.unsupportedWidth, 1), (.capacityExceeded, 2), (.notFound, 3), (.divisionByZero, 4), (.illegalCommand, 5),
        (.nonCanonical, 6), (.addressRange, 7), (.badArgument, 8)] : List (Cause × Nat)) →
      causeCode c = k ∧ (s.cause = some c → (s.csr .cause).toNat = k)) ∧
  busyAccessCode = 9

/-- R24, R61, R63, R68: the transactions of an idle core on registers and words, with reading back what was written; the port map sends each
port access to the transaction on its target. -/
def Obligations.HostPortMap : Prop :=
  ∀ (s : State) (data : Container), s.status.busy = false →
    (∀ i : Reg,
      perform s (.readX i) = .next { s with replies := s.reg i :: s.replies } ∧
      ∃ t, perform s (.writeX i data) = .next t ∧ t = { s with x := t.x } ∧ t.reg i = data ∧ ∀ j, j ≠ i → t.reg j = s.reg j) ∧
    (∀ a, a < dmemWords s.params →
      perform s (.readMem a) = .next { s with replies := s.word a :: s.replies } ∧
      ∃ t, perform s (.writeMem a data) = .next t ∧ t = { s with dmem := t.dmem } ∧ t.word a = data ∧
        ∀ b, b ≠ a → t.word b = s.word b) ∧
    ∀ paddr : Word,
      (∀ n k, (n, k) ∈ ([(.id, 0), (.cmd, 1), (.status, 2), (.cause, 3), (.einfo, 4), (.esticky, 5), (.src, 6), (.dst, 7), (.aux, 8),
          (.len, 9), (.levels, 10), (.idx, 11), (.tlevels, 12), (.tleaves, 13), (.dmemsz, 14), (.widths, 15)] : List (Csr × Nat)) →
        paddr.toNat = k →
        perform s (.readPort paddr) = perform s (.readCsr n) ∧
        perform s (.writePort paddr data) = perform s (.writeCsr n (data.setWidth 32))) ∧
      (∀ i : Reg, paddr.toNat = 0x10 + i.val →
        perform s (.readPort paddr) = perform s (.readX i) ∧ perform s (.writePort paddr data) = perform s (.writeX i data)) ∧
      (∀ a, a < dmemWords s.params → paddr.toNat = 0x80000000 + a →
        perform s (.readPort paddr) = perform s (.readMem a) ∧ perform s (.writePort paddr data) = perform s (.writeMem a data)) ∧
      ((0x20 ≤ paddr.toNat ∧ paddr.toNat < 0x80000000) ∨ 0x80000000 + dmemWords s.params ≤ paddr.toNat →
        perform s (.readPort paddr) = .next { s with replies := 0 :: s.replies } ∧ perform s (.writePort paddr data) = .next s)
end

