-- ==== Sys2Proof/Laws/State.lean ====
section
/-! SUPPORT. One lemma per field per update of State, true by rfl, so that no later proof unfolds a record update. -/

namespace Sys2Proof.Machine

variable (s : State)

/-! `State.setReg` -/

@[simp] theorem State.setReg_x (i : Reg) (v : Container) : (s.setReg i v).x = s.x.set i.val v := rfl
@[simp] theorem State.setReg_cmd (i : Reg) (v : Container) : (s.setReg i v).cmd = s.cmd := rfl
@[simp] theorem State.setReg_status (i : Reg) (v : Container) : (s.setReg i v).status = s.status := rfl
@[simp] theorem State.setReg_cause (i : Reg) (v : Container) : (s.setReg i v).cause = s.cause := rfl
@[simp] theorem State.setReg_einfo (i : Reg) (v : Container) : (s.setReg i v).einfo = s.einfo := rfl
@[simp] theorem State.setReg_esticky (i : Reg) (v : Container) : (s.setReg i v).esticky = s.esticky := rfl
@[simp] theorem State.setReg_src (i : Reg) (v : Container) : (s.setReg i v).src = s.src := rfl
@[simp] theorem State.setReg_dst (i : Reg) (v : Container) : (s.setReg i v).dst = s.dst := rfl
@[simp] theorem State.setReg_aux (i : Reg) (v : Container) : (s.setReg i v).aux = s.aux := rfl
@[simp] theorem State.setReg_len (i : Reg) (v : Container) : (s.setReg i v).len = s.len := rfl
@[simp] theorem State.setReg_levels (i : Reg) (v : Container) : (s.setReg i v).levels = s.levels := rfl
@[simp] theorem State.setReg_idx (i : Reg) (v : Container) : (s.setReg i v).idx = s.idx := rfl
@[simp] theorem State.setReg_dmem (i : Reg) (v : Container) : (s.setReg i v).dmem = s.dmem := rfl
@[simp] theorem State.setReg_tree (i : Reg) (v : Container) : (s.setReg i v).tree = s.tree := rfl
@[simp] theorem State.setReg_params (i : Reg) (v : Container) : (s.setReg i v).params = s.params := rfl
@[simp] theorem State.setReg_inbox (i : Reg) (v : Container) : (s.setReg i v).inbox = s.inbox := rfl
@[simp] theorem State.setReg_replies (i : Reg) (v : Container) : (s.setReg i v).replies = s.replies := rfl
@[simp] theorem State.setReg_draws (i : Reg) (v : Container) : (s.setReg i v).draws = s.draws := rfl
@[simp] theorem State.setReg_epoch (i : Reg) (v : Container) : (s.setReg i v).epoch = s.epoch := rfl

/-! `State.setLowRegs` -/

@[simp] theorem State.setLowRegs_x (v : List Container) : (s.setLowRegs v).x = s.x.mapIdx fun i old => v.getD i old := rfl
@[simp] theorem State.setLowRegs_cmd (v : List Container) : (s.setLowRegs v).cmd = s.cmd := rfl
@[simp] theorem State.setLowRegs_status (v : List Container) : (s.setLowRegs v).status = s.status := rfl
@[simp] theorem State.setLowRegs_cause (v : List Container) : (s.setLowRegs v).cause = s.cause := rfl
@[simp] theorem State.setLowRegs_einfo (v : List Container) : (s.setLowRegs v).einfo = s.einfo := rfl
@[simp] theorem State.setLowRegs_esticky (v : List Container) : (s.setLowRegs v).esticky = s.esticky := rfl
@[simp] theorem State.setLowRegs_src (v : List Container) : (s.setLowRegs v).src = s.src := rfl
@[simp] theorem State.setLowRegs_dst (v : List Container) : (s.setLowRegs v).dst = s.dst := rfl
@[simp] theorem State.setLowRegs_aux (v : List Container) : (s.setLowRegs v).aux = s.aux := rfl
@[simp] theorem State.setLowRegs_len (v : List Container) : (s.setLowRegs v).len = s.len := rfl
@[simp] theorem State.setLowRegs_levels (v : List Container) : (s.setLowRegs v).levels = s.levels := rfl
@[simp] theorem State.setLowRegs_idx (v : List Container) : (s.setLowRegs v).idx = s.idx := rfl
@[simp] theorem State.setLowRegs_dmem (v : List Container) : (s.setLowRegs v).dmem = s.dmem := rfl
@[simp] theorem State.setLowRegs_tree (v : List Container) : (s.setLowRegs v).tree = s.tree := rfl
@[simp] theorem State.setLowRegs_params (v : List Container) : (s.setLowRegs v).params = s.params := rfl
@[simp] theorem State.setLowRegs_inbox (v : List Container) : (s.setLowRegs v).inbox = s.inbox := rfl
@[simp] theorem State.setLowRegs_replies (v : List Container) : (s.setLowRegs v).replies = s.replies := rfl
@[simp] theorem State.setLowRegs_draws (v : List Container) : (s.setLowRegs v).draws = s.draws := rfl
@[simp] theorem State.setLowRegs_epoch (v : List Container) : (s.setLowRegs v).epoch = s.epoch := rfl

/-! `State.writeWords` -/

@[simp] theorem State.writeWords_x (a : Nat) (vs : List Container) : (s.writeWords a vs).x = s.x := rfl
@[simp] theorem State.writeWords_cmd (a : Nat) (vs : List Container) : (s.writeWords a vs).cmd = s.cmd := rfl
@[simp] theorem State.writeWords_status (a : Nat) (vs : List Container) : (s.writeWords a vs).status = s.status := rfl
@[simp] theorem State.writeWords_cause (a : Nat) (vs : List Container) : (s.writeWords a vs).cause = s.cause := rfl
@[simp] theorem State.writeWords_einfo (a : Nat) (vs : List Container) : (s.writeWords a vs).einfo = s.einfo := rfl
@[simp] theorem State.writeWords_esticky (a : Nat) (vs : List Container) : (s.writeWords a vs).esticky = s.esticky := rfl
@[simp] theorem State.writeWords_src (a : Nat) (vs : List Container) : (s.writeWords a vs).src = s.src := rfl
@[simp] theorem State.writeWords_dst (a : Nat) (vs : List Container) : (s.writeWords a vs).dst = s.dst := rfl
@[simp] theorem State.writeWords_aux (a : Nat) (vs : List Container) : (s.writeWords a vs).aux = s.aux := rfl
@[simp] theorem State.writeWords_len (a : Nat) (vs : List Container) : (s.writeWords a vs).len = s.len := rfl
@[simp] theorem State.writeWords_levels (a : Nat) (vs : List Container) : (s.writeWords a vs).levels = s.levels := rfl
@[simp] theorem State.writeWords_idx (a : Nat) (vs : List Container) : (s.writeWords a vs).idx = s.idx := rfl
@[simp] theorem State.writeWords_dmem (a : Nat) (vs : List Container) : (s.writeWords a vs).dmem = Memory.writeAll s.dmem a vs := rfl
@[simp] theorem State.writeWords_tree (a : Nat) (vs : List Container) : (s.writeWords a vs).tree = s.tree := rfl
@[simp] theorem State.writeWords_params (a : Nat) (vs : List Container) : (s.writeWords a vs).params = s.params := rfl
@[simp] theorem State.writeWords_inbox (a : Nat) (vs : List Container) : (s.writeWords a vs).inbox = s.inbox := rfl
@[simp] theorem State.writeWords_replies (a : Nat) (vs : List Container) : (s.writeWords a vs).replies = s.replies := rfl
@[simp] theorem State.writeWords_draws (a : Nat) (vs : List Container) : (s.writeWords a vs).draws = s.draws := rfl
@[simp] theorem State.writeWords_epoch (a : Nat) (vs : List Container) : (s.writeWords a vs).epoch = s.epoch := rfl

/-! `State.setEq` -/

@[simp] theorem State.setEq_x (b : Bool) : (s.setEq b).x = s.x := rfl
@[simp] theorem State.setEq_cmd (b : Bool) : (s.setEq b).cmd = s.cmd := rfl
@[simp] theorem State.setEq_status (b : Bool) : (s.setEq b).status = { s.status with eq := b } := rfl
@[simp] theorem State.setEq_cause (b : Bool) : (s.setEq b).cause = s.cause := rfl
@[simp] theorem State.setEq_einfo (b : Bool) : (s.setEq b).einfo = s.einfo := rfl
@[simp] theorem State.setEq_esticky (b : Bool) : (s.setEq b).esticky = s.esticky := rfl
@[simp] theorem State.setEq_src (b : Bool) : (s.setEq b).src = s.src := rfl
@[simp] theorem State.setEq_dst (b : Bool) : (s.setEq b).dst = s.dst := rfl
@[simp] theorem State.setEq_aux (b : Bool) : (s.setEq b).aux = s.aux := rfl
@[simp] theorem State.setEq_len (b : Bool) : (s.setEq b).len = s.len := rfl
@[simp] theorem State.setEq_levels (b : Bool) : (s.setEq b).levels = s.levels := rfl
@[simp] theorem State.setEq_idx (b : Bool) : (s.setEq b).idx = s.idx := rfl
@[simp] theorem State.setEq_dmem (b : Bool) : (s.setEq b).dmem = s.dmem := rfl
@[simp] theorem State.setEq_tree (b : Bool) : (s.setEq b).tree = s.tree := rfl
@[simp] theorem State.setEq_params (b : Bool) : (s.setEq b).params = s.params := rfl
@[simp] theorem State.setEq_inbox (b : Bool) : (s.setEq b).inbox = s.inbox := rfl
@[simp] theorem State.setEq_replies (b : Bool) : (s.setEq b).replies = s.replies := rfl
@[simp] theorem State.setEq_draws (b : Bool) : (s.setEq b).draws = s.draws := rfl
@[simp] theorem State.setEq_epoch (b : Bool) : (s.setEq b).epoch = s.epoch := rfl

/-! `State.setIdx` -/

@[simp] theorem State.setIdx_x (i : Nat) : (s.setIdx i).x = s.x := rfl
@[simp] theorem State.setIdx_cmd (i : Nat) : (s.setIdx i).cmd = s.cmd := rfl
@[simp] theorem State.setIdx_status (i : Nat) : (s.setIdx i).status = s.status := rfl
@[simp] theorem State.setIdx_cause (i : Nat) : (s.setIdx i).cause = s.cause := rfl
@[simp] theorem State.setIdx_einfo (i : Nat) : (s.setIdx i).einfo = s.einfo := rfl
@[simp] theorem State.setIdx_esticky (i : Nat) : (s.setIdx i).esticky = s.esticky := rfl
@[simp] theorem State.setIdx_src (i : Nat) : (s.setIdx i).src = s.src := rfl
@[simp] theorem State.setIdx_dst (i : Nat) : (s.setIdx i).dst = s.dst := rfl
@[simp] theorem State.setIdx_aux (i : Nat) : (s.setIdx i).aux = s.aux := rfl
@[simp] theorem State.setIdx_len (i : Nat) : (s.setIdx i).len = s.len := rfl
@[simp] theorem State.setIdx_levels (i : Nat) : (s.setIdx i).levels = s.levels := rfl
@[simp] theorem State.setIdx_idx (i : Nat) : (s.setIdx i).idx = BitVec.ofNat 32 i := rfl
@[simp] theorem State.setIdx_dmem (i : Nat) : (s.setIdx i).dmem = s.dmem := rfl
@[simp] theorem State.setIdx_tree (i : Nat) : (s.setIdx i).tree = s.tree := rfl
@[simp] theorem State.setIdx_params (i : Nat) : (s.setIdx i).params = s.params := rfl
@[simp] theorem State.setIdx_inbox (i : Nat) : (s.setIdx i).inbox = s.inbox := rfl
@[simp] theorem State.setIdx_replies (i : Nat) : (s.setIdx i).replies = s.replies := rfl
@[simp] theorem State.setIdx_draws (i : Nat) : (s.setIdx i).draws = s.draws := rfl
@[simp] theorem State.setIdx_epoch (i : Nat) : (s.setIdx i).epoch = s.epoch := rfl

/-! `State.setTree` -/

@[simp] theorem State.setTree_x (l : Nat) (ls : List Fe) : (s.setTree l ls).x = s.x := rfl
@[simp] theorem State.setTree_cmd (l : Nat) (ls : List Fe) : (s.setTree l ls).cmd = s.cmd := rfl
@[simp] theorem State.setTree_status (l : Nat) (ls : List Fe) : (s.setTree l ls).status = s.status := rfl
@[simp] theorem State.setTree_cause (l : Nat) (ls : List Fe) : (s.setTree l ls).cause = s.cause := rfl
@[simp] theorem State.setTree_einfo (l : Nat) (ls : List Fe) : (s.setTree l ls).einfo = s.einfo := rfl
@[simp] theorem State.setTree_esticky (l : Nat) (ls : List Fe) : (s.setTree l ls).esticky = s.esticky := rfl
@[simp] theorem State.setTree_src (l : Nat) (ls : List Fe) : (s.setTree l ls).src = s.src := rfl
@[simp] theorem State.setTree_dst (l : Nat) (ls : List Fe) : (s.setTree l ls).dst = s.dst := rfl
@[simp] theorem State.setTree_aux (l : Nat) (ls : List Fe) : (s.setTree l ls).aux = s.aux := rfl
@[simp] theorem State.setTree_len (l : Nat) (ls : List Fe) : (s.setTree l ls).len = s.len := rfl
@[simp] theorem State.setTree_levels (l : Nat) (ls : List Fe) : (s.setTree l ls).levels = s.levels := rfl
@[simp] theorem State.setTree_idx (l : Nat) (ls : List Fe) : (s.setTree l ls).idx = s.idx := rfl
@[simp] theorem State.setTree_dmem (l : Nat) (ls : List Fe) : (s.setTree l ls).dmem = s.dmem := rfl
@[simp] theorem State.setTree_tree (l : Nat) (ls : List Fe) : (s.setTree l ls).tree = { levels := l, leaves := ls } := rfl
@[simp] theorem State.setTree_params (l : Nat) (ls : List Fe) : (s.setTree l ls).params = s.params := rfl
@[simp] theorem State.setTree_inbox (l : Nat) (ls : List Fe) : (s.setTree l ls).inbox = s.inbox := rfl
@[simp] theorem State.setTree_replies (l : Nat) (ls : List Fe) : (s.setTree l ls).replies = s.replies := rfl
@[simp] theorem State.setTree_draws (l : Nat) (ls : List Fe) : (s.setTree l ls).draws = s.draws := rfl
@[simp] theorem State.setTree_epoch (l : Nat) (ls : List Fe) : (s.setTree l ls).epoch = s.epoch := rfl

/-! `State.accept` -/

@[simp] theorem State.accept_x (w : Word) : (s.accept w).x = s.x := rfl
@[simp] theorem State.accept_cmd (w : Word) : (s.accept w).cmd = w := rfl
@[simp] theorem State.accept_status (w : Word) : (s.accept w).status = statusAccepted s.status := rfl
@[simp] theorem State.accept_cause (w : Word) : (s.accept w).cause = s.cause := rfl
@[simp] theorem State.accept_einfo (w : Word) : (s.accept w).einfo = s.einfo := rfl
@[simp] theorem State.accept_esticky (w : Word) : (s.accept w).esticky = s.esticky := rfl
@[simp] theorem State.accept_src (w : Word) : (s.accept w).src = s.src := rfl
@[simp] theorem State.accept_dst (w : Word) : (s.accept w).dst = s.dst := rfl
@[simp] theorem State.accept_aux (w : Word) : (s.accept w).aux = s.aux := rfl
@[simp] theorem State.accept_len (w : Word) : (s.accept w).len = s.len := rfl
@[simp] theorem State.accept_levels (w : Word) : (s.accept w).levels = s.levels := rfl
@[simp] theorem State.accept_idx (w : Word) : (s.accept w).idx = s.idx := rfl
@[simp] theorem State.accept_dmem (w : Word) : (s.accept w).dmem = s.dmem := rfl
@[simp] theorem State.accept_tree (w : Word) : (s.accept w).tree = s.tree := rfl
@[simp] theorem State.accept_params (w : Word) : (s.accept w).params = s.params := rfl
@[simp] theorem State.accept_inbox (w : Word) : (s.accept w).inbox = s.inbox := rfl
@[simp] theorem State.accept_replies (w : Word) : (s.accept w).replies = s.replies := rfl
@[simp] theorem State.accept_draws (w : Word) : (s.accept w).draws = s.draws := rfl
@[simp] theorem State.accept_epoch (w : Word) : (s.accept w).epoch = s.epoch := rfl

/-! `State.succeed` -/

@[simp] theorem State.succeed_x : (s.succeed).x = s.x := rfl
@[simp] theorem State.succeed_cmd : (s.succeed).cmd = s.cmd := rfl
@[simp] theorem State.succeed_status : (s.succeed).status = statusSucceeded s.status := rfl
@[simp] theorem State.succeed_cause : (s.succeed).cause = none := rfl
@[simp] theorem State.succeed_einfo : (s.succeed).einfo = 0 := rfl
@[simp] theorem State.succeed_esticky : (s.succeed).esticky = s.esticky := rfl
@[simp] theorem State.succeed_src : (s.succeed).src = s.src := rfl
@[simp] theorem State.succeed_dst : (s.succeed).dst = s.dst := rfl
@[simp] theorem State.succeed_aux : (s.succeed).aux = s.aux := rfl
@[simp] theorem State.succeed_len : (s.succeed).len = s.len := rfl
@[simp] theorem State.succeed_levels : (s.succeed).levels = s.levels := rfl
@[simp] theorem State.succeed_idx : (s.succeed).idx = s.idx := rfl
@[simp] theorem State.succeed_dmem : (s.succeed).dmem = s.dmem := rfl
@[simp] theorem State.succeed_tree : (s.succeed).tree = s.tree := rfl
@[simp] theorem State.succeed_params : (s.succeed).params = s.params := rfl
@[simp] theorem State.succeed_inbox : (s.succeed).inbox = s.inbox := rfl
@[simp] theorem State.succeed_replies : (s.succeed).replies = s.replies := rfl
@[simp] theorem State.succeed_draws : (s.succeed).draws = s.draws := rfl
@[simp] theorem State.succeed_epoch : (s.succeed).epoch = s.epoch := rfl

/-! `State.fail` -/

@[simp] theorem State.fail_x (e : Error) : (s.fail e).x = s.x := rfl
@[simp] theorem State.fail_cmd (e : Error) : (s.fail e).cmd = s.cmd := rfl
@[simp] theorem State.fail_status (e : Error) : (s.fail e).status = statusFailed s.status e.cause := rfl
@[simp] theorem State.fail_cause (e : Error) : (s.fail e).cause = some e.cause := rfl
@[simp] theorem State.fail_einfo (e : Error) : (s.fail e).einfo = e.info := rfl
@[simp] theorem State.fail_esticky (e : Error) : (s.fail e).esticky = setStickyBit s.esticky (causeCode e.cause) := rfl
@[simp] theorem State.fail_src (e : Error) : (s.fail e).src = s.src := rfl
@[simp] theorem State.fail_dst (e : Error) : (s.fail e).dst = s.dst := rfl
@[simp] theorem State.fail_aux (e : Error) : (s.fail e).aux = s.aux := rfl
@[simp] theorem State.fail_len (e : Error) : (s.fail e).len = s.len := rfl
@[simp] theorem State.fail_levels (e : Error) : (s.fail e).levels = s.levels := rfl
@[simp] theorem State.fail_idx (e : Error) : (s.fail e).idx = s.idx := rfl
@[simp] theorem State.fail_dmem (e : Error) : (s.fail e).dmem = s.dmem := rfl
@[simp] theorem State.fail_tree (e : Error) : (s.fail e).tree = s.tree := rfl
@[simp] theorem State.fail_params (e : Error) : (s.fail e).params = s.params := rfl
@[simp] theorem State.fail_inbox (e : Error) : (s.fail e).inbox = s.inbox := rfl
@[simp] theorem State.fail_replies (e : Error) : (s.fail e).replies = s.replies := rfl
@[simp] theorem State.fail_draws (e : Error) : (s.fail e).draws = s.draws := rfl
@[simp] theorem State.fail_epoch (e : Error) : (s.fail e).epoch = s.epoch := rfl

/-! `State.present` -/

@[simp] theorem State.present_x (w : Word) : (s.present w).x = s.x := rfl
@[simp] theorem State.present_cmd (w : Word) : (s.present w).cmd = w := rfl
@[simp] theorem State.present_status (w : Word) : (s.present w).status = statusAccepted s.status := rfl
@[simp] theorem State.present_cause (w : Word) : (s.present w).cause = s.cause := rfl
@[simp] theorem State.present_einfo (w : Word) : (s.present w).einfo = s.einfo := rfl
@[simp] theorem State.present_esticky (w : Word) : (s.present w).esticky = s.esticky := rfl
@[simp] theorem State.present_src (w : Word) : (s.present w).src = s.src := rfl
@[simp] theorem State.present_dst (w : Word) : (s.present w).dst = s.dst := rfl
@[simp] theorem State.present_aux (w : Word) : (s.present w).aux = s.aux := rfl
@[simp] theorem State.present_len (w : Word) : (s.present w).len = s.len := rfl
@[simp] theorem State.present_levels (w : Word) : (s.present w).levels = s.levels := rfl
@[simp] theorem State.present_idx (w : Word) : (s.present w).idx = s.idx := rfl
@[simp] theorem State.present_dmem (w : Word) : (s.present w).dmem = s.dmem := rfl
@[simp] theorem State.present_tree (w : Word) : (s.present w).tree = s.tree := rfl
@[simp] theorem State.present_params (w : Word) : (s.present w).params = s.params := rfl
@[simp] theorem State.present_inbox (w : Word) : (s.present w).inbox = [] := rfl
@[simp] theorem State.present_replies (w : Word) : (s.present w).replies = s.replies := rfl
@[simp] theorem State.present_draws (w : Word) : (s.present w).draws = s.draws := rfl
@[simp] theorem State.present_epoch (w : Word) : (s.present w).epoch = s.epoch := rfl

/-! `State.reply` -/

@[simp] theorem State.reply_x (v : Container) : (s.reply v).x = s.x := rfl
@[simp] theorem State.reply_cmd (v : Container) : (s.reply v).cmd = s.cmd := rfl
@[simp] theorem State.reply_status (v : Container) : (s.reply v).status = s.status := rfl
@[simp] theorem State.reply_cause (v : Container) : (s.reply v).cause = s.cause := rfl
@[simp] theorem State.reply_einfo (v : Container) : (s.reply v).einfo = s.einfo := rfl
@[simp] theorem State.reply_esticky (v : Container) : (s.reply v).esticky = s.esticky := rfl
@[simp] theorem State.reply_src (v : Container) : (s.reply v).src = s.src := rfl
@[simp] theorem State.reply_dst (v : Container) : (s.reply v).dst = s.dst := rfl
@[simp] theorem State.reply_aux (v : Container) : (s.reply v).aux = s.aux := rfl
@[simp] theorem State.reply_len (v : Container) : (s.reply v).len = s.len := rfl
@[simp] theorem State.reply_levels (v : Container) : (s.reply v).levels = s.levels := rfl
@[simp] theorem State.reply_idx (v : Container) : (s.reply v).idx = s.idx := rfl
@[simp] theorem State.reply_dmem (v : Container) : (s.reply v).dmem = s.dmem := rfl
@[simp] theorem State.reply_tree (v : Container) : (s.reply v).tree = s.tree := rfl
@[simp] theorem State.reply_params (v : Container) : (s.reply v).params = s.params := rfl
@[simp] theorem State.reply_inbox (v : Container) : (s.reply v).inbox = s.inbox := rfl
@[simp] theorem State.reply_replies (v : Container) : (s.reply v).replies = v :: s.replies := rfl
@[simp] theorem State.reply_draws (v : Container) : (s.reply v).draws = s.draws := rfl
@[simp] theorem State.reply_epoch (v : Container) : (s.reply v).epoch = s.epoch := rfl

/-! `State.afterReset` -/

@[simp] theorem State.afterReset_x : s.afterReset.x = (State.resetWith s.params).x := rfl
@[simp] theorem State.afterReset_cmd : s.afterReset.cmd = (State.resetWith s.params).cmd := rfl
@[simp] theorem State.afterReset_status : s.afterReset.status = (State.resetWith s.params).status := rfl
@[simp] theorem State.afterReset_cause : s.afterReset.cause = (State.resetWith s.params).cause := rfl
@[simp] theorem State.afterReset_einfo : s.afterReset.einfo = (State.resetWith s.params).einfo := rfl
@[simp] theorem State.afterReset_esticky : s.afterReset.esticky = (State.resetWith s.params).esticky := rfl
@[simp] theorem State.afterReset_src : s.afterReset.src = (State.resetWith s.params).src := rfl
@[simp] theorem State.afterReset_dst : s.afterReset.dst = (State.resetWith s.params).dst := rfl
@[simp] theorem State.afterReset_aux : s.afterReset.aux = (State.resetWith s.params).aux := rfl
@[simp] theorem State.afterReset_len : s.afterReset.len = (State.resetWith s.params).len := rfl
@[simp] theorem State.afterReset_levels : s.afterReset.levels = (State.resetWith s.params).levels := rfl
@[simp] theorem State.afterReset_idx : s.afterReset.idx = (State.resetWith s.params).idx := rfl
@[simp] theorem State.afterReset_dmem : s.afterReset.dmem = (State.resetWith s.params).dmem := rfl
@[simp] theorem State.afterReset_tree : s.afterReset.tree = (State.resetWith s.params).tree := rfl
@[simp] theorem State.afterReset_params : s.afterReset.params = s.params := rfl
@[simp] theorem State.afterReset_inbox : s.afterReset.inbox = s.inbox := rfl
@[simp] theorem State.afterReset_replies : s.afterReset.replies = s.replies := rfl
@[simp] theorem State.afterReset_draws : s.afterReset.draws = s.draws := rfl
@[simp] theorem State.afterReset_epoch : s.afterReset.epoch = s.epoch + 1 := rfl

/-! `State.resetWith` -/

@[simp] theorem State.resetWith_x (c : Params) : (State.resetWith c).x = Vector.replicate 16 0 := rfl
@[simp] theorem State.resetWith_cmd (c : Params) : (State.resetWith c).cmd = 0 := rfl
@[simp] theorem State.resetWith_status (c : Params) : (State.resetWith c).status = { busy := false, done := false, err := false, fatal := false, eq := false } := rfl
@[simp] theorem State.resetWith_cause (c : Params) : (State.resetWith c).cause = none := rfl
@[simp] theorem State.resetWith_einfo (c : Params) : (State.resetWith c).einfo = 0 := rfl
@[simp] theorem State.resetWith_esticky (c : Params) : (State.resetWith c).esticky = 0 := rfl
@[simp] theorem State.resetWith_src (c : Params) : (State.resetWith c).src = 0 := rfl
@[simp] theorem State.resetWith_dst (c : Params) : (State.resetWith c).dst = 0 := rfl
@[simp] theorem State.resetWith_aux (c : Params) : (State.resetWith c).aux = 0 := rfl
@[simp] theorem State.resetWith_len (c : Params) : (State.resetWith c).len = 0 := rfl
@[simp] theorem State.resetWith_levels (c : Params) : (State.resetWith c).levels = 0 := rfl
@[simp] theorem State.resetWith_idx (c : Params) : (State.resetWith c).idx = 0 := rfl
@[simp] theorem State.resetWith_dmem (c : Params) : (State.resetWith c).dmem = [] := rfl
@[simp] theorem State.resetWith_tree (c : Params) : (State.resetWith c).tree = { levels := 0, leaves := [] } := rfl
@[simp] theorem State.resetWith_params (c : Params) : (State.resetWith c).params = c := rfl
@[simp] theorem State.resetWith_inbox (c : Params) : (State.resetWith c).inbox = [] := rfl
@[simp] theorem State.resetWith_replies (c : Params) : (State.resetWith c).replies = [] := rfl
@[simp] theorem State.resetWith_draws (c : Params) : (State.resetWith c).draws = 0 := rfl
@[simp] theorem State.resetWith_epoch (c : Params) : (State.resetWith c).epoch = 0 := rfl

/-! The flags. -/

variable (f : Status) (c : Cause)

@[simp] theorem statusAccepted_busy : (statusAccepted f).busy = true := rfl
@[simp] theorem statusAccepted_done : (statusAccepted f).done = false := rfl
@[simp] theorem statusAccepted_err : (statusAccepted f).err = f.err := rfl
@[simp] theorem statusAccepted_fatal : (statusAccepted f).fatal = f.fatal := rfl
@[simp] theorem statusAccepted_eq : (statusAccepted f).eq = f.eq := rfl
@[simp] theorem statusSucceeded_busy : (statusSucceeded f).busy = false := rfl
@[simp] theorem statusSucceeded_done : (statusSucceeded f).done = true := rfl
@[simp] theorem statusSucceeded_err : (statusSucceeded f).err = false := rfl
@[simp] theorem statusSucceeded_fatal : (statusSucceeded f).fatal = false := rfl
@[simp] theorem statusSucceeded_eq : (statusSucceeded f).eq = f.eq := rfl
@[simp] theorem statusFailed_busy : (statusFailed f c).busy = false := rfl
@[simp] theorem statusFailed_done : (statusFailed f c).done = true := rfl
@[simp] theorem statusFailed_err : (statusFailed f c).err = true := rfl
@[simp] theorem statusFailed_fatal : (statusFailed f c).fatal = causeFatal c := rfl
@[simp] theorem statusFailed_eq : (statusFailed f c).eq = f.eq := rfl

/-! Derived reads. -/

theorem State.word_congr {s t : State} (hd : t.dmem = s.dmem) (he : t.epoch = s.epoch) (a : Nat) : t.word a = s.word a := by
  simp [State.word, hd, he]

theorem State.reg_congr {s t : State} (h : t.x = s.x) (i : Reg) : t.reg i = s.reg i := by simp [State.reg, h]

@[simp] theorem State.reg_setReg_same (i : Reg) (v : Container) : (s.setReg i v).reg i = v := by simp [State.reg]

theorem State.reg_setReg_other (i j : Reg) (v : Container) (h : i ≠ j) : (s.setReg i v).reg j = s.reg j := by
  have h' : i.val ≠ j.val := fun e => h (Fin.ext e)
  simp [State.reg, h']

@[simp] theorem State.reg_setLowRegs (v : List Container) (i : Reg) : (s.setLowRegs v).reg i = v.getD i.val (s.reg i) := by
  simp [State.reg]

@[simp] theorem State.word_setReg (i : Reg) (v : Container) (a : Nat) : (s.setReg i v).word a = s.word a := rfl
@[simp] theorem State.word_setEq (b : Bool) (a : Nat) : (s.setEq b).word a = s.word a := rfl
@[simp] theorem State.word_setIdx (i a : Nat) : (s.setIdx i).word a = s.word a := rfl
@[simp] theorem State.word_succeed (a : Nat) : s.succeed.word a = s.word a := rfl
@[simp] theorem State.word_fail (e : Error) (a : Nat) : (s.fail e).word a = s.word a := rfl
@[simp] theorem State.reg_succeed (i : Reg) : s.succeed.reg i = s.reg i := rfl
@[simp] theorem State.reg_fail (e : Error) (i : Reg) : (s.fail e).reg i = s.reg i := rfl

end Sys2Proof.Machine
end

