-- ==== Sys2Proof/Laws/Memory.lean ====
section
/-! SUPPORT. The element memory: read after write, and every operation keeps the canonical form. -/

namespace Sys2Proof.Machine

theorem Memory.read_write_same (m : Memory) (a : Nat) (v : Container) : Memory.read (Memory.write m a v) a = some v := by
  induction m with
  | nil => simp [Memory.write, Memory.read]
  | cons c m ih =>
    obtain ⟨b, w⟩ := c
    simp only [Memory.write]
    split
    · simp [Memory.read]
    · split
      · simp [Memory.read]
      · rename_i h1 h2
        simp [Memory.read, h2, ih]

theorem Memory.read_write_other (m : Memory) (a b : Nat) (v : Container) (h : b ≠ a) :
    Memory.read (Memory.write m a v) b = Memory.read m b := by
  induction m with
  | nil => simp [Memory.write, Memory.read, h]
  | cons c m ih =>
    obtain ⟨k, w⟩ := c
    simp only [Memory.write]
    split
    · simp [Memory.read, h]
    · split
      · rename_i h1 h2
        subst h2
        simp [Memory.read, h]
      · by_cases hk : b = k
        · simp [Memory.read, hk]
        · simp [Memory.read, hk, ih]

/-- What a write can list. -/
theorem Memory.mem_write {m : Memory} {a : Nat} {v : Container} {c : Cell} (h : c ∈ Memory.write m a v) : c = (a, v) ∨ c ∈ m := by
  induction m with
  | nil => simpa [Memory.write] using h
  | cons d m ih =>
    obtain ⟨k, w⟩ := d
    simp only [Memory.write] at h
    split at h
    · simpa using h
    · split at h
      · simp only [List.mem_cons] at h ⊢
        tauto
      · simp only [List.mem_cons] at h ⊢
        rcases h with h | h
        · tauto
        · rcases ih h with h | h <;> tauto

theorem Memory.write_wf (m : Memory) (a : Nat) (v : Container) (h : Memory.wf m) : Memory.wf (Memory.write m a v) := by
  induction m with
  | nil => simp [Memory.write, Memory.wf]
  | cons d m ih =>
    obtain ⟨k, w⟩ := d
    obtain ⟨hk, hm⟩ := List.pairwise_cons.mp h
    simp only [Memory.write]
    split
    · rename_i h1
      refine List.pairwise_cons.mpr ⟨fun c hc => ?_, h⟩
      rcases List.mem_cons.mp hc with rfl | hc
      · exact h1
      · exact Nat.lt_trans h1 (hk c hc)
    · split
      · rename_i h1 h2
        subst h2
        exact List.pairwise_cons.mpr ⟨hk, hm⟩
      · rename_i h1 h2
        refine List.pairwise_cons.mpr ⟨fun c hc => ?_, ih hm⟩
        rcases Memory.mem_write hc with rfl | hc
        · show k < a
          omega
        · exact hk c hc

theorem Memory.writeAll_wf (m : Memory) (a : Nat) (vs : List Container) (h : Memory.wf m) : Memory.wf (Memory.writeAll m a vs) := by
  induction vs generalizing m a with
  | nil => simpa [Memory.writeAll] using h
  | cons v vs ih => exact ih _ _ (Memory.write_wf m a v h)

theorem Memory.mem_writeAll {m : Memory} {a : Nat} {vs : List Container} {c : Cell} (h : c ∈ Memory.writeAll m a vs) :
    (a ≤ c.1 ∧ c.1 < a + vs.length) ∨ c ∈ m := by
  induction vs generalizing m a with
  | nil => exact .inr (by simpa [Memory.writeAll] using h)
  | cons v vs ih =>
    rcases ih h with ⟨h1, h2⟩ | h
    · left
      simp only [List.length_cons]
      omega
    · rcases Memory.mem_write h with rfl | h
      · left
        simp
      · exact .inr h

theorem Memory.read_writeAll_outside (m : Memory) (a b : Nat) (vs : List Container) (h : b < a ∨ a + vs.length ≤ b) :
    Memory.read (Memory.writeAll m a vs) b = Memory.read m b := by
  induction vs generalizing m a with
  | nil => simp [Memory.writeAll]
  | cons v vs ih =>
    simp only [List.length_cons] at h
    simp only [Memory.writeAll]
    rw [ih _ _ (by omega), Memory.read_write_other _ _ _ _ (by omega)]

theorem Memory.read_writeAll_inside (m : Memory) (a k : Nat) (vs : List Container) (h : k < vs.length) :
    Memory.read (Memory.writeAll m a vs) (a + k) = some vs[k] := by
  induction vs generalizing m a k with
  | nil => simp at h
  | cons v vs ih =>
    simp only [Memory.writeAll]
    cases k with
    | zero => rw [Memory.read_writeAll_outside _ _ _ _ (by omega)]; simp [Memory.read_write_same]
    | succ k =>
      simp only [List.length_cons] at h
      have := ih (Memory.write m a v) (a + 1) k (by omega)
      rw [show a + (k + 1) = a + 1 + k by omega, this]
      simp

/-- Reading a word after `MemWrite`: outside the written words nothing changed. -/
theorem State.word_writeWords_outside (s : State) (a b : Nat) (vs : List Container) (h : b < a ∨ a + vs.length ≤ b) :
    (s.writeWords a vs).word b = s.word b := by
  simp [State.word, Memory.read_writeAll_outside _ _ _ _ h]

/-- Reading a word after `MemWrite`: inside it is the written value. -/
theorem State.word_writeWords_inside (s : State) (a k : Nat) (vs : List Container) (h : k < vs.length) :
    (s.writeWords a vs).word (a + k) = vs[k] := by
  simp [State.word, Memory.read_writeAll_inside _ _ _ _ h]

theorem Memory.reset_wf : Memory.wf State.reset.dmem := List.Pairwise.nil

end Sys2Proof.Machine
end

