-- ==== Sys2Proof/Laws/Operands.lean ====
section
/-! SUPPORT. What reading operands and the checks can answer. -/

namespace Sys2Proof.Machine

@[simp] theorem ok_bind {ε α β : Type} (a : α) (f : α → Except ε β) : ((Except.ok a : Except ε α) >>= f) = f a := rfl
@[simp] theorem error_bind {ε α β : Type} (e : ε) (f : α → Except ε β) : ((Except.error e : Except ε α) >>= f) = .error e := rfl
@[simp] theorem pure_eq_ok {ε α : Type} (a : α) : (pure a : Except ε α) = .ok a := rfl

/-- A bind that succeeds: both parts did. -/
theorem bind_eq_ok {ε α β : Type} {x : Except ε α} {f : α → Except ε β} {b : β} : (x >>= f) = .ok b ↔ ∃ a, x = .ok a ∧ f a = .ok b := by
  cases x <;> simp

/-- A bind that fails: one part did. -/
theorem bind_eq_error {ε α β : Type} {x : Except ε α} {f : α → Except ε β} {e : ε} :
    (x >>= f) = .error e ↔ x = .error e ∨ ∃ a, x = .ok a ∧ f a = .error e := by
  cases x <;> simp

theorem val_reduce (n : Nat) : (Field.reduce n).val = n % p := rfl

theorem reduce_val (a : Fe) : Field.reduce a.val = a := Fin.ext (Nat.mod_eq_of_lt a.isLt)

theorem canonical_of_lt {info : Word} {v : Container} (h : v.toNat < p) : canonical info v = .ok (Field.reduce v.toNat) := by
  simp only [canonical, dif_pos h]
  exact congrArg _ (Fin.ext (Nat.mod_eq_of_lt h).symm)

theorem canonical_of_ge {info : Word} {v : Container} (h : p ≤ v.toNat) : canonical info v = .error { cause := .nonCanonical, info := info } := by
  simp only [canonical, dif_neg (Nat.not_lt.mpr h)]

theorem canonical_ok {info : Word} {v : Container} {a : Fe} (h : canonical info v = .ok a) : v.toNat < p ∧ a = Field.reduce v.toNat := by
  by_cases hv : v.toNat < p
  · rw [canonical_of_lt hv] at h
    exact ⟨hv, (Except.ok.inj h).symm⟩
  · rw [canonical_of_ge (Nat.not_lt.mp hv)] at h
    cases h

theorem canonical_error {info : Word} {v : Container} {e : Error} (h : canonical info v = .error e) :
    e = { cause := .nonCanonical, info := info } := by
  by_cases hv : v.toNat < p
  · rw [canonical_of_lt hv] at h
    cases h
  · rw [canonical_of_ge (Nat.not_lt.mp hv)] at h
    exact (Except.error.inj h).symm

theorem reg_eq_getD (s : State) (i : Reg) : s.reg i = s.x.toList.getD i.val 0 := by
  simp [State.reg]

/-- A register that holds a FieldElement is read as it. -/
theorem fe_of_canonical {s : State} {i : Reg} (h : s.regCanonical i.val) : s.fe i = .ok (s.regElem i.val) := by
  rw [State.fe, canonical_of_lt (by rw [reg_eq_getD]; exact h), State.regElem, reg_eq_getD]

/-- A register that does not raises `NonCanonical(0x80000000 + i)`. -/
theorem fe_of_not_canonical {s : State} {i : Reg} (h : ¬s.regCanonical i.val) :
    s.fe i = .error { cause := .nonCanonical, info := BitVec.ofNat 32 (0x80000000 + i.val) } := by
  rw [State.fe, canonical_of_ge]
  rw [reg_eq_getD]
  exact Nat.not_lt.mp h

theorem fe_ok {s : State} {i : Reg} {a : Fe} (h : s.fe i = .ok a) : s.regCanonical i.val ∧ a = s.regElem i.val := by
  have := canonical_ok h
  rw [reg_eq_getD] at this
  exact this

theorem feMem_of_canonical {s : State} {a : Nat} (h : s.wordCanonical a) : s.feMem a = .ok (Field.reduce (s.word a).toNat) :=
  canonical_of_lt h

theorem feMem_of_not_canonical {s : State} {a : Nat} (h : ¬s.wordCanonical a) :
    s.feMem a = .error { cause := .nonCanonical, info := BitVec.ofNat 32 a } :=
  canonical_of_ge (Nat.not_lt.mp h)

/-- All operands of a list are read when each one is. -/
theorem readAll_ok {α : Type} {f : α → Except Error Fe} {g : α → Fe} {l : List α} (h : ∀ a ∈ l, f a = .ok (g a)) :
    readAll f l = .ok (l.map g) := by
  induction l with
  | nil => rfl
  | cons a l ih =>
    simp only [readAll, h a (by simp), ih fun b hb => h b (by simp [hb]), ok_bind, pure_eq_ok, List.map_cons]

/-- The first operand that raises is the one reported. -/
theorem readAll_error {α : Type} {f : α → Except Error Fe} {g : α → Fe} {l r : List α} {a : α} {e : Error}
    (h : ∀ b ∈ l, f b = .ok (g b)) (ha : f a = .error e) : readAll f (l ++ a :: r) = .error e := by
  induction l with
  | nil => simp [readAll, ha]
  | cons b l ih =>
    simp only [List.cons_append, readAll, h b (by simp), ih fun c hc => h c (by simp [hc]), ok_bind, error_bind]

/-- If all operands were read, each one was. -/
theorem readAll_inv {α : Type} {f : α → Except Error Fe} {l : List α} {vs : List Fe} (h : readAll f l = .ok vs) :
    vs.length = l.length ∧ ∀ a ∈ l, ∃ v, f a = .ok v := by
  induction l generalizing vs with
  | nil =>
    simp only [readAll, Except.ok.injEq] at h
    simp [← h]
  | cons a l ih =>
    obtain ⟨v, hv, h⟩ := bind_eq_ok.mp h
    obtain ⟨ws, hw, h⟩ := bind_eq_ok.mp h
    simp only [pure_eq_ok, Except.ok.injEq] at h
    obtain ⟨hl, hall⟩ := ih hw
    subst h
    refine ⟨by simp [hl], fun b hb => ?_⟩
    rcases List.mem_cons.mp hb with rfl | hb
    · exact ⟨v, hv⟩
    · exact hall b hb

/-- An error of `readAll` is the error of one of the operands. -/
theorem readAll_error_inv {α : Type} {f : α → Except Error Fe} {l : List α} {e : Error} (h : readAll f l = .error e) :
    ∃ a ∈ l, f a = .error e := by
  induction l with
  | nil => cases h
  | cons a l ih =>
    rcases bind_eq_error.mp h with h | ⟨v, -, h⟩
    · exact ⟨a, by simp, h⟩
    · rcases bind_eq_error.mp h with h | ⟨ws, -, h⟩
      · obtain ⟨b, hb, hf⟩ := ih h
        exact ⟨b, by simp [hb], hf⟩
      · cases h

/-- The registers of a group that fits, by number. -/
theorem map_val_regGroup {ra : Reg} {g : Nat} (h : groupFits ra g = true) :
    (regGroup ra g).map Fin.val = (List.range g).map (ra.val + ·) := by
  simp only [groupFits, Bool.or_eq_true, beq_iff_eq, decide_eq_true_eq] at h
  apply List.ext_getElem
  · simp [regGroup]; omega
  · intro j h1 h2
    simp [regGroup]

theorem length_regGroup {ra : Reg} {g : Nat} (h : groupFits ra g = true) : (regGroup ra g).length = g := by
  have := congrArg List.length (map_val_regGroup h)
  simpa using this

/-- A group whose registers all hold FieldElements is read as them. -/
theorem feRegs_of_canonical {s : State} {ra : Reg} {g : Nat} (hg : groupFits ra g = true)
    (h : ∀ j < g, s.regCanonical (ra.val + j)) : s.feRegs ra g = .ok ((List.range g).map fun j => s.regElem (ra.val + j)) := by
  have key : ∀ i ∈ regGroup ra g, s.fe i = .ok (s.regElem i.val) := by
    intro i hi
    have hm : i.val ∈ (regGroup ra g).map Fin.val := List.mem_map_of_mem hi
    rw [map_val_regGroup hg] at hm
    obtain ⟨j, hj, e⟩ := List.mem_map.mp hm
    exact fe_of_canonical (e ▸ h j (List.mem_range.mp hj))
  rw [State.feRegs, readAll_ok key]
  have := congrArg (List.map s.regElem) (map_val_regGroup hg)
  rw [List.map_map, List.map_map] at this
  exact congrArg _ this

theorem feRegion_of_canonical {s : State} {base n : Nat} (h : ∀ j < n, s.wordCanonical (base + j)) :
    s.feRegion base n = .ok (s.elems base n) := by
  rw [State.feRegion, readAll_ok (g := fun a => Field.reduce (s.word a).toNat)]
  · simp [region, State.elems, Function.comp_def]
  · intro a ha
    obtain ⟨j, hj, rfl⟩ := List.mem_map.mp ha
    exact feMem_of_canonical (h j (List.mem_range.mp hj))

/-- The first register of a group that holds no FieldElement is reported. -/
theorem feRegs_first_error {s : State} {ra : Reg} {g j : Nat} (hg : groupFits ra g = true) (hj : j < g)
    (h : ∀ i < j, s.regCanonical (ra.val + i)) (hn : ¬s.regCanonical (ra.val + j)) :
    s.feRegs ra g = .error { cause := .nonCanonical, info := BitVec.ofNat 32 (0x80000000 + (ra.val + j)) } := by
  have hl := length_regGroup hg
  have hval : ∀ k (hk : k < (regGroup ra g).length), ((regGroup ra g)[k]).val = ra.val + k := by
    intro k hk
    have := congrArg (fun l : List Nat => l[k]?) (map_val_regGroup hg)
    simpa [hk, show k < g by omega] using this
  have hsplit : regGroup ra g = (regGroup ra g).take j ++ (regGroup ra g)[j]'(by omega) :: (regGroup ra g).drop (j + 1) := by
    rw [← List.drop_eq_getElem_cons, List.take_append_drop]
  have hv := hval j (by omega)
  rw [State.feRegs, hsplit]
  refine readAll_error (g := fun i => s.regElem i.val) (fun b hb => ?_) ?_
  · obtain ⟨k, hk, rfl⟩ := List.mem_iff_getElem.mp hb
    rw [List.getElem_take]
    simp only [List.length_take] at hk
    refine fe_of_canonical ?_
    rw [hval k (by omega)]
    exact h k (by omega)
  · rw [fe_of_not_canonical (by rw [hv]; exact hn), hv]

theorem feRegion_first_error {s : State} {base n j : Nat} (hj : j < n) (h : ∀ i < j, s.wordCanonical (base + i))
    (hn : ¬s.wordCanonical (base + j)) :
    s.feRegion base n = .error { cause := .nonCanonical, info := BitVec.ofNat 32 (base + j) } := by
  have hsplit : region base n = region base j ++ (base + j) :: (List.range' (base + (j + 1)) (n - (j + 1))) := by
    apply List.ext_getElem
    · simp [region]; omega
    · intro k h1 h2
      simp only [region, List.getElem_map, List.getElem_range, List.getElem_append, List.length_map, List.length_range]
      split
      · rfl
      · rename_i hk
        rcases Nat.lt_or_ge j k with hlt | hge
        · obtain ⟨d, rfl⟩ := Nat.exists_eq_add_of_lt hlt
          simp [show j + d + 1 - j = d + 1 by omega]
          omega
        · obtain rfl : k = j := by omega
          simp
  rw [State.feRegion, hsplit]
  refine readAll_error (g := fun a => Field.reduce (s.word a).toNat) (fun b hb => ?_) (feMem_of_not_canonical hn)
  obtain ⟨k, hk, rfl⟩ := List.mem_map.mp hb
  exact feMem_of_canonical (h k (List.mem_range.mp hk))

/-! The checks. -/

@[simp] theorem require_true (e : Error) : require true e = .ok () := rfl
@[simp] theorem require_false (e : Error) : require false e = .error e := rfl

theorem require_ok {b : Bool} {e : Error} {u : Unit} (h : require b e = .ok u) : b = true := by
  cases b <;> simp_all

theorem requireWidth_some {c : Params} {t : Nat} {T : Tables} (h : tablesFor c t = some T) : requireWidth c t = .ok T := by
  simp [requireWidth, h]

theorem requireWidth_none {c : Params} {t : Nat} (h : tablesFor c t = none) :
    requireWidth c t = .error { cause := .unsupportedWidth, info := BitVec.ofNat 32 t } := by
  simp [requireWidth, h]

theorem requireWidth_ok {c : Params} {t : Nat} {T : Tables} (h : requireWidth c t = .ok T) : tablesFor c t = some T := by
  cases ht : tablesFor c t with
  | none => rw [requireWidth_none ht] at h; cases h
  | some T' => rw [requireWidth_some ht] at h; rw [Except.ok.inj h]

theorem requireRegion_of_fits {s : State} {base n : Nat} (h : n = 0 ∨ base + n ≤ dmemWords s.params) : requireRegion s base n = .ok () := by
  rcases h with h | h <;> simp [requireRegion, h]

theorem requireRegion_of_passes {s : State} {base n : Nat} (h : 0 < n) (h' : dmemWords s.params < base + n) :
    requireRegion s base n = .error { cause := .addressRange, info := BitVec.ofNat 32 base } := by
  have hb : (n == 0 || decide (base + n ≤ dmemWords s.params)) = false := by
    simp only [Bool.or_eq_false_iff, beq_eq_false_iff_ne, decide_eq_false_iff_not]
    omega
  rw [requireRegion, hb, require_false]

theorem requireRegion_ok {s : State} {base n : Nat} {u : Unit} (h : requireRegion s base n = .ok u) : n = 0 ∨ base + n ≤ dmemWords s.params := by
  simpa using require_ok h

theorem requireDepth_of_le {s : State} (h : s.levels.toNat ≤ maxLevelsOf s.params) : requireDepth s = .ok () := by
  simp [requireDepth, h]

theorem requireDepth_of_gt {s : State} (h : maxLevelsOf s.params < s.levels.toNat) :
    requireDepth s = .error { cause := .badArgument, info := s.levels } := by
  rw [requireDepth, decide_eq_false (Nat.not_le.mpr h), require_false]

theorem requireDepth_ok {s : State} {u : Unit} (h : requireDepth s = .ok u) : s.levels.toNat ≤ maxLevelsOf s.params := by
  simpa using require_ok h

theorem requireFits_of_fits {s : State} {ra : Reg} {g : Nat} (h : groupFits ra g = true) : requireFits s ra g = .ok () := by
  simp [requireFits, h]

theorem requireFits_of_not {s : State} {ra : Reg} {g : Nat} (h : groupFits ra g = false) :
    requireFits s ra g = .error { cause := .illegalCommand, info := s.cmd } := by
  simp [requireFits, h]

end Sys2Proof.Machine
end

