-- ==== Sys2Proof/Laws/Checks.lean ====
section
/-! SUPPORT. Checks in a row: the first one that does not pass is reported (60_exceptions R231). Every check and every operand read of a
command is such a row. -/

namespace Sys2Proof.Machine

/-- A row of checks: the error of the first that does not pass. -/
def guardAll : List (Bool × Error) → Except Error Unit
  | []          => .ok ()
  | (b, e) :: l => if b then guardAll l else .error e

theorem guardAll_append (l m : List (Bool × Error)) : guardAll (l ++ m) = guardAll l >>= fun _ => guardAll m := by
  induction l with
  | nil => rfl
  | cons c l ih =>
    obtain ⟨b, e⟩ := c
    cases b <;> simp [guardAll, ih]

/-- A row of two checks or more, taken apart. -/
theorem guardAll_cons (c d : Bool × Error) (l : List (Bool × Error)) :
    guardAll (c :: d :: l) = guardAll [c] >>= fun _ => guardAll (d :: l) := guardAll_append [c] (d :: l)

@[simp] theorem guardAll_nil : guardAll [] = .ok () := rfl

theorem guardAll_ok {l : List (Bool × Error)} : guardAll l = .ok () ↔ ∀ c ∈ l, c.1 = true := by
  induction l with
  | nil => simp [guardAll]
  | cons c l ih =>
    obtain ⟨b, e⟩ := c
    cases b <;> simp [guardAll, ih]

/-- The first check that does not pass is the one reported. -/
theorem guardAll_first {l m : List (Bool × Error)} {e : Error} (h : ∀ c ∈ l, c.1 = true) : guardAll (l ++ (false, e) :: m) = .error e := by
  rw [guardAll_append, guardAll_ok.mpr h]
  rfl

theorem guardAll_error {l : List (Bool × Error)} {e : Error} (h : guardAll l = .error e) : (false, e) ∈ l := by
  induction l with
  | nil => cases h
  | cons c l ih =>
    obtain ⟨b, e'⟩ := c
    cases b with
    | false => simp only [guardAll, Bool.false_eq_true, ↓reduceIte, Except.error.injEq] at h; simp [h]
    | true => exact List.mem_cons_of_mem _ (ih h)

theorem bind_assoc_except {ε α β γ : Type} (x : Except ε α) (f : α → Except ε β) (g : β → Except ε γ) :
    (x >>= f) >>= g = x >>= fun a => f a >>= g := by cases x <;> rfl

/-! The row of each check and of each operand read. -/

/-- The check that a register number holds a FieldElement. -/
def regCheck (s : State) (k : Nat) : Bool × Error :=
  (decide ((s.x.toList.getD k 0).toNat < p), { cause := .nonCanonical, info := BitVec.ofNat 32 (0x80000000 + k) })

/-- The check that a word holds a FieldElement. -/
def wordCheck (s : State) (a : Nat) : Bool × Error :=
  (decide ((s.word a).toNat < p), { cause := .nonCanonical, info := BitVec.ofNat 32 a })

/-- The check of a region (R66). -/
def regionCheck (c : Params) (r : Nat × Nat) : Bool × Error :=
  (r.2 == 0 || decide (r.1 + r.2 ≤ dmemWords c), { cause := .addressRange, info := BitVec.ofNat 32 r.1 })

/-- The check that a width has tables (R225). -/
def widthCheck (c : Params) (t : Nat) : Bool × Error := (inWset c t, { cause := .unsupportedWidth, info := BitVec.ofNat 32 t })

/-- The tables of a width that has them. -/
def tablesOr (c : Params) (t : Nat) : Tables := (tablesFor c t).getD default

theorem tablesOr_some {c : Params} {t : Nat} {T : Tables} (h : tablesFor c t = some T) : tablesOr c t = T := by simp [tablesOr, h]

theorem require_guard (b : Bool) (e : Error) : require b e = guardAll [(b, e)] := by cases b <;> rfl

theorem requireWidth_guard (c : Params) (t : Nat) : requireWidth c t = guardAll [widthCheck c t] >>= fun _ => .ok (tablesOr c t) := by
  cases h : tablesFor c t <;> simp [requireWidth, widthCheck, inWset, tablesOr, h, guardAll]

theorem requireRegion_guard (s : State) (a n : Nat) : requireRegion s a n = guardAll [regionCheck s.params (a, n)] := require_guard _ _

theorem regCheck_fst {s : State} {k : Nat} : (regCheck s k).1 = true ↔ s.regCanonical k := by simp [regCheck, State.regCanonical]
theorem wordCheck_fst {s : State} {a : Nat} : (wordCheck s a).1 = true ↔ s.wordCanonical a := by simp [wordCheck, State.wordCanonical]
theorem regionCheck_fst {c : Params} {r : Nat × Nat} : (regionCheck c r).1 = true ↔ regionFits c r := by simp [regionCheck, regionFits]
theorem widthCheck_fst {c : Params} {t : Nat} : (widthCheck c t).1 = true ↔ tablesFor c t ≠ none := by
  simp [widthCheck, inWset, Option.isSome_iff_ne_none]

theorem check_false {b : Bool} {e : Error} (h : ¬b = true) : (b, e) = (false, e) := by simp_all

theorem fe_guard (s : State) (i : Reg) : s.fe i = guardAll [regCheck s i.val] >>= fun _ => .ok (s.regElem i.val) := by
  by_cases h : s.regCanonical i.val
  · rw [fe_of_canonical h, guardAll_ok.mpr (by simpa [regCheck_fst] using h)]
    rfl
  · rw [fe_of_not_canonical h, show regCheck s i.val = _ from check_false (mt regCheck_fst.mp h)]
    rfl

theorem feMem_guard (s : State) (a : Nat) : s.feMem a = guardAll [wordCheck s a] >>= fun _ => .ok (Field.reduce (s.word a).toNat) := by
  by_cases h : s.wordCanonical a
  · rw [feMem_of_canonical h, guardAll_ok.mpr (by simpa [wordCheck_fst] using h)]
    rfl
  · rw [feMem_of_not_canonical h, show wordCheck s a = _ from check_false (mt wordCheck_fst.mp h)]
    rfl

theorem readAll_guard {α : Type} {f : α → Except Error Fe} {c : α → Bool × Error} {g : α → Fe}
    (h : ∀ a, f a = guardAll [c a] >>= fun _ => .ok (g a)) (l : List α) :
    readAll f l = guardAll (l.map c) >>= fun _ => .ok (l.map g) := by
  induction l with
  | nil => rfl
  | cons a l ih =>
    rcases hc : c a with ⟨b, e⟩
    cases b
    · simp [readAll, h, hc, guardAll]
    · simp only [readAll, h, hc, ih, List.map_cons, guardAll, ↓reduceIte, ok_bind, bind_assoc_except, pure_eq_ok]

theorem feRegs_guard (s : State) {ra : Reg} {g : Nat} (h : groupFits ra g = true) :
    s.feRegs ra g = guardAll (((List.range g).map (ra.val + ·)).map (regCheck s)) >>= fun _ =>
      .ok (((List.range g).map (ra.val + ·)).map s.regElem) := by
  rw [State.feRegs, readAll_guard (fe_guard s), ← map_val_regGroup h, List.map_map, List.map_map]
  rfl

theorem feRegion_guard (s : State) (a n : Nat) :
    s.feRegion a n = guardAll (((List.range n).map (a + ·)).map (wordCheck s)) >>= fun _ => .ok (s.elems a n) := by
  rw [State.feRegion, readAll_guard (feMem_guard s), region]
  simp only [State.elems, List.map_map, Function.comp_def]

end Sys2Proof.Machine
end

