-- ==== Sys2Proof/Laws/Prime.lean ====
section
/-! SUPPORT. The modulus of the field is prime (zkr §2 "a fixed ~254-bit prime"; 00_scope R6), by Lucas certificates. -/

namespace Sys2Proof.Laws

/-- `b ^ e mod m` by `k` squarings. -/
def modPow (m : Nat) : (k b e : Nat) → Nat
  | 0, _, _     => 1 % m
  | k + 1, b, e =>
    let h := modPow m k (b * b % m) (e / 2)
    if e % 2 = 1 then b * h % m else h

theorem modPow_eq (m k b e : Nat) (he : e < 2 ^ k) : modPow m k b e = b ^ e % m := by
  induction k generalizing b e with
  | zero =>
    obtain rfl : e = 0 := by omega
    rfl
  | succ k ih =>
    have h2 : e / 2 < 2 ^ k := by omega
    have hsq : (b * b % m) ^ (e / 2) % m = b ^ (2 * (e / 2)) % m := by
      rw [Nat.pow_mod, Nat.mod_mod, ← Nat.pow_mod, ← pow_two, ← pow_mul]
    simp only [modPow, ih _ _ h2, hsq]
    split
    · rename_i h1
      rw [Nat.mul_mod, Nat.mod_mod, ← Nat.mul_mod, ← pow_succ', show 2 * (e / 2) + 1 = e by omega]
    · rw [show 2 * (e / 2) = e by omega]

/-- A Lucas certificate: a base `a` and the prime factors of `n - 1`, with repetitions. -/
theorem prime_of_certificate (n a : Nat) (l : List Nat) (hn : 1 < n) (hk : n - 1 < 2 ^ 256) (hl : ∀ q ∈ l, q.Prime)
    (hprod : l.prod = n - 1) (h1 : modPow n 256 a (n - 1) = 1)
    (hq : ∀ q ∈ l, modPow n 256 a ((n - 1) / q) ≠ 1) : n.Prime := by
  have cast : ∀ e, e ≤ n - 1 → (((a : ZMod n) ^ e = 1) ↔ modPow n 256 a e = 1) := by
    intro e he
    rw [modPow_eq n 256 a e (by omega), ← Nat.cast_one, ← Nat.cast_pow, ZMod.natCast_eq_natCast_iff]
    unfold Nat.ModEq
    rw [Nat.mod_eq_of_lt hn]
  refine lucas_primality n (a : ZMod n) ((cast _ le_rfl).mpr h1) fun q hqp hqd h => ?_
  have hmem : q ∈ l := by
    rw [← hprod] at hqd
    obtain ⟨r, hr, hd⟩ := (Prime.dvd_prod_iff hqp.prime).mp hqd
    exact (Nat.prime_dvd_prime_iff_eq hqp (hl r hr)).mp hd ▸ hr
  exact hq q hmem ((cast _ (Nat.div_le_self _ _)).mp h)

theorem prime_639533339 : Nat.Prime 639533339 :=
  prime_of_certificate _ 2 [2, 229, 853, 1637] (by norm_num) (by norm_num) (by norm_num) (by norm_num)
    (by decide +kernel) (by decide +kernel)

theorem prime_65865678001877903 : Nat.Prime 65865678001877903 :=
  prime_of_certificate _ 5 [2, 83, 379, 1637, 639533339] (by norm_num) (by norm_num)
    (by simp only [List.forall_mem_cons]; exact ⟨by norm_num, by norm_num, by norm_num, by norm_num, prime_639533339, by simp⟩)
    (by norm_num) (by decide +kernel) (by decide +kernel)

theorem prime_13818364434197438864469338081 : Nat.Prime 13818364434197438864469338081 :=
  prime_of_certificate _ 3 [2, 2, 2, 2, 2, 5, 823, 1593227, 65865678001877903] (by norm_num) (by norm_num)
    (by
      simp only [List.forall_mem_cons]
      exact ⟨by norm_num, by norm_num, by norm_num, by norm_num, by norm_num, by norm_num, by norm_num, by norm_num,
        prime_65865678001877903, by simp⟩)
    (by norm_num) (by decide +kernel) (by decide +kernel)

theorem prime_12048837557 : Nat.Prime 12048837557 :=
  prime_of_certificate _ 2 [2, 2, 7, 7, 661, 93001] (by norm_num) (by norm_num) (by norm_num) (by norm_num)
    (by decide +kernel) (by decide +kernel)

theorem prime_5156902474397 : Nat.Prime 5156902474397 :=
  prime_of_certificate _ 2 [2, 2, 107, 12048837557] (by norm_num) (by norm_num)
    (by simp only [List.forall_mem_cons]; exact ⟨by norm_num, by norm_num, by norm_num, prime_12048837557, by simp⟩)
    (by norm_num) (by decide +kernel) (by decide +kernel)

theorem prime_1670836401704629 : Nat.Prime 1670836401704629 :=
  prime_of_certificate _ 2 [2, 2, 3, 3, 3, 3, 5156902474397] (by norm_num) (by norm_num)
    (by
      simp only [List.forall_mem_cons]
      exact ⟨by norm_num, by norm_num, by norm_num, by norm_num, by norm_num, by norm_num, prime_5156902474397, by simp⟩)
    (by norm_num) (by decide +kernel) (by decide +kernel)

theorem prime_405928799 : Nat.Prime 405928799 :=
  prime_of_certificate _ 22 [2, 11, 3691, 4999] (by norm_num) (by norm_num) (by norm_num) (by norm_num)
    (by decide +kernel) (by decide +kernel)

/-- The modulus is prime. -/
theorem p_prime : Nat.Prime p :=
  prime_of_certificate _ 5
    (List.replicate 28 2 ++ [3, 3, 13, 29, 983, 11003, 237073, 405928799, 1670836401704629, 13818364434197438864469338081])
    (by norm_num) (by norm_num)
    (by
      intro q hq
      rcases List.mem_append.mp hq with h | h
      · rw [(List.mem_replicate.mp h).2]; exact Nat.prime_two
      · simp only [List.mem_cons, List.not_mem_nil, or_false] at h
        rcases h with rfl | rfl | rfl | rfl | rfl | rfl | rfl | rfl | rfl | rfl
        · norm_num
        · norm_num
        · norm_num
        · norm_num
        · norm_num
        · norm_num
        · norm_num
        · exact prime_405928799
        · exact prime_1670836401704629
        · exact prime_13818364434197438864469338081)
    (by norm_num) (by decide +kernel) (by decide +kernel)

end Sys2Proof.Laws
end

