-- ==== Sys2Proof/Laws/Field.lean ====
section
/-! SUPPORT. The field functions: their values, and their images in Mathlib's field `ZMod p`. -/

namespace Sys2Proof.Machine.Field

theorem add_val (a b : Fe) : (add a b).val = (a.val + b.val) % p := rfl
theorem sub_val (a b : Fe) : (sub a b).val = (a.val + p - b.val) % p := rfl
theorem mul_val (a b : Fe) : (mul a b).val = a.val * b.val % p := rfl
theorem normalize_val (v : Container) : (normalize v).val = v.toNat % p := rfl

/-- The R163 cancellation: what was added is taken away (R116). -/
theorem sub_add_cancel (s m : Fe) : sub (add s m) s = m := by
  apply Fin.ext
  rw [sub_val, add_val]
  have h1 := s.isLt
  have h2 := m.isLt
  simp only [p] at *
  omega

theorem add_sub_cancel (a b : Fe) : add (sub a b) b = a := by
  apply Fin.ext
  rw [add_val, sub_val]
  have h1 := a.isLt
  have h2 := b.isLt
  simp only [p] at *
  omega

/-- Adding to the same slot tells different words apart (R164). -/
theorem add_left_injective {s m m' : Fe} (h : add s m = add s m') : m = m' := by
  rw [← sub_add_cancel s m, h, sub_add_cancel]

/-- A FieldElement as an element of Mathlib's field. -/
def toZ (a : Fe) : ZMod p := (a.val : ZMod p)

theorem toZ_reduce (n : Nat) : toZ (reduce n) = (n : ZMod p) := by
  simp [toZ, val_reduce]

theorem toZ_injective {a b : Fe} (h : toZ a = toZ b) : a = b := by
  have := (ZMod.natCast_eq_natCast_iff _ _ _).mp h
  unfold Nat.ModEq at this
  rw [Nat.mod_eq_of_lt a.isLt, Nat.mod_eq_of_lt b.isLt] at this
  exact Fin.ext this

@[simp] theorem toZ_add (a b : Fe) : toZ (add a b) = toZ a + toZ b := by
  rw [add, toZ_reduce, Nat.cast_add]; rfl

@[simp] theorem toZ_mul (a b : Fe) : toZ (mul a b) = toZ a * toZ b := by
  rw [mul, toZ_reduce, Nat.cast_mul]; rfl

@[simp] theorem toZ_sub (a b : Fe) : toZ (sub a b) = toZ a - toZ b := by
  have h := congrArg toZ (add_sub_cancel a b)
  rw [toZ_add] at h
  rw [← h]
  ring

@[simp] theorem toZ_square (a : Fe) : toZ (square a) = toZ a ^ 2 := by rw [square, toZ_mul, pow_two]

@[simp] theorem toZ_pow5 (a : Fe) : toZ (pow5 a) = toZ a ^ 5 := by rw [pow5, toZ_mul, toZ_square, toZ_square]; ring

theorem toZ_pow (b : Fe) (k e : Nat) (he : e < 2 ^ k) : toZ (pow b k e) = toZ b ^ e := by
  induction k generalizing b e with
  | zero =>
    obtain rfl : e = 0 := by omega
    simp [pow, toZ_reduce]
  | succ k ih =>
    have h2 : e / 2 < 2 ^ k := by omega
    simp only [pow]
    split
    · rename_i h1
      rw [toZ_mul, ih _ _ h2, toZ_square, ← pow_mul, ← pow_succ', show 2 * (e / 2) + 1 = e by omega]
    · rw [ih _ _ h2, toZ_square, ← pow_mul, show 2 * (e / 2) = e by omega]

theorem toZ_ne_zero {b : Fe} (h : b.val ≠ 0) : toZ b ≠ 0 := by
  intro h0
  exact h (congrArg Fin.val (toZ_injective (b := reduce 0) (by rw [h0, toZ_reduce, Nat.cast_zero])))

/-- Fermat: the fixed exponentiation of R268 is the inverse of Mathlib's field. -/
theorem toZ_inv {b : Fe} (h : b.val ≠ 0) : toZ (inv b) = (toZ b)⁻¹ := by
  have : Fact p.Prime := ⟨Laws.p_prime⟩
  rw [inv, toZ_pow _ _ _ (by decide +kernel)]
  have hf := ZMod.pow_card_sub_one_eq_one (p := p) (toZ_ne_zero h)
  rw [show p - 1 = (p - 2) + 1 by decide +kernel, pow_succ] at hf
  exact eq_inv_of_mul_eq_one_left hf

end Sys2Proof.Machine.Field
end

