-- ==== Sys2Proof/Laws/Permutation.lean ====
section
/-! SUPPORT. The permutation: lengths, slots after each layer, and one round more. -/

namespace Sys2Proof.Machine

@[simp] theorem length_ark (T : Tables) (r : Nat) (S : List Fe) : (ark T r S).length = S.length := by simp [ark]
@[simp] theorem length_sbox (r : Nat) (S : List Fe) : (sbox r S).length = S.length := by unfold sbox; split <;> simp
@[simp] theorem length_mix (T : Tables) (S : List Fe) : (mix T S).length = S.length := by simp [mix]
@[simp] theorem length_round (T : Tables) (r : Nat) (S : List Fe) : (round T r S).length = S.length := by simp [round]

/-- The state after the first `n` rounds. -/
def roundsDone (T : Tables) (s : List Fe) : Nat → List Fe
  | 0     => s
  | n + 1 => round T n (roundsDone T s n)

theorem foldl_rounds (T : Tables) (s : List Fe) (n : Nat) : (List.range n).foldl (fun S r => round T r S) s = roundsDone T s n := by
  induction n with
  | zero => rfl
  | succ n ih => rw [List.range_succ, List.foldl_append, ih]; rfl

theorem permuteWith_eq (T : Tables) (s : List Fe) : permuteWith T s = roundsDone T s (totalRounds s.length) := foldl_rounds T s _

theorem length_roundsDone (T : Tables) (s : List Fe) (n : Nat) : (roundsDone T s n).length = s.length := by
  induction n with
  | zero => rfl
  | succ n ih => simp [roundsDone, ih]

/-- "`permute(state: [FieldElement; t]) -> [FieldElement; t]`" (R120). -/
@[simp] theorem length_permuteWith (T : Tables) (s : List Fe) : (permuteWith T s).length = s.length := by
  rw [permuteWith_eq, length_roundsDone]

theorem getD_ark (T : Tables) (r : Nat) (S : List Fe) (i : Nat) (h : i < S.length) (d e : Fe) :
    (ark T r S).getD i d = Field.add (S.getD i e) (rcAt T (r * S.length + i)) := by
  simp [ark, h]

theorem getD_sbox (r : Nat) (S : List Fe) (i : Nat) (h : i < S.length) (d e : Fe) :
    (sbox r S).getD i d = if isFullRound S.length r = true ∨ i = 0 then Field.pow5 (S.getD i e) else S.getD i e := by
  unfold sbox
  split
  · rename_i hf
    simp [h, hf]
  · rename_i hf
    simp only [List.getD_eq_getElem?_getD, List.getElem?_mapIdx, h, List.getElem?_eq_getElem, Option.map_some, Option.getD_some, hf,
      false_or, Bool.false_eq_true]

theorem getD_mix (T : Tables) (S : List Fe) (i : Nat) (h : i < S.length) (d : Fe) : (mix T S).getD i d = mixRow T i S := by
  simp [mix, h]

theorem toZ_foldl_add (l : List Fe) (a : Fe) : Field.toZ (l.foldl Field.add a) = Field.toZ a + (l.map Field.toZ).sum := by
  induction l generalizing a with
  | nil => simp
  | cons b l ih => simp [ih, add_assoc]

/-- A row of the linear layer as a sum over the field (R124). -/
theorem toZ_mixRow (T : Tables) (i : Nat) (S : List Fe) (e : Fe) :
    Field.toZ (mixRow T i S) = ∑ j ∈ Finset.range S.length, Field.toZ (mdsAt T i j) * Field.toZ (S.getD j e) := by
  rw [mixRow, toZ_foldl_add, Field.toZ_reduce, Nat.cast_zero, zero_add, Finset.sum_range, ← List.sum_ofFn]
  congr 1
  apply List.ext_getElem
  · simp
  · intro k h1 h2
    simp

/-- A width with tables is in `[2, 9]` (R5, R38). -/
theorem width_of_tables {c : Params} {t : Nat} {T : Tables} (h : tablesFor c t = some T) : 2 ≤ t ∧ t ≤ 9 := by
  unfold tablesFor at h
  split at h
  · refine ⟨by assumption, ?_⟩
    by_contra hn
    rw [List.getElem?_eq_none (by simp; omega)] at h
    cases h
  · cases h

end Sys2Proof.Machine
end

