-- ==== Sys2Proof/Laws/Cipher.lean ====
section
/-! SUPPORT. The cipher: blocks, lengths, and one block undone by the decryptor (43_cipher R151 to R155). -/

namespace Sys2Proof.Machine

theorem blocks_append {c : List Fe} (h : c.length = 3) (m : List Fe) : blocks (c ++ m) = c :: blocks m := by
  match c, h with
  | [a, b, d], _ => rfl

/-- Every block has three words. -/
theorem length_of_mem_blocks {m b : List Fe} (h : b ∈ blocks m) : b.length = 3 := by
  induction m using blocks.induct with
  | case1 => simp [blocks] at h
  | case2 a => simp only [blocks, List.mem_singleton] at h; simp [h]
  | case3 a c => simp only [blocks, List.mem_singleton] at h; simp [h]
  | case4 a c d m ih =>
    simp only [blocks, List.mem_cons] at h
    rcases h with rfl | h
    · rfl
    · exact ih h

/-- `nb = ceil(L / 3)` blocks. -/
theorem length_blocks (m : List Fe) : (blocks m).length = blockCount m.length := by
  induction m using blocks.induct with
  | case1 => rfl
  | case2 a => simp [blocks, blockCount]
  | case3 a c => simp [blocks, blockCount]
  | case4 a c d m ih =>
    simp only [blocks, List.length_cons, ih, blockCount]
    omega

/-- The blocks are the message, padded with zeros (R151). -/
theorem flatten_blocks (m : List Fe) : (blocks m).flatten = m ++ List.replicate (3 * blockCount m.length - m.length) (Field.reduce 0) := by
  induction m using blocks.induct with
  | case1 => rfl
  | case2 a => simp [blocks, blockCount, List.replicate]
  | case3 a c => simp [blocks, blockCount]
  | case4 a c d m ih =>
    have : 3 * blockCount (m.length + 1 + 1 + 1) - (m.length + 1 + 1 + 1) = 3 * blockCount m.length - m.length := by
      simp only [blockCount]; omega
    simp only [blocks, List.flatten_cons, ih, List.length_cons, this, List.cons_append, List.nil_append]

theorem take_flatten_blocks (m : List Fe) : (blocks m).flatten.take m.length = m := by
  rw [flatten_blocks, List.take_left]

theorem length_rateSlots {S : List Fe} (h : S.length = 5) : (rateSlots S).length = 3 := by simp [rateSlots, h]

theorem length_withRate {S c : List Fe} (h : S.length = 5) (hc : c.length = 3) : (withRate S c).length = 5 := by
  simp [withRate, h, hc]

theorem length_next {T : Tables} {S c : List Fe} (h : S.length = 5) (hc : c.length = 3) :
    (permuteWith T (withRate S c)).length = 5 := by rw [length_permuteWith, length_withRate h hc]

theorem length_cinit (k : Key) (n : Fe) (L : Nat) : (cinit k n L).length = 5 := rfl

theorem zipWith_sub_add {r b : List Fe} (h : b.length = r.length) : List.zipWith Field.sub (List.zipWith Field.add r b) r = b := by
  induction r generalizing b with
  | nil => simp_all
  | cons a r ih =>
    cases b with
    | nil => simp at h
    | cons c b =>
      simp only [List.length_cons, Nat.add_right_cancel_iff] at h
      simp [Field.sub_add_cancel, ih h]

theorem length_cipherBlock {S b : List Fe} (h : S.length = 5) (hb : b.length = 3) :
    (List.zipWith Field.add (rateSlots S) b).length = 3 := by simp [length_rateSlots h, hb]

theorem length_encryptBlocks (T : Tables) {S : List Fe} (h : S.length = 5) {bs : List (List Fe)} (hb : ∀ b ∈ bs, b.length = 3) :
    (encryptBlocks T S bs).1.length = 3 * bs.length := by
  induction bs generalizing S with
  | nil => rfl
  | cons b bs ih =>
    have hc := length_cipherBlock h (hb b (by simp))
    simp only [encryptBlocks, List.length_append, hc, List.length_cons, ih (length_next (T := T) h hc) fun d hd => hb d (by simp [hd])]
    omega

/-- The decryptor's state equals the encryptor's at every step (R155, R163). -/
theorem decryptBlocks_encryptBlocks (T : Tables) {S : List Fe} (h : S.length = 5) {bs : List (List Fe)} (hb : ∀ b ∈ bs, b.length = 3) :
    decryptBlocks T S (blocks (encryptBlocks T S bs).1) = (bs.flatten, (encryptBlocks T S bs).2) := by
  induction bs generalizing S with
  | nil => rfl
  | cons b bs ih =>
    have hc := length_cipherBlock h (hb b (by simp))
    have := ih (length_next (T := T) h hc) fun d hd => hb d (by simp [hd])
    simp only [encryptBlocks, blocks_append hc, decryptBlocks, this, List.flatten_cons]
    rw [zipWith_sub_add (by rw [hb b (by simp), length_rateSlots h])]

theorem length_encrypt (T : Tables) (msg : List Fe) (k : Key) (n : Fe) : (encrypt T msg k n).length = 3 * blockCount msg.length + 1 := by
  simp only [encrypt, List.length_append, List.length_singleton]
  rw [length_encryptBlocks T (by rw [length_permuteWith, length_cinit]) fun b hb => length_of_mem_blocks hb, length_blocks]

theorem length_decryptBlocks (T : Tables) {S : List Fe} (h : S.length = 5) {cs : List (List Fe)} (hc : ∀ c ∈ cs, c.length = 3) :
    (decryptBlocks T S cs).1.length = 3 * cs.length := by
  induction cs generalizing S with
  | nil => rfl
  | cons c cs ih =>
    have h3 := hc c (by simp)
    simp only [decryptBlocks, List.length_append, List.length_zipWith, h3, length_rateSlots h, List.length_cons,
      ih (length_next (T := T) h h3) fun d hd => hc d (by simp [hd])]
    omega

theorem length_decryptBlocks_blocks {T : Tables} {S : List Fe} (h : S.length = 5) (m : List Fe) :
    (decryptBlocks T S (blocks m)).1.length = 3 * blockCount m.length := by
  rw [length_decryptBlocks T h fun c hc => length_of_mem_blocks hc, length_blocks]

/-- "`DMEM[DST + i] <- plain[i]` for `i` from 0 to `L-1`": exactly `L` words (R155, R161). -/
theorem length_plain {T : Tables} {ct : List Fe} (k : Key) (n : Fe) (L : Nat) (h : ct.length = 3 * blockCount L + 1) :
    (decrypt T ct k n L).plain.length = L := by
  simp only [decrypt, List.length_take]
  rw [length_decryptBlocks_blocks (by rw [length_permuteWith, length_cinit]), List.length_take, h]
  simp only [blockCount]
  omega

end Sys2Proof.Machine
end

