-- ==== Sys2Proof/Laws/Merkle.lean ====
section
/-! SUPPORT. The Merkle accumulator: layers node by node, and the path walked level by level (44_merkle R182 to R189). -/

namespace Sys2Proof.Machine

@[simp] theorem length_nextLayer (T : Tables) (z : Fe) (l : List Fe) : (nextLayer T z l).length = (l.length + 1) / 2 := by
  induction l using nextLayer.induct with
  | case1 => rfl
  | case2 a => simp [nextLayer]
  | case3 a b l ih =>
    simp only [nextLayer, List.length_cons, ih]
    omega

/-- Node `i` of the layer above (R182). -/
theorem getElem?_nextLayer (T : Tables) (z : Fe) (l : List Fe) (i : Nat) :
    (nextLayer T z l)[i]? = (l[2 * i]?).map fun a => hash2 T a ((l[2 * i + 1]?).getD z) := by
  induction l using nextLayer.induct generalizing i with
  | case1 => simp [nextLayer]
  | case2 a => cases i <;> simp [nextLayer, Nat.mul_succ]
  | case3 a b l ih => cases i with
    | zero => simp [nextLayer]
    | succ i => simp [nextLayer, ih, Nat.mul_succ]

theorem length_layer (T : Tables) (z0 : Fe) (leaves : List Fe) (L : Nat) :
    (layer T z0 leaves L).length = (leaves.length + 2 ^ L - 1) / 2 ^ L := by
  induction L with
  | zero => simp [layer]
  | succ L ih =>
    rw [layer, length_nextLayer, ih]
    have hp : 0 < 2 ^ L := Nat.two_pow_pos L
    rw [show (leaves.length + 2 ^ L - 1) / 2 ^ L + 1 = (leaves.length + 2 ^ L - 1 + 2 ^ L) / 2 ^ L by rw [Nat.add_div_right _ hp],
      Nat.div_div_eq_div_mul, ← pow_succ]
    congr 1
    rw [pow_succ]
    omega

/-- A node of a layer exists exactly when its first leaf does. -/
theorem lt_length_layer {T : Tables} {z0 : Fe} {leaves : List Fe} {i0 : Nat} (h : i0 < leaves.length) (L : Nat) :
    i0 / 2 ^ L < (layer T z0 leaves L).length := by
  have hp : 0 < 2 ^ L := Nat.two_pow_pos L
  rw [length_layer, Nat.div_lt_iff_lt_mul hp]
  have := Nat.div_add_mod (leaves.length + 2 ^ L - 1) (2 ^ L)
  have hm := Nat.mod_lt (leaves.length + 2 ^ L - 1) hp
  rw [Nat.mul_comm] at this
  omega

@[simp] theorem length_pathFrom (T : Tables) (z0 : Fe) (n L : Nat) (lay : List Fe) (i : Nat) : (pathFrom T z0 n L lay i).length = n := by
  induction n generalizing L lay i with
  | zero => rfl
  | succ n ih => simp [pathFrom, ih]

/-- Element `k` of the path from level `L` (R185). -/
theorem getElem?_pathFrom (T : Tables) (z0 : Fe) (leaves : List Fe) (n L i k : Nat) (h : k < n) :
    (pathFrom T z0 n L (layer T z0 leaves L) i)[k]? = some (sibling (zeroAt T z0 (L + k)) (layer T z0 leaves (L + k)) (i / 2 ^ k)) := by
  induction n generalizing L i k with
  | zero => omega
  | succ n ih =>
    rw [pathFrom, show nextLayer T (zeroAt T z0 L) (layer T z0 leaves L) = layer T z0 leaves (L + 1) from rfl]
    cases k with
    | zero => simp
    | succ k =>
      rw [List.getElem?_cons_succ, ih (L + 1) (i / 2) k (by omega), Nat.div_div_eq_div_mul, ← pow_succ',
        show L + 1 + k = L + (k + 1) by omega]

/-- One level up: hashing a node with its sibling in the indicated order gives its parent (R188, R194). -/
theorem parent_of_sibling {T : Tables} {z : Fe} {lay : List Fe} {i : Nat} {a : Fe} (h : lay[i]? = some a) :
    (nextLayer T z lay)[i / 2]? = some (if i % 2 = 0 then hash2 T a (sibling z lay i) else hash2 T (sibling z lay i) a) := by
  rw [getElem?_nextLayer]
  by_cases he : i % 2 = 0
  · rw [show 2 * (i / 2) = i by omega, h]
    simp [he, sibling]
  · have hlt : i - 1 < lay.length := by
      obtain ⟨hi, -⟩ := List.getElem?_eq_some_iff.mp h
      omega
    rw [show 2 * (i / 2) = i - 1 by omega, show i - 1 + 1 = i by omega, h]
    simp [he, sibling, List.getElem?_eq_getElem hlt]

/-- Replaying the path from level `L` for `n` levels gives the node of level `L + n` above (R188, R194). -/
theorem foldPath_pathFrom {T : Tables} {z0 : Fe} {leaves : List Fe} {n L i : Nat} {a : Fe} (h : (layer T z0 leaves L)[i]? = some a) :
    (layer T z0 leaves (L + n))[i / 2 ^ n]? = some (foldPath T a (pathFrom T z0 n L (layer T z0 leaves L) i) i) := by
  induction n generalizing L i a with
  | zero => simpa [pathFrom, foldPath] using h
  | succ n ih =>
    have hp := parent_of_sibling (T := T) (z := zeroAt T z0 L) h
    rw [show nextLayer T (zeroAt T z0 L) (layer T z0 leaves L) = layer T z0 leaves (L + 1) from rfl] at hp
    have := ih hp
    rw [Nat.div_div_eq_div_mul, ← pow_succ', show L + 1 + n = L + (n + 1) by omega] at this
    exact this

theorem findLeaf_some {leaf : Fe} {leaves : List Fe} {i : Nat} (h : findLeaf leaf leaves = some i) :
    leaves[i]? = some leaf ∧ ∀ j < i, leaves[j]? ≠ some leaf := by
  induction leaves generalizing i with
  | nil => cases h
  | cons a l ih =>
    simp only [findLeaf] at h
    split at h
    · rename_i ha
      cases h
      simp [ha]
    · rename_i ha
      obtain ⟨k, hk, rfl⟩ := Option.map_eq_some_iff.mp h
      obtain ⟨h1, h2⟩ := ih hk
      refine ⟨by simpa using h1, fun j hj => ?_⟩
      cases j with
      | zero => simpa using ha
      | succ j => simpa using h2 j (by omega)

theorem findLeaf_none {leaf : Fe} {leaves : List Fe} : findLeaf leaf leaves = none ↔ leaf ∉ leaves := by
  induction leaves with
  | nil => simp [findLeaf]
  | cons a l ih =>
    simp only [findLeaf]
    split
    · rename_i ha
      simp [ha]
    · rename_i ha
      simp only [Option.map_eq_none_iff, ih, List.mem_cons, not_or]
      exact ⟨fun h => ⟨fun e => ha e.symm, h⟩, fun h => h.2⟩

end Sys2Proof.Machine
end

