-- ==== Sys2Proof/Laws/Commands.lean ====
section
/-! SUPPORT. Each command once: its row of checks in the order of 60_exceptions R231, then its outcome, written out on the operands. -/

namespace Sys2Proof.Machine

/-- The rule of a command. -/
def ruleOf : Instr → State → Except Error State
  | .fadd rd ra rb => ruleFadd rd ra rb
  | .fsub rd ra rb => ruleFsub rd ra rb
  | .fmul rd ra rb => ruleFmul rd ra rb
  | .fpow5 rd ra => ruleFpow5 rd ra
  | .fnorm rd ra => ruleFnorm rd ra
  | .fdiv rd ra rb => ruleFdiv rd ra rb
  | .perm t => rulePerm t
  | .hash rd ra n => ruleHash rd ra n
  | .cenc ra rb => ruleCenc ra rb
  | .cdec rd ra rb => ruleCdec rd ra rb
  | .cchk ra rb => ruleCchk ra rb
  | .mbuild => ruleMbuild
  | .mroot rd => ruleMroot rd
  | .mpath ra => ruleMpath ra
  | .mfold rd ra => ruleMfold rd ra
  | .fld rd off => ruleFld rd off
  | .fst ra off => ruleFst ra off

/-- Every command is the completion of its rule (R47). -/
theorem exec_eq (i : Instr) (s : State) : exec i s = complete s (ruleOf i s) := by cases i <;> rfl

theorem exec_next {i : Instr} {s t : State} (h : exec i s = .next t) : t = completed s (ruleOf i s) := by
  rw [exec_eq] at h
  exact (Host.Outcome.next.inj h).symm

/-- `LEVELS > MAX_LEVELS` (R233), checked by `MBUILD` and `MFOLD`. -/
def depthCheck (s : State) : Bool × Error :=
  (decide (s.levels.toNat ≤ maxLevelsOf s.params), { cause := .badArgument, info := s.levels })

/-- `LEN > 2^LEVELS` (R226), checked by `MBUILD`. -/
def capacityCheck (s : State) : Bool × Error :=
  (decide (s.len.toNat ≤ 2 ^ s.levels.toNat), { cause := .capacityExceeded, info := s.len })

/-- The checks between the width and the regions. -/
def sizeChecks (s : State) : Instr → List (Bool × Error)
  | .fadd _ _ _ => []
  | .fsub _ _ _ => []
  | .fmul _ _ _ => []
  | .fpow5 _ _ => []
  | .fnorm _ _ => []
  | .fdiv _ _ _ => []
  | .perm _ => []
  | .hash _ _ _ => []
  | .cenc _ _ => []
  | .cdec _ _ _ => []
  | .cchk _ _ => []
  | .mbuild => [depthCheck s, capacityCheck s]
  | .mroot _ => []
  | .mpath _ => []
  | .mfold _ _ => [depthCheck s]
  | .fld _ _ => []
  | .fst _ _ => []

/-- The row of checks of a command whose group fits, in the order of R231. -/
def checksOf (s : State) (i : Instr) : List (Bool × Error) :=
  (widthOf i).toList.map (widthCheck s.params) ++ (sizeChecks s i ++ ((regionsOf s i).map (regionCheck s.params) ++
    ((operandRegs i).map (regCheck s) ++ (operandWords s i).map (wordCheck s))))

/-- The key of a cipher command. -/
def keyAt (s : State) (ra : Reg) : Key := { k0 := s.regElem ra.val, k1 := s.regElem (ra.val + 1) }

/-- The outcome of a command whose checks have passed: the state with its writes, or an error of its data. -/
def outcomeOf (s : State) : Instr → Except Error State
  | .fadd rd ra rb => .ok (s.setReg rd (ofFe (Field.add (s.regElem ra.val) (s.regElem rb.val))))
  | .fsub rd ra rb => .ok (s.setReg rd (ofFe (Field.sub (s.regElem ra.val) (s.regElem rb.val))))
  | .fmul rd ra rb => .ok (s.setReg rd (ofFe (Field.mul (s.regElem ra.val) (s.regElem rb.val))))
  | .fpow5 rd ra => .ok (s.setReg rd (ofFe (Field.pow5 (s.regElem ra.val))))
  | .fnorm rd ra => .ok (s.setReg rd (ofFe (s.regElem ra.val)))
  | .fdiv rd ra rb =>
    if (s.regElem rb.val).val = 0 then .error { cause := .divisionByZero, info := BitVec.ofNat 32 rb.val }
    else .ok (s.setReg rd (ofFe (Field.mul (s.regElem ra.val) (Field.inv (s.regElem rb.val)))))
  | .perm t => .ok (s.setLowRegs ((permuteWith (tablesOr s.params t.val) ((operandRegs (.perm t)).map s.regElem)).map ofFe))
  | .hash rd ra n => .ok (s.setReg rd (ofFe (hashWith (tablesOr s.params (n.val + 1)) ((operandRegs (.hash rd ra n)).map s.regElem))))
  | .cenc ra rb =>
    .ok (s.writeWords s.dst.toNat
      ((encrypt (tablesOr s.params 5) (s.elems s.src.toNat s.len.toNat) (keyAt s ra) (s.regElem rb.val)).map ofFe))
  | .cdec rd ra rb =>
    let d := decrypt (tablesOr s.params 5) (s.elems s.src.toNat (3 * blockCount s.len.toNat + 1)) (keyAt s ra) (s.regElem rb.val) s.len.toNat
    .ok (((s.writeWords s.dst.toNat (d.plain.map ofFe)).setReg rd (ofFe d.tag)).setEq d.ok)
  | .cchk ra rb =>
    .ok (s.setEq (check (tablesOr s.params 5) (s.elems s.aux.toNat (3 * blockCount s.len.toNat + 1)) (s.elems s.src.toNat s.len.toNat)
      (keyAt s ra) (s.regElem rb.val)))
  | .mbuild => .ok (s.setTree s.levels.toNat (s.elems s.src.toNat s.len.toNat))
  | .mroot rd => .ok (s.setReg rd (ofFe (treeRoot (tablesOr s.params 3) s.params.zero0 s.tree.levels s.tree.leaves)))
  | .mpath ra =>
    match findLeaf (s.regElem ra.val) s.tree.leaves with
    | none    => .error { cause := .notFound, info := 0 }
    | some i0 => .ok ((s.writeWords s.dst.toNat
        ((pathFrom (tablesOr s.params 3) s.params.zero0 s.tree.levels 0 s.tree.leaves i0).map ofFe)).setIdx i0)
  | .mfold rd ra =>
    .ok (s.setReg rd (ofFe (foldPath (tablesOr s.params 3) (s.regElem ra.val) (s.elems s.src.toNat s.levels.toNat) s.idx.toNat)))
  | .fld rd off => .ok (s.setReg rd (s.word (s.src.toNat + off.val)))
  | .fst ra off => .ok (s.writeWords (s.dst.toNat + off.val) [s.reg ra])

theorem feKeyNonce_guard (s : State) {ra : Reg} (rb : Reg) (h : groupFits ra 2 = true) :
    s.feKeyNonce ra rb = guardAll ([ra.val, ra.val + 1, rb.val].map (regCheck s)) >>= fun _ => .ok (keyAt s ra, s.regElem rb.val) := by
  rw [State.feKeyNonce, feRegs_guard s h, fe_guard, show ([ra.val, ra.val + 1, rb.val].map (regCheck s)) =
    ((List.range 2).map (ra.val + ·)).map (regCheck s) ++ [regCheck s rb.val] by rfl, guardAll_append]
  simp only [bind_assoc_except, ok_bind]
  rfl

theorem groupFits_perm (t : Count) : groupFits 0 t.val = true := by
  revert t
  decide

/-- The checks of a command, group by group. -/
theorem guardAll_checksOf (s : State) (i : Instr) :
    guardAll (checksOf s i) = guardAll ((widthOf i).toList.map (widthCheck s.params)) >>= fun _ => guardAll (sizeChecks s i) >>= fun _ =>
      guardAll ((regionsOf s i).map (regionCheck s.params)) >>= fun _ => guardAll ((operandRegs i).map (regCheck s)) >>= fun _ =>
      guardAll ((operandWords s i).map (wordCheck s)) := by
  simp only [checksOf, guardAll_append]

/-- A command that is one: its checks in order, then its outcome. -/
theorem ruleOf_eq {i : Instr} (h : i.wellFormed = true) (s : State) : ruleOf i s = guardAll (checksOf s i) >>= fun _ => outcomeOf s i := by
  rw [guardAll_checksOf]
  cases i with
  | fadd rd ra rb | fsub rd ra rb | fmul rd ra rb =>
    simp [ruleOf, ruleFadd, ruleFsub, ruleFmul, fieldBinary, fe_guard, widthOf, sizeChecks, regionsOf, operandRegs, operandWords,
      guardAll_cons, outcomeOf]
  | fpow5 rd ra =>
    simp [ruleOf, ruleFpow5, fe_guard, widthOf, sizeChecks, regionsOf, operandRegs, operandWords, outcomeOf]
  | fnorm rd ra =>
    simp only [ruleOf, ruleFnorm, Field.normalize, reg_eq_getD]
    rfl
  | fdiv rd ra rb =>
    have hd : Field.div (s.regElem ra.val) (s.regElem rb.val) = if (s.regElem rb.val).val = 0 then none else
        some (Field.mul (s.regElem ra.val) (Field.inv (s.regElem rb.val))) := rfl
    by_cases hb : (s.regElem rb.val).val = 0 <;> simp only [hb, ↓reduceIte] at hd <;>
      simp [ruleOf, ruleFdiv, fe_guard, widthOf, sizeChecks, regionsOf, operandRegs, operandWords, guardAll_cons,
        outcomeOf, hd, hb, -Fin.val_eq_zero_iff]
  | perm t =>
    simp [ruleOf, rulePerm, requireWidth_guard, feRegs_guard s (groupFits_perm t), widthOf, sizeChecks, regionsOf, operandRegs,
      operandWords, outcomeOf]
  | hash rd ra n =>
    have hg : groupFits ra n.val = true := h
    simp [ruleOf, ruleHash, requireFits, hg, requireWidth_guard, feRegs_guard s hg, widthOf, sizeChecks, regionsOf, operandRegs,
      operandWords, outcomeOf]
  | cenc ra rb =>
    have hg : groupFits ra 2 = true := h
    simp [ruleOf, ruleCenc, requireFits, hg, requireWidth_guard, requireRegion_guard, feKeyNonce_guard s rb hg, feRegion_guard,
      widthOf, sizeChecks, regionsOf, operandRegs, operandWords, guardAll_cons, outcomeOf]
  | cdec rd ra rb =>
    have hg : groupFits ra 2 = true := h
    simp [ruleOf, ruleCdec, requireFits, hg, requireWidth_guard, requireRegion_guard, feKeyNonce_guard s rb hg, feRegion_guard,
      widthOf, sizeChecks, regionsOf, operandRegs, operandWords, guardAll_cons, outcomeOf]
  | cchk ra rb =>
    have hg : groupFits ra 2 = true := h
    simp [ruleOf, ruleCchk, requireFits, hg, requireWidth_guard, requireRegion_guard, feKeyNonce_guard s rb hg, feRegion_guard,
      widthOf, sizeChecks, regionsOf, operandRegs, operandWords, guardAll_append, guardAll_cons, outcomeOf]
  | mbuild =>
    simp [ruleOf, ruleMbuild, requireWidth_guard, requireDepth, require_guard, requireRegion_guard, feRegion_guard, widthOf,
      sizeChecks, depthCheck, capacityCheck, regionsOf, operandRegs, operandWords, guardAll_cons, outcomeOf]
  | mroot rd =>
    simp [ruleOf, ruleMroot, requireWidth_guard, widthOf, sizeChecks, regionsOf, operandRegs, operandWords, outcomeOf]
  | mpath ra =>
    cases hf : findLeaf (s.regElem ra.val) s.tree.leaves <;>
      simp [ruleOf, ruleMpath, requireWidth_guard, requireRegion_guard, fe_guard, widthOf, sizeChecks, regionsOf, operandRegs,
        operandWords, outcomeOf, pathFor, hf]
  | mfold rd ra =>
    simp [ruleOf, ruleMfold, requireWidth_guard, requireDepth, require_guard, requireRegion_guard, fe_guard, feRegion_guard,
      widthOf, sizeChecks, depthCheck, regionsOf, operandRegs, operandWords, outcomeOf]
  | fld rd off =>
    simp [ruleOf, ruleFld, effective, requireRegion_guard, widthOf, sizeChecks, regionsOf, operandRegs, operandWords, outcomeOf]
  | fst ra off =>
    simp [ruleOf, ruleFst, effective, requireRegion_guard, widthOf, sizeChecks, regionsOf, operandRegs, operandWords, outcomeOf]

end Sys2Proof.Machine
end

