-- ==== Sys2Proof/Laws/Decode.lean ====
section
/-! SUPPORT. The five fields of an assembled word, and a word is assembled from its five fields (R81). -/

namespace Sys2Proof

theorem toNat_assemble (op : BitVec 8) (rd ra rb : Reg) (imm : Offset) :
    (assemble op rd ra rb imm).toNat = op.toNat * 2 ^ 24 + rd.val * 2 ^ 20 + ra.val * 2 ^ 16 + rb.val * 2 ^ 12 + imm.val := by
  have h1 := op.isLt
  have h2 := rd.isLt
  have h3 := ra.isLt
  have h4 := rb.isLt
  have h5 := imm.isLt
  simp only [assemble, BitVec.toNat_append, BitVec.toNat_ofFin]
  rw [← Nat.shiftLeft_add_eq_or_of_lt (i := 4) h2, ← Nat.shiftLeft_add_eq_or_of_lt (i := 4) h3,
    ← Nat.shiftLeft_add_eq_or_of_lt (i := 4) h4, ← Nat.shiftLeft_add_eq_or_of_lt (i := 12) h5]
  simp only [Nat.shiftLeft_eq]
  omega

theorem opField_toNat (w : Word) : (opField w).toNat = w.toNat / 2 ^ 24 % 2 ^ 8 := by simp [opField, Nat.shiftRight_eq_div_pow]
theorem rdField_val (w : Word) : (rdField w).val = w.toNat / 2 ^ 20 % 2 ^ 4 := by simp [rdField, Nat.shiftRight_eq_div_pow]
theorem raField_val (w : Word) : (raField w).val = w.toNat / 2 ^ 16 % 2 ^ 4 := by simp [raField, Nat.shiftRight_eq_div_pow]
theorem rbField_val (w : Word) : (rbField w).val = w.toNat / 2 ^ 12 % 2 ^ 4 := by simp [rbField, Nat.shiftRight_eq_div_pow]
theorem immField_val (w : Word) : (immField w).val = w.toNat % 2 ^ 12 := by simp [immField]

section fields
variable (op : BitVec 8) (rd ra rb : Reg) (imm : Offset)

@[simp] theorem opField_assemble : opField (assemble op rd ra rb imm) = op := by
  have h1 := op.isLt
  have h2 := rd.isLt
  have h3 := ra.isLt
  have h4 := rb.isLt
  have h5 := imm.isLt
  apply BitVec.eq_of_toNat_eq
  rw [opField_toNat, toNat_assemble]
  omega

@[simp] theorem rdField_assemble : rdField (assemble op rd ra rb imm) = rd := by
  have h2 := rd.isLt
  have h3 := ra.isLt
  have h4 := rb.isLt
  have h5 := imm.isLt
  apply Fin.ext
  rw [rdField_val, toNat_assemble]
  omega

@[simp] theorem raField_assemble : raField (assemble op rd ra rb imm) = ra := by
  have h3 := ra.isLt
  have h4 := rb.isLt
  have h5 := imm.isLt
  apply Fin.ext
  rw [raField_val, toNat_assemble]
  omega

@[simp] theorem rbField_assemble : rbField (assemble op rd ra rb imm) = rb := by
  have h4 := rb.isLt
  have h5 := imm.isLt
  apply Fin.ext
  rw [rbField_val, toNat_assemble]
  omega

@[simp] theorem immField_assemble : immField (assemble op rd ra rb imm) = imm := by
  have h5 := imm.isLt
  apply Fin.ext
  rw [immField_val, toNat_assemble]
  omega

end fields

/-- Every word is put together from its five fields (R81). -/
theorem assemble_fields (w : Word) : assemble (opField w) (rdField w) (raField w) (rbField w) (immField w) = w := by
  apply BitVec.eq_of_toNat_eq
  have hw := w.isLt
  rw [toNat_assemble, opField_toNat, rdField_val, raField_val, rbField_val, immField_val]
  omega

@[simp] theorem countOf_immOfCount (n : Count) : countOf (immOfCount n) = n := by
  apply Fin.ext
  have := n.isLt
  simp [countOf, immOfCount]

@[simp] theorem immHigh_immOfCount (n : Count) : immHigh (immOfCount n) = 0 := by
  have := n.isLt
  simp [immHigh, immOfCount]

/-- An immediate whose high bits are zero is its count. -/
theorem immOfCount_countOf {imm : Offset} (h : immHigh imm = 0) : immOfCount (countOf imm) = imm := by
  apply Fin.ext
  have := imm.isLt
  simp only [immHigh] at h
  simp only [immOfCount, countOf, Fin.ofNat]
  omega

theorem whenZero_ok {z : Bool} {i j : Instr} (h : whenZero z i = .ok j) : z = true ∧ i = j := by
  cases z <;> simp_all [whenZero]

theorem requireGroup_ok {i j : Instr} (h : requireGroup i = .ok j) : i = j ∧ i.wellFormed = true := by
  unfold requireGroup at h
  split at h
  · rename_i hw
    exact ⟨Except.ok.inj h, hw⟩
  · cases h

/-- What the decoder accepts has passed the group check. -/
theorem decode_ok {w : Word} {i : Instr} (h : decode w = .ok i) : decodeFields w = .ok i ∧ i.wellFormed = true := by
  unfold decode at h
  cases hd : decodeFields w with
  | error e => rw [hd] at h; cases h
  | ok j =>
    rw [hd] at h
    obtain ⟨rfl, hw⟩ := requireGroup_ok h
    exact ⟨rfl, hw⟩

/-- A word whose fields were read as a well-formed command decodes to it. -/
theorem decode_of_fields {w : Word} {i : Instr} (h : decodeFields w = .ok i) (hw : i.wellFormed = true) : decode w = .ok i := by
  simp [decode, h, requireGroup, hw, Except.bind]

end Sys2Proof
end

