-- ==== Sys2Proof/Laws/Frame.lean ====
section
/-! SUPPORT. What a command's rule can do: which errors it raises, and what it leaves alone when it succeeds. -/

namespace Sys2Proof.Machine

/-- A term that is no command raises `IllegalCommand` with the word in `CMD` (log 17). -/
theorem ruleOf_illegal {i : Instr} (h : i.wellFormed = false) (s : State) :
    ruleOf i s = .error { cause := .illegalCommand, info := s.cmd } := by
  cases i with
  | hash rd ra n => simp [ruleOf, ruleHash, requireFits_of_not (s := s) (show groupFits ra n.val = false from h)]
  | cenc ra rb => simp [ruleOf, ruleCenc, requireFits_of_not (s := s) (show groupFits ra 2 = false from h)]
  | cdec rd ra rb => simp [ruleOf, ruleCdec, requireFits_of_not (s := s) (show groupFits ra 2 = false from h)]
  | cchk ra rb => simp [ruleOf, ruleCchk, requireFits_of_not (s := s) (show groupFits ra 2 = false from h)]
  | _ => cases h

/-- A rule that succeeded: the term is a command, every check passed, and the outcome is the one written out. -/
theorem ruleOf_ok {i : Instr} {s s' : State} (h : ruleOf i s = .ok s') :
    i.wellFormed = true ∧ (∀ c ∈ checksOf s i, c.1 = true) ∧ outcomeOf s i = .ok s' := by
  cases hw : i.wellFormed with
  | false => rw [ruleOf_illegal hw] at h; cases h
  | true =>
    rw [ruleOf_eq hw] at h
    obtain ⟨u, hg, ho⟩ := bind_eq_ok.mp h
    exact ⟨rfl, guardAll_ok.mp hg, ho⟩

/-- A rule that raised an error: the term is no command, a check did not pass, or the data gave it. -/
theorem ruleOf_error {i : Instr} {s : State} {e : Error} (h : ruleOf i s = .error e) :
    (i.wellFormed = false ∧ e = { cause := .illegalCommand, info := s.cmd }) ∨
    i.wellFormed = true ∧ ((false, e) ∈ checksOf s i ∨ outcomeOf s i = .error e) := by
  cases hw : i.wellFormed with
  | false => rw [ruleOf_illegal hw] at h; exact .inl ⟨rfl, (Except.error.inj h).symm⟩
  | true =>
    rw [ruleOf_eq hw] at h
    rcases bind_eq_error.mp h with h | ⟨u, -, h⟩
    · exact .inr ⟨rfl, .inl (guardAll_error h)⟩
    · exact .inr ⟨rfl, .inr h⟩

/-- All checks passed: the outcome is the rule's answer. -/
theorem ruleOf_of_checks {i : Instr} {s : State} (hw : i.wellFormed = true) (h : ∀ c ∈ checksOf s i, c.1 = true) :
    ruleOf i s = outcomeOf s i := by
  rw [ruleOf_eq hw, guardAll_ok.mpr h, ok_bind]

/-- The first check that does not pass is the error. -/
theorem ruleOf_of_first {i : Instr} {s : State} (hw : i.wellFormed = true) {l m : List (Bool × Error)} {e : Error}
    (hs : checksOf s i = l ++ (false, e) :: m) (h : ∀ c ∈ l, c.1 = true) : ruleOf i s = .error e := by
  rw [ruleOf_eq hw, hs, guardAll_first h, error_bind]

/-- The row of checks says what the predicates of Safety.lean say. -/
theorem checks_pass_iff {i : Instr} {s : State} :
    (∀ c ∈ checksOf s i, c.1 = true) ↔ widthOk s i ∧ depthOk s i ∧ capacityOk s i ∧ regionsOk s i ∧ operandsOk s i := by
  have hw : (∀ c ∈ (widthOf i).toList.map (widthCheck s.params), c.1 = true) ↔ widthOk s i := by
    simp [widthOk, widthCheck_fst]
  have hs : (∀ c ∈ sizeChecks s i, c.1 = true) ↔ depthOk s i ∧ capacityOk s i := by
    cases i <;> simp [sizeChecks, depthOk, capacityOk, depthCheck, capacityCheck]
  have hr : (∀ c ∈ (regionsOf s i).map (regionCheck s.params), c.1 = true) ↔ regionsOk s i := by
    simp only [List.forall_mem_map, regionCheck_fst, regionsOk]
  have ho : (∀ c ∈ (operandRegs i).map (regCheck s) ++ (operandWords s i).map (wordCheck s), c.1 = true) ↔ operandsOk s i := by
    simp only [List.forall_mem_append, List.forall_mem_map, regCheck_fst, wordCheck_fst, operandsOk]
  rw [checksOf, List.forall_mem_append, List.forall_mem_append, List.forall_mem_append, hw, hs, hr, ho, and_assoc]

/-- The errors of the data (R229, R228). -/
theorem outcomeOf_error {i : Instr} {s : State} {e : Error} (h : outcomeOf s i = .error e) :
    (∃ rd ra rb, i = .fdiv rd ra rb ∧ (s.regElem rb.val).val = 0 ∧ e = { cause := .divisionByZero, info := BitVec.ofNat 32 rb.val }) ∨
    ∃ ra, i = .mpath ra ∧ s.regElem ra.val ∉ s.tree.leaves ∧ e = { cause := .notFound, info := 0 } := by
  cases i with
  | fdiv rd ra rb =>
    simp only [outcomeOf] at h
    split at h
    · exact .inl ⟨rd, ra, rb, rfl, by assumption, (Except.error.inj h).symm⟩
    · cases h
  | mpath ra =>
    simp only [outcomeOf] at h
    split at h
    · exact .inr ⟨ra, rfl, findLeaf_none.mp (by assumption), (Except.error.inj h).symm⟩
    · cases h
  | _ => simp [outcomeOf] at h

/-- What a successful `FDIV` and a successful `MPATH` are. -/
theorem outcomeOf_fdiv {rd ra rb : Reg} {s s' : State} (h : outcomeOf s (.fdiv rd ra rb) = .ok s') :
    s' = s.setReg rd (ofFe (Field.mul (s.regElem ra.val) (Field.inv (s.regElem rb.val)))) := by
  simp only [outcomeOf] at h
  split at h
  · cases h
  · exact (Except.ok.inj h).symm

theorem outcomeOf_mpath {ra : Reg} {s s' : State} (h : outcomeOf s (.mpath ra) = .ok s') :
    ∃ i0, findLeaf (s.regElem ra.val) s.tree.leaves = some i0 ∧ s' = (s.writeWords s.dst.toNat
      ((pathFrom (tablesOr s.params 3) s.params.zero0 s.tree.levels 0 s.tree.leaves i0).map ofFe)).setIdx i0 := by
  simp only [outcomeOf] at h
  split at h
  · cases h
  · exact ⟨_, by assumption, (Except.ok.inj h).symm⟩

/-- A successful rule writes registers, `DMEM`, `IDX`, `TREE` and `EQ` at most. -/
theorem outcomeOf_shape {i : Instr} {s s' : State} (h : outcomeOf s i = .ok s') :
    s' = { s with x := s'.x, dmem := s'.dmem, idx := s'.idx, tree := s'.tree, status := { s.status with eq := s'.status.eq } } := by
  cases i with
  | fdiv rd ra rb => rw [outcomeOf_fdiv h]; rfl
  | mpath ra => obtain ⟨i0, -, rfl⟩ := outcomeOf_mpath h; rfl
  | _ => cases h; rfl

theorem toNat_ofFe (a : Fe) : (ofFe a).toNat = a.val := by
  have := a.isLt
  rw [ofFe, BitVec.toNat_ofNat, Nat.mod_eq_of_lt]
  simp only [p] at this ⊢
  omega

theorem toNat_ofFe_lt (a : Fe) : (ofFe a).toNat < p := by rw [toNat_ofFe]; exact a.isLt

/-- A register that one write changed is the written one. -/
theorem eq_of_reg_setReg {s : State} {rd r : Reg} {v : Container} (h : (s.setReg rd v).reg r ≠ s.reg r) : rd = r :=
  Classical.byContradiction fun e => h (s.reg_setReg_other rd r v e)

/-- The registers a command changes are its destinations (R22), and hold FieldElements unless the command is `FLD` (R114). -/
theorem outcomeOf_regs {i : Instr} {s s' : State} (h : outcomeOf s i = .ok s') {r : Reg} (hr : s'.reg r ≠ s.reg r) :
    r.val ∈ destinationRegs i ∧ ((∀ rd off, i ≠ .fld rd off) → (s'.reg r).toNat < p) := by
  have one : ∀ (rd : Reg) (v : Container), s'.x = (s.setReg rd v).x → r = rd ∧ s'.reg r = v := by
    intro rd v e
    have e' := State.reg_congr e r
    rw [e'] at hr ⊢
    obtain rfl := eq_of_reg_setReg hr
    exact ⟨rfl, s.reg_setReg_same _ _⟩
  have none : s'.x = s.x → False := fun e => hr (State.reg_congr e r)
  cases i with
  | fdiv rd ra rb =>
    obtain ⟨h1, h2⟩ := one rd _ (congrArg State.x (outcomeOf_fdiv h))
    exact ⟨by simp [destinationRegs, h1], fun _ => by rw [h2]; exact toNat_ofFe_lt _⟩
  | mpath ra => obtain ⟨i0, -, rfl⟩ := outcomeOf_mpath h; exact (none rfl).elim
  | perm t =>
    cases h
    rw [State.reg_setLowRegs] at hr ⊢
    rcases Nat.lt_or_ge r.val t.val with hlt | hge
    · refine ⟨by simpa [destinationRegs] using hlt, fun _ => ?_⟩
      rw [List.getD_eq_getElem _ _ (by simpa [operandRegs] using hlt), List.getElem_map]
      exact toNat_ofFe_lt _
    · exact (hr (List.getD_eq_default _ _ (by simpa [operandRegs] using hge))).elim
  | cenc ra rb | cchk ra rb | mbuild | fst ra off => cases h; exact (none rfl).elim
  | fld rd off =>
    cases h
    obtain ⟨h1, -⟩ := one rd _ rfl
    exact ⟨by simp [destinationRegs, h1], fun hn => (hn rd off rfl).elim⟩
  | fadd rd _ _ | fsub rd _ _ | fmul rd _ _ | fpow5 rd _ | fnorm rd _ | hash rd _ _ | cdec rd _ _ | mroot rd | mfold rd _ =>
    cases h
    obtain ⟨h1, h2⟩ := one rd _ rfl
    exact ⟨by simp [destinationRegs, h1], fun _ => by rw [h2]; exact toNat_ofFe_lt _⟩

/-- `DMEM` after a successful rule: one `MemWrite` over the command's write region (R67). -/
theorem outcomeOf_dmem {i : Instr} {s s' : State} (h : outcomeOf s i = .ok s') :
    ∃ vs, s'.dmem = Memory.writeAll s.dmem (writeRegionOf s i).1 vs ∧ vs.length = (writeRegionOf s i).2 := by
  cases i with
  | fdiv rd ra rb => rw [outcomeOf_fdiv h]; exact ⟨[], rfl, rfl⟩
  | mpath ra =>
    obtain ⟨i0, -, rfl⟩ := outcomeOf_mpath h
    exact ⟨_, rfl, by simp [writeRegionOf]⟩
  | cenc ra rb =>
    cases h
    exact ⟨_, rfl, by simp [writeRegionOf, length_encrypt, State.elems]⟩
  | cdec rd ra rb =>
    cases h
    refine ⟨_, rfl, ?_⟩
    rw [List.length_map, length_plain _ _ _ (by simp [State.elems])]
    rfl
  | fst ra off => cases h; exact ⟨_, rfl, rfl⟩
  | _ => cases h; exact ⟨[], rfl, rfl⟩

/-- The word at an address outside the write region. -/
theorem outcomeOf_word {i : Instr} {s s' : State} (h : outcomeOf s i = .ok s') {a : Nat}
    (ha : a < (writeRegionOf s i).1 ∨ (writeRegionOf s i).1 + (writeRegionOf s i).2 ≤ a) : s'.word a = s.word a := by
  obtain ⟨vs, hd, hl⟩ := outcomeOf_dmem h
  have he : s'.epoch = s.epoch := by rw [outcomeOf_shape h]
  rw [State.word, State.word, hd, Memory.read_writeAll_outside _ _ _ _ (by omega), he]

theorem outcomeOf_tree {i : Instr} {s s' : State} (h : outcomeOf s i = .ok s') :
    s'.tree = s.tree ∨ i = .mbuild ∧ s'.tree = { levels := s.levels.toNat, leaves := s.elems s.src.toNat s.len.toNat } := by
  cases i with
  | fdiv rd ra rb => rw [outcomeOf_fdiv h]; exact .inl rfl
  | mpath ra => obtain ⟨i0, -, rfl⟩ := outcomeOf_mpath h; exact .inl rfl
  | mbuild => cases h; exact .inr ⟨rfl, rfl⟩
  | _ => cases h; exact .inl rfl

theorem outcomeOf_idx {i : Instr} {s s' : State} (h : outcomeOf s i = .ok s') : s'.idx = s.idx ∨ ∃ ra, i = .mpath ra := by
  cases i with
  | fdiv rd ra rb => rw [outcomeOf_fdiv h]; exact .inl rfl
  | mpath ra => exact .inr ⟨ra, rfl⟩
  | _ => cases h; exact .inl rfl

theorem outcomeOf_eq {i : Instr} {s s' : State} (h : outcomeOf s i = .ok s') :
    s'.status.eq = s.status.eq ∨ (∃ rd ra rb, i = .cdec rd ra rb) ∨ ∃ ra rb, i = .cchk ra rb := by
  cases i with
  | fdiv rd ra rb => rw [outcomeOf_fdiv h]; exact .inl rfl
  | mpath ra => obtain ⟨i0, -, rfl⟩ := outcomeOf_mpath h; exact .inl rfl
  | cdec rd ra rb => exact .inr (.inl ⟨rd, ra, rb, rfl⟩)
  | cchk ra rb => exact .inr (.inr ⟨ra, rb, rfl⟩)
  | _ => cases h; exact .inl rfl

/-! Completion (R47, R224). -/

theorem bitIf_true (k : Nat) : bitIf true k = BitVec.ofNat 32 (2 ^ k) := rfl

theorem causeFatal_eq (c : Cause) : causeFatal c = decide (c ≠ .notFound) := by cases c <;> rfl

/-- The shared error entry, written out. -/
theorem fail_eq (s : State) (e : Error) : s.fail e = s.failedWith e.cause e.info := by
  simp only [State.fail, State.failedWith, statusFailed, setStickyBit, bitIf_true, causeFatal_eq]

/-- Success of a rule that wrote what `outcomeOf_shape` allows. -/
theorem succeed_eq {s s' : State}
    (h : s' = { s with x := s'.x, dmem := s'.dmem, idx := s'.idx, tree := s'.tree, status := { s.status with eq := s'.status.eq } }) :
    s'.succeed = s.succeededWith s'.x s'.dmem s'.idx s'.tree s'.status.eq := by
  rw [h]
  rfl

/-- A command ends in one of two states. -/
theorem exec_cases (i : Instr) (s : State) :
    (∃ s', ruleOf i s = .ok s' ∧ exec i s = .next (s.succeededWith s'.x s'.dmem s'.idx s'.tree s'.status.eq)) ∨
    ∃ e, ruleOf i s = .error e ∧ exec i s = .next (s.failedWith e.cause e.info) := by
  rw [exec_eq]
  cases h : ruleOf i s with
  | ok s' =>
    refine .inl ⟨s', rfl, ?_⟩
    rw [complete, completed, succeed_eq (outcomeOf_shape (ruleOf_ok h).2.2)]
  | error e =>
    refine .inr ⟨e, rfl, ?_⟩
    rw [complete, completed, fail_eq]

theorem exec_of_ok {i : Instr} {s s' : State} (h : ruleOf i s = .ok s') :
    exec i s = .next (s.succeededWith s'.x s'.dmem s'.idx s'.tree s'.status.eq) := by
  rw [exec_eq, h, complete, completed, succeed_eq (outcomeOf_shape (ruleOf_ok h).2.2)]

theorem exec_of_error {i : Instr} {s : State} {e : Error} (h : ruleOf i s = .error e) : exec i s = .next (s.failedWith e.cause e.info) := by
  rw [exec_eq, h, complete, completed, fail_eq]

end Sys2Proof.Machine
end

