-- ==== Sys2Proof/Laws/PerInstr.lean ====
section
/-! SUPPORT. Statements made per command (LAWS.json): the encoder's word carries the command's row of the opcode table (R84). -/

namespace Sys2Proof.Laws

/-- A word and a mask, both given by fields. -/
theorem and_assemble (op mo : BitVec 8) (rd ra rb : Reg) (imm : Offset) (m1 m2 m3 : BitVec 4) (mi : BitVec 12) :
    assemble op rd ra rb imm &&& (mo ++ m1 ++ m2 ++ m3 ++ mi) =
      assemble (op &&& mo) (BitVec.ofFin (w := 4) rd &&& m1).toFin (BitVec.ofFin (w := 4) ra &&& m2).toFin
        (BitVec.ofFin (w := 4) rb &&& m3).toFin (BitVec.ofFin (w := 12) imm &&& mi).toFin := by
  show (_ : BitVec (8 + 4 + 4 + 4 + 12)) = _
  unfold assemble
  simp only [BitVec.ofFin_toFin]
  exact (BitVec.and_append ..).trans (by
    rw [BitVec.and_append, BitVec.and_append, BitVec.and_append])

/-- A masked 12-bit immediate whose high eight bits are zero. -/
theorem and_high_immOfCount (n : Count) : immOfCount n &&& 4080 = 0 := by
  revert n
  decide

end Sys2Proof.Laws

namespace Sys2Proof.Laws.TableRow

/-- The encoder's word matches the row of its own command: `(w AND mask) = match`, and that row stands in the table (R84). -/
def Statement (i : Instr) : Prop := encode i &&& (matchMask i).2 = (matchMask i).1 ∧ matchMask i ∈ opcodeTable

theorem fadd (rd ra rb : Reg) : Statement (.fadd rd ra rb) :=
  ⟨(and_assemble 0x01 0xFF rd ra rb 0 0 0 0 0xFFF).trans (by simp; rfl), by simp [matchMask, opcodeTable]⟩
theorem fsub (rd ra rb : Reg) : Statement (.fsub rd ra rb) :=
  ⟨(and_assemble 0x02 0xFF rd ra rb 0 0 0 0 0xFFF).trans (by simp; rfl), by simp [matchMask, opcodeTable]⟩
theorem fmul (rd ra rb : Reg) : Statement (.fmul rd ra rb) :=
  ⟨(and_assemble 0x03 0xFF rd ra rb 0 0 0 0 0xFFF).trans (by simp; rfl), by simp [matchMask, opcodeTable]⟩
theorem fpow5 (rd ra : Reg) : Statement (.fpow5 rd ra) :=
  ⟨(and_assemble 0x04 0xFF rd ra 0 0 0 0 0xF 0xFFF).trans (by simp; rfl), by simp [matchMask, opcodeTable]⟩
theorem fnorm (rd ra : Reg) : Statement (.fnorm rd ra) :=
  ⟨(and_assemble 0x05 0xFF rd ra 0 0 0 0 0xF 0xFFF).trans (by simp; rfl), by simp [matchMask, opcodeTable]⟩
theorem fdiv (rd ra rb : Reg) : Statement (.fdiv rd ra rb) :=
  ⟨(and_assemble 0x06 0xFF rd ra rb 0 0 0 0 0xFFF).trans (by simp; rfl), by simp [matchMask, opcodeTable]⟩
theorem perm (t : Count) : Statement (.perm t) :=
  ⟨(and_assemble 0x10 0xFF 0 0 0 (immOfCount t) 0xF 0xF 0xF 0xFF0).trans (by simp [and_high_immOfCount]; rfl), by simp [matchMask, opcodeTable]⟩
theorem hash (rd ra : Reg) (n : Count) : Statement (.hash rd ra n) :=
  ⟨(and_assemble 0x20 0xFF rd ra 0 (immOfCount n) 0 0 0xF 0xFF0).trans (by simp [and_high_immOfCount]; rfl),
    by simp [matchMask, opcodeTable]⟩
theorem cenc (ra rb : Reg) : Statement (.cenc ra rb) :=
  ⟨(and_assemble 0x30 0xFF 0 ra rb 0 0xF 0 0 0xFFF).trans (by simp; rfl), by simp [matchMask, opcodeTable]⟩
theorem cdec (rd ra rb : Reg) : Statement (.cdec rd ra rb) :=
  ⟨(and_assemble 0x31 0xFF rd ra rb 0 0 0 0 0xFFF).trans (by simp; rfl), by simp [matchMask, opcodeTable]⟩
theorem cchk (ra rb : Reg) : Statement (.cchk ra rb) :=
  ⟨(and_assemble 0x32 0xFF 0 ra rb 0 0xF 0 0 0xFFF).trans (by simp; rfl), by simp [matchMask, opcodeTable]⟩
theorem mbuild : Statement .mbuild := ⟨by decide, by simp [matchMask, opcodeTable]⟩
theorem mroot (rd : Reg) : Statement (.mroot rd) :=
  ⟨(and_assemble 0x41 0xFF rd 0 0 0 0 0xF 0xF 0xFFF).trans (by simp; rfl), by simp [matchMask, opcodeTable]⟩
theorem mpath (ra : Reg) : Statement (.mpath ra) :=
  ⟨(and_assemble 0x42 0xFF 0 ra 0 0 0xF 0 0xF 0xFFF).trans (by simp; rfl), by simp [matchMask, opcodeTable]⟩
theorem mfold (rd ra : Reg) : Statement (.mfold rd ra) :=
  ⟨(and_assemble 0x43 0xFF rd ra 0 0 0 0 0xF 0xFFF).trans (by simp; rfl), by simp [matchMask, opcodeTable]⟩
theorem fld (rd : Reg) (off : Offset) : Statement (.fld rd off) :=
  ⟨(and_assemble 0x50 0xFF rd 0 0 off 0 0xF 0xF 0).trans (by simp; rfl), by simp [matchMask, opcodeTable]⟩
theorem fst (ra : Reg) (off : Offset) : Statement (.fst ra off) :=
  ⟨(and_assemble 0x51 0xFF 0 ra 0 off 0xF 0 0xF 0).trans (by simp; rfl), by simp [matchMask, opcodeTable]⟩

end Sys2Proof.Laws.TableRow
end

