-- ==== Sys2Proof/Laws/Step.lean ====
section
/-! SUPPORT. Everything a host transaction, a completion and a step can do, each said once. -/

namespace Sys2Proof.Machine

/-! Transactions. -/

/-- An idle core never changes anything but what the transaction addresses: a read only replies, a write of `CMD` is acceptance, and any
other write changes one register, one word of `DMEM`, or the operand CSRs. -/
theorem performIdle_cases (s : State) (t : Transaction) :
    (∃ v, performIdle s t = { s with replies := v :: s.replies }) ∨
    (∃ w, performIdle s t = s.accept w) ∨
    (∃ i v, performIdle s t = s.setReg i v) ∨
    (∃ a v, performIdle s t = s.writeWords a [v] ∧ targetOf s.params t = .mem a) ∨
    ∃ a b c d e f, performIdle s t = { s with src := a, dst := b, aux := c, len := d, levels := e, idx := f } := by
  unfold performIdle
  cases writeData t with
  | none => exact .inl ⟨_, rfl⟩
  | some data =>
    cases ht : targetOf s.params t with
    | csr n =>
      cases n with
      | cmd => exact .inr (.inl ⟨_, rfl⟩)
      | _ => exact .inr (.inr (.inr (.inr ⟨_, _, _, _, _, _, rfl⟩)))
    | reg i => exact .inr (.inr (.inl ⟨_, _, rfl⟩))
    | mem a => exact .inr (.inr (.inr (.inl ⟨a, data, rfl, rfl⟩)))
    | nothing => exact .inr (.inr (.inr (.inr ⟨_, _, _, _, _, _, rfl⟩)))

/-- A busy core replies to a read, and of a write records that it was lost (R48, R234). -/
theorem performBusy_cases (s : State) (t : Transaction) :
    (writeData t = none ∧ ∃ v k, performBusy s t = { s with replies := v :: s.replies, draws := k }) ∨
    (writeData t).isSome = true ∧ performBusy s t = { s with esticky := s.esticky ||| BitVec.ofNat 32 (2 ^ 9) } := by
  unfold performBusy
  cases writeData t with
  | none =>
    refine .inl ⟨rfl, ?_⟩
    dsimp only
    split
    · exact ⟨_, s.draws, rfl⟩
    · exact ⟨_, _, rfl⟩
  | some data => exact .inr ⟨rfl, rfl⟩

/-- A transaction that addresses memory addresses a word that exists. -/
theorem outside_none_mem {c : Params} {t : Transaction} {a : Nat} (h : outside c t = none) (ht : targetOf c t = .mem a) :
    a < dmemWords c := by
  have port : ∀ w, portTarget c w = .mem a → a < dmemWords c := by
    intro w hw
    simp only [portTarget] at hw
    generalize 0x80000000 = base at hw
    split at hw
    · cases hw
    split at hw
    · cases hw
    split at hw
    · cases hw
    split at hw
    · cases hw; assumption
    · cases hw
  cases t with
  | readMem b | writeMem b v =>
    cases ht
    by_contra hn
    simp [outside, hn] at h
  | readPort w | writePort w d => exact port w ht
  | _ => cases ht

theorem perform_next {s t : State} {tr : Transaction} (h : perform s tr = .next t) :
    outside s.params tr = none ∧ t = if s.status.busy then performBusy s tr else performIdle s tr := by
  unfold perform at h
  split at h
  · cases h
  · exact ⟨by assumption, (Host.Outcome.next.inj h).symm⟩

theorem perform_of_outside {s : State} {tr : Transaction} (h : outside s.params tr = none) :
    perform s tr = .next (if s.status.busy then performBusy s tr else performIdle s tr) := by
  simp [perform, h]

/-! Completion. -/

/-- Completion always answers a next state, one of two. -/
theorem runCommand_cases (s : State) :
    (∃ i s', decode s.cmd = .ok i ∧ ruleOf i s = .ok s' ∧
      runCommand s = .next (s.succeededWith s'.x s'.dmem s'.idx s'.tree s'.status.eq)) ∨
    ∃ c info, runCommand s = .next (s.failedWith c info) := by
  unfold runCommand
  cases hd : decode s.cmd with
  | error e =>
    refine .inr ⟨.illegalCommand, s.cmd, ?_⟩
    simp only [completeIllegal, complete, completed, fail_eq]
  | ok i =>
    rcases exec_cases i s with ⟨s', hr, he⟩ | ⟨e, -, he⟩
    · exact .inl ⟨i, s', rfl, hr, he⟩
    · exact .inr ⟨e.cause, e.info, he⟩

/-! Steps. -/

/-- Whose turn it is, read off the host's queue. -/
theorem nextTurn_core {s : State} (h : s.coreTurn) : nextTurn s = .core := by
  obtain ⟨hb, hi | ⟨t, rest, hi⟩⟩ := h <;> simp [nextTurn, hi, hb]

/-- Everything a step can be: a completion, a transaction, a reset, or nothing. -/
theorem step_cases (s : State) :
    (s.coreTurn ∧ step s = runCommand s) ∨
    (∃ t rest, (s.inbox = .request t :: rest ∧ s.status.busy = false ∨ s.inbox = .barge t :: rest) ∧
      step s = perform { s with inbox := rest } t) ∨
    (∃ rest, s.inbox = .reset :: rest ∧ step s = .next (State.afterReset { s with inbox := rest })) ∨
    s.inbox = [] ∧ s.status.busy = false ∧ step s = .next s := by
  cases hb : s.status.busy with
  | true =>
    match hi : s.inbox with
    | [] => exact .inl ⟨⟨hb, .inl hi⟩, by simp [step, nextTurn, hi, hb]⟩
    | .request t :: rest => exact .inl ⟨⟨hb, .inr ⟨t, rest, hi⟩⟩, by simp [step, nextTurn, hi, hb]⟩
    | .barge t :: rest => exact .inr (.inl ⟨t, rest, .inr rfl, by simp [step, nextTurn, hi, hostTurn]⟩)
    | .reset :: rest => exact .inr (.inr (.inl ⟨rest, rfl, by simp [step, nextTurn, hi, resetTurn]⟩))
  | false =>
    match hi : s.inbox with
    | [] => exact .inr (.inr (.inr ⟨rfl, rfl, by simp [step, nextTurn, hi, hb]⟩))
    | .request t :: rest => exact .inr (.inl ⟨t, rest, .inl ⟨rfl, rfl⟩, by simp [step, nextTurn, hi, hb, hostTurn]⟩)
    | .barge t :: rest => exact .inr (.inl ⟨t, rest, .inr rfl, by simp [step, nextTurn, hi, hostTurn]⟩)
    | .reset :: rest => exact .inr (.inr (.inl ⟨rest, rfl, by simp [step, nextTurn, hi, resetTurn]⟩))

/-! The bits of `ESTICKY`. -/

theorem getLsbD_orBit (e : Word) (c k : Nat) (hc : c < 32) :
    (e ||| BitVec.ofNat 32 (2 ^ c)).getLsbD k = (e.getLsbD k || decide (k = c)) := by
  rw [BitVec.getLsbD_or, BitVec.getLsbD_ofNat, Nat.testBit_two_pow]
  by_cases h : k = c
  · simp [h, hc]
  · simp [h, Ne.symm h]

theorem causeCode_range (c : Cause) : 1 ≤ causeCode c ∧ causeCode c ≤ 8 := by cases c <;> decide

/-! Every operation on the memory keeps its canonical form. -/

theorem wf_of_outcome {i : Instr} {s s' : State} (h : outcomeOf s i = .ok s') (hw : Memory.wf s.dmem) : Memory.wf s'.dmem := by
  obtain ⟨vs, hd, -⟩ := outcomeOf_dmem h
  rw [hd]
  exact Memory.writeAll_wf _ _ _ hw

/-- The step keeps the canonical form of the memory. -/
theorem step_dmem_wf {s t : State} (hw : Memory.wf s.dmem) (h : step s = .next t) : Memory.wf t.dmem := by
  rcases step_cases s with ⟨-, hs⟩ | ⟨tr, rest, -, hs⟩ | ⟨rest, -, hs⟩ | ⟨-, -, hs⟩ <;> rw [hs] at h
  · rcases runCommand_cases s with ⟨i, s', -, hr, he⟩ | ⟨c, info, he⟩ <;> rw [he] at h <;> cases h
    · exact wf_of_outcome (s' := s') (ruleOf_ok hr).2.2 hw
    · exact hw
  · obtain ⟨-, rfl⟩ := perform_next h
    split
    · rcases performBusy_cases { s with inbox := rest } tr with ⟨-, v, k, e⟩ | ⟨-, e⟩ <;> rw [e] <;> exact hw
    · rcases performIdle_cases { s with inbox := rest } tr with ⟨_, e⟩ | ⟨_, e⟩ | ⟨_, _, e⟩ | ⟨_, _, e, -⟩ | ⟨_, _, _, _, _, _, e⟩ <;>
        rw [e]
      · exact hw
      · exact hw
      · exact hw
      · exact Memory.writeAll_wf _ _ _ hw
      · exact hw
  · cases h
    exact List.Pairwise.nil
  · cases h
    exact hw

end Sys2Proof.Machine
end

