-- ==== Sys2Proof/Tests/Slice0.lean ====
section
/-! SUPPORT. Tests, each of one step on a small state, and a witness for the hypotheses of each statement. The expected values are the
spec's own: words from 30_encoding section 4 and 95_test_vectors 2.7, results from 95_test_vectors section 2 (TOY tables of 2.0). -/

namespace Sys2Proof.Tests

open Sys2Proof Sys2Proof.Machine

-- One theorem after the other: each evaluation in the kernel takes memory of its own.
set_option Elab.async false

/-! ## The TOY machine of 95_test_vectors 2.0 -/

/-- `RC_toy(t, k) = 1000*t + k`, `MDS_toy(t, i, j) = (i + 2)^j`. -/
def toyTables (t : Nat) : Tables where
  rc  := (List.range (totalRounds t * t)).map fun k => Field.reduce (1000 * t + k)
  mds := (List.range t).map fun i => (List.range t).map fun j => Field.reduce ((i + 2) ^ j)

/-- `ZERO0 = 12345`, `WSET = {2..9}`, `MAX_LEVELS = 32`, `DMEM_WORDS = 64`. -/
def toyParams : Params where
  tables    := #v[some (toyTables 2), some (toyTables 3), some (toyTables 4), some (toyTables 5), some (toyTables 6), some (toyTables 7),
    some (toyTables 8), some (toyTables 9)]
  zero0     := Field.reduce 12345
  dmemLast  := 63
  maxLevels := 32

/-- `WSET = {3, 5}` with the same tables (95_test_vectors 2.2). -/
def narrowParams : Params :=
  { toyParams with tables := #v[none, some (toyTables 3), none, some (toyTables 5), none, none, none, none] }

/-- The TOY machine after reset, then host writes of registers and memory words. -/
def toyWith (regs : List (Reg × Nat)) (mem : List (Nat × Nat)) : State :=
  mem.foldl (fun s m => s.writeWords m.1 [BitVec.ofNat 256 m.2])
    (regs.foldl (fun s r => s.setReg r.1 (BitVec.ofNat 256 r.2)) (State.resetWith toyParams))

def toy : State := toyWith [] []

/-- The state a command leaves. -/
def after (i : Instr) (s : State) : State :=
  match exec i s with
  | .next t    => t
  | .fault _   => s
  | .refused _ => s

def regAfter (i : Instr) (s : State) (k : Reg) : Nat := ((after i s).reg k).toNat
def wordAfter (i : Instr) (s : State) (a : Nat) : Nat := ((after i s).word a).toNat

/-- `STATUS`, `CAUSE`, `EINFO`, `ESTICKY` after a command. -/
def report (i : Instr) (s : State) : List Nat := [Csr.status, .cause, .einfo, .esticky].map fun n => ((after i s).csr n).toNat

/-! ## WellFormed: an ill-formed term for each check -/

theorem test_hash_group_past_x15 : (Instr.hash 0 9 8).wellFormed = false ∧ (Instr.hash 0 8 8).wellFormed = true := by decide
theorem test_hash_empty_group : (Instr.hash 0 15 0).wellFormed = true := by decide
theorem test_cenc_key_past_x15 : (Instr.cenc 15 6).wellFormed = false ∧ (Instr.cenc 14 6).wellFormed = true := by decide
theorem test_cdec_key_past_x15 : (Instr.cdec 0 15 6).wellFormed = false ∧ (Instr.cdec 15 14 6).wellFormed = true := by decide
theorem test_cchk_key_past_x15 : (Instr.cchk 15 6).wellFormed = false ∧ (Instr.cchk 14 15).wellFormed = true := by decide

/-! ## Decoding: a word of each command, written out in 30_encoding section 4 and 95_test_vectors 2.7 -/

theorem test_decode_fadd : decodeTableWord 32 0x01312000 = some (.fadd 3 1 2) := by decide
theorem test_decode_fsub : decodeTableWord 32 0x020FF000 = some (.fsub 0 15 15) := by decide
theorem test_decode_fmul : decodeTableWord 32 0x03444000 = some (.fmul 4 4 4) := by decide
theorem test_decode_fpow5 : decodeTableWord 32 0x04210000 = some (.fpow5 2 1) := by decide
theorem test_decode_fnorm : decodeTableWord 32 0x05770000 = some (.fnorm 7 7) := by decide
theorem test_decode_fdiv : decodeTableWord 32 0x06123000 = some (.fdiv 1 2 3) := by decide
theorem test_decode_perm : decodeTableWord 32 0x10000003 = some (.perm 3) ∧ decodeTableWord 32 0x1000000A = some (.perm 10) := by decide
theorem test_decode_hash : decodeTableWord 32 0x20010002 = some (.hash 0 1 2) ∧ decodeTableWord 32 0x20800008 = some (.hash 8 0 8) := by decide
theorem test_decode_cenc : decodeTableWord 32 0x30046000 = some (.cenc 4 6) := by decide
theorem test_decode_cdec : decodeTableWord 32 0x31746000 = some (.cdec 7 4 6) := by decide
theorem test_decode_cchk : decodeTableWord 32 0x32046000 = some (.cchk 4 6) := by decide
theorem test_decode_mbuild : decodeTableWord 32 0x40000000 = some .mbuild := by decide
theorem test_decode_mroot : decodeTableWord 32 0x41100000 = some (.mroot 1) := by decide
theorem test_decode_mpath : decodeTableWord 32 0x42020000 = some (.mpath 2) := by decide
theorem test_decode_mfold : decodeTableWord 32 0x43320000 = some (.mfold 3 2) := by decide
theorem test_decode_fld : decodeTableWord 32 0x50200005 = some (.fld 2 5) := by decide
theorem test_decode_fst : decodeTableWord 32 0x51020FFF = some (.fst 2 4095) := by decide

theorem test_decode_unknown_opcodes :
    [0x00000000, 0xFFFFFFFF, 0x07000000, 0x44000000].map decode = List.replicate 4 (.error .unknownOpcode) := by decide
theorem test_decode_unused_fields :
    [0x01312001, 0x10000013, 0x10100003, 0x20012002, 0x30146000, 0x40000001, 0x41110000, 0x50210005].map decode =
      List.replicate 8 (.error .unusedFieldNotZero) := by decide
theorem test_decode_groups : [0x20090008, 0x300F6000].map decode = List.replicate 2 (.error .groupPastX15) := by decide
theorem test_pseudo_words :
    [pseudoFsqr 4 4, pseudoHash2 0 1, pseudoFdbl 1 2, pseudoHash1 3 5].map encode = [0x03444000, 0x20010002, 0x01122000, 0x20350001] := by decide
theorem test_asm_text : asmText (.fadd 3 1 2) = "FADD x3, x1, x2" ∧ asmText (.hash 0 1 2) = "HASH x0, x1, 2" ∧ asmText (.fst 2 4095) = "FST x2, 4095" := by
  decide

/-! ## Field arithmetic (95_test_vectors 2.1) -/

theorem test_fadd_wraps : regAfter (.fadd 1 1 1) (toyWith [(1, p - 1)] []) 1 = p - 2 := by decide +kernel
theorem test_fadd_reports_first_operand : report (.fadd 3 1 2) (toyWith [(1, p), (2, 2 ^ 256 - 1)] []) = [0x0E, 6, 0x80000001, 0x40] := by
  decide +kernel
theorem test_fsub_borrows : regAfter (.fsub 3 1 2) (toyWith [(1, 5), (2, 7)] []) 3 = p - 2 := by decide +kernel
theorem test_fmul_wide : regAfter (.fmul 4 1 2) (toyWith [(1, 2 ^ 253), (2, 4)] []) 4 =
    14119558874979547267292681013829403749538263531988213332332383630804947828734 := by decide +kernel
theorem test_fpow5 : regAfter (.fpow5 2 1) (toyWith [(1, 2 ^ 128)] []) 2 =
    4558506912435023080037219642468056387142241397976430382812576713364364200367 := by decide +kernel
theorem test_fnorm : regAfter (.fnorm 7 7) (toyWith [(7, 2 ^ 256 - 1)] []) 7 =
    6350874878119819312338956282401532410528162663560392320966563075034087161850 := by decide +kernel
theorem test_fdiv : regAfter (.fdiv 1 2 3) (toyWith [(2, 33), (3, 2)] []) 1 =
    10944121435919637611123202872628637544274182200208017171849102093287904247825 := by decide +kernel
theorem test_fdiv_errors : report (.fdiv 9 6 12) (toyWith [(6, 33)] []) = [0x0E, 4, 12, 0x10] ∧
    report (.fdiv 1 2 3) (toyWith [(2, p)] []) = [0x0E, 6, 0x80000002, 0x40] := by decide +kernel

/-! ## Permutation and hash (95_test_vectors 2.2, 2.3) -/

theorem test_round0 : (round (toyTables 3) 0 [Field.reduce 0, Field.reduce 1, Field.reduce 2]).map Fin.val =
    [1709119464495844160, 3176052174035289312, 5132233535102416512] := by decide +kernel
theorem test_perm2 : [0, 1].map (regAfter (.perm 2) (toyWith [(2, p)] [])) =
    [12573793651636421550998826104150662718611446941040858073639041877935986298939,
     10113069962607872966566566508354448482786525293481385637959311727669108779511] := by decide +kernel
theorem test_perm_errors : report (.perm 10) (toyWith [(0, 2 ^ 256 - 1)] []) = [0x0E, 1, 10, 2] ∧
    report (.perm 2) (toyWith [(1, p)] []) = [0x0E, 6, 0x80000001, 0x40] := by decide +kernel
theorem test_hash : regAfter (.hash 0 1 2) (toyWith [(1, 1), (2, 2)] []) 0 =
    13357923200394499749009049885490337478641230619521150545696728019515792661094 := by decide +kernel
theorem test_hash_errors : report (.hash 0 1 9) toy = [0x0E, 1, 10, 2] ∧ report (.hash 5 6 2) (toyWith [(7, p)] []) = [0x0E, 6, 0x80000007, 0x40] := by
  decide +kernel

/-! ## Cipher (95_test_vectors 2.4) -/

/-- `k = [13, 37]`, `n = 42`, `m = [5]`, `LEN = 1`, `SRC = 0`, `DST = 16`. -/
def encState : State := { toyWith [(4, 13), (5, 37), (6, 42)] [(0, 5)] with len := 1, dst := 16 }

/-- The four words of its ciphertext at 16. -/
def ciphertext : List (Nat × Nat) :=
  [(16, 5824102149825270626640450572212289821018417218553533502075048286315506150442),
   (17, 13289299518179295409930108741379061492865985395117258201280835109125288237606),
   (18, 14980863225510142922308205005295131458585111460781415372774646494307418772374),
   (19, 16520394057511950414705429372613936278255287606101037964293163613390356858989)]

/-- The same key and nonce, the ciphertext in memory, `SRC = AUX = 16`, `DST = 63`. -/
def decState : State := { toyWith [(4, 13), (5, 37), (6, 42)] ((0, 5) :: ciphertext) with len := 1, src := 16, dst := 63, aux := 16 }

theorem test_cenc : [16, 17, 18, 19].map (wordAfter (.cenc 4 6) encState) = ciphertext.map Prod.snd := by decide +kernel
theorem test_cenc_region : report (.cenc 4 6) { encState with len := 7, dst := 55 } = [0x0E, 7, 55, 0x80] ∧
    report (.cenc 4 6) { encState with src := 0xFFFFFFFF } = [0x0E, 7, 0xFFFFFFFF, 0x80] := by decide +kernel
theorem test_cdec : wordAfter (.cdec 7 4 6) decState 63 = 5 ∧ report (.cdec 7 4 6) decState = [0x12, 0, 0, 0] ∧
    regAfter (.cdec 7 4 6) decState 7 = 16520394057511950414705429372613936278255287606101037964293163613390356858989 := by decide +kernel
/-- `LEN = 0`: the ciphertext is the tag alone. -/
def tagState (tag : Nat) : State := { toyWith [(4, 13), (5, 37), (6, 42)] [(16, tag)] with aux := 16, status := { toy.status with eq := true } }

theorem test_cchk : report (.cchk 4 6) (tagState 8614280561918399381851942405634084741627349661243666501083354949160208262883) = [0x12, 0, 0, 0] := by
  decide +kernel
theorem test_cchk_tampered : report (.cchk 4 6) (tagState 8614280561918399381851942405634084741627349661243666501083354949160208262884) = [0x02, 0, 0, 0] := by
  decide +kernel

/-! ## Merkle accumulator (95_test_vectors 2.5, 2.8) -/

/-- Leaves 1, 2, 3 in memory, `LEN = LEVELS = 3`, `DST = 16`, the leaf 3 in `x2`. -/
def leafState : State := { toyWith [(2, 3)] [(0, 1), (1, 2), (2, 3)] with len := 3, levels := 3, dst := 16 }

/-- The tree of those leaves. -/
def treeState : State := leafState.setTree 3 [Field.reduce 1, Field.reduce 2, Field.reduce 3]

/-- The path of leaf 3 in memory at 16, and its index. -/
def foldState : State :=
  { toyWith [(2, 3)] [(16, 12345), (17, 13357923200394499749009049885490337478641230619521150545696728019515792661094),
      (18, 5944806808027170907012778403022910492779794648030676711983938132027318307308)] with src := 16, levels := 3, idx := 2 }

theorem test_mbuild : (after .mbuild leafState).tree = { levels := 3, leaves := [Field.reduce 1, Field.reduce 2, Field.reduce 3] } := by decide +kernel
theorem test_mbuild_priority :
    report .mbuild { leafState with levels := 40, len := 5, src := 60 } = [0x0E, 8, 40, 0x100] ∧
    report .mbuild { leafState with levels := 2, len := 5, src := 60 } = [0x0E, 2, 5, 4] ∧
    report .mbuild { leafState with levels := 3, len := 5, src := 60 } = [0x0E, 7, 60, 0x80] ∧
    report .mbuild { leafState with levels := 2, len := 0, src := 0xFFFFFFFF } = [0x02, 0, 0, 0] := by decide +kernel
theorem test_mroot : regAfter (.mroot 1) treeState 1 =
    17347094283973924876738725892721297356086408948390850014032119104096122078555 := by decide +kernel
theorem test_mroot_after_reset : regAfter (.mroot 1) toy 1 = 12345 ∧
    report (.mroot 1) { toy with params := { narrowParams with tables := #v[none, none, none, none, none, none, none, none] } } = [0x0E, 1, 3, 2] := by decide +kernel
theorem test_mpath : [16, 17, 18].map (wordAfter (.mpath 2) treeState) =
    [12345, 13357923200394499749009049885490337478641230619521150545696728019515792661094,
     5944806808027170907012778403022910492779794648030676711983938132027318307308] ∧ (after (.mpath 2) treeState).idx = 2 := by decide +kernel
theorem test_mpath_not_found : report (.mpath 2) (treeState.setReg 2 9) = [0x06, 3, 0, 8] ∧
    report (.mpath 2) { treeState.setReg 2 9 with dst := 62 } = [0x0E, 7, 62, 0x80] := by decide +kernel
theorem test_mfold : regAfter (.mfold 3 2) foldState 3 =
    17347094283973924876738725892721297356086408948390850014032119104096122078555 := by decide +kernel
theorem test_mfold_no_levels : regAfter (.mfold 3 2) { foldState with levels := 0 } 3 = 3 ∧
    report (.mfold 3 2) { foldState with levels := 33 } = [0x0E, 8, 33, 0x100] := by decide +kernel

/-! ## Data movement (95_test_vectors 2.6) -/

theorem test_fld : regAfter (.fld 2 5) { toyWith [] [(21, 7)] with src := 16 } 2 = 7 := by decide +kernel
theorem test_fld_range : report (.fld 1 4) { toy with src := 60 } = [0x0E, 7, 0x40, 0x80] := by decide +kernel
theorem test_fst_raw : wordAfter (.fst 0 0) { toyWith [(0, 2 ^ 256 - 1)] [] with dst := 63 } 63 = 2 ^ 256 - 1 := by decide +kernel
theorem test_fst_range : report (.fst 1 1) { toy with dst := 0xFFFFFFFF } = [0x0E, 7, 0, 0x80] ∧
    report (.fst 0 0) { toy with dst := 0xFFFFFFFF } = [0x0E, 7, 0xFFFFFFFF, 0x80] := by decide +kernel

/-! ## The host's side (95_test_vectors 2.9) -/

/-- The state one step leaves. -/
def stepped (s : State) : State :=
  match step s with
  | .next t    => t
  | .fault _   => s
  | .refused _ => s

theorem test_csrs_after_reset : csrNames.toList.map (fun n => (toy.csr n).toNat) = [0x5A4B5207, 0, 0, 0, 0, 0, 0, 0, 0, 0, 0, 0, 0, 0, 64, 0x3FC] := by
  decide +kernel
theorem test_widths_narrow : (({ toy with params := narrowParams } : State).csr .widths).toNat = 0x28 := by decide +kernel
theorem test_write_id_ignored : stepped { toy with inbox := [.request (.writeCsr .id 5)] } = toy := by decide +kernel
theorem test_issue_accepts : (stepped { toy with inbox := [.request (.writeCsr .cmd 0x41100000)] }).status.busy = true := by decide +kernel
theorem test_request_waits : (stepped { toy.accept 0x41100000 with inbox := [.request (.writeX 1 7)] }).inbox = [.request (.writeX 1 7)] := by
  decide +kernel
theorem test_busy_write_lost : ((stepped { toy.accept 0x41100000 with inbox := [.barge (.writeX 1 7)] }).csr .esticky).toNat = 0x200 := by
  decide +kernel
theorem test_illegal_word : (((stepped (toy.present 0xFFFFFFFF)).csr .einfo).toNat, ((stepped (toy.present 0xFFFFFFFF)).csr .cause).toNat) = (0xFFFFFFFF, 5) := by
  decide +kernel
theorem test_reset_while_busy : stepped { toy.accept 0x41100000 with inbox := [.reset] } = { toy with epoch := 1 } := by decide +kernel

/-! ## Witnesses: concrete states and operands that meet the hypotheses of each statement -/

theorem witness_ResetLeavesTheSpecifiedState :
    ({ toy.accept 0x41100000 with inbox := [.reset, .request (.readX 0)] } : State).inbox = .reset :: [.request (.readX 0)] := rfl

theorem witness_AcceptanceWritesCommandAndStatusOnly :
    (let s : State := { toy with inbox := [.request (.writeCsr .cmd 0x41100000)] };
      s.status.busy = false ∧ s.inbox = .request (.writeCsr .cmd 0x41100000) :: []) ∧
    (let s : State := { toy with inbox := [.barge (.writeCsr .cmd 0xFFFFFFFF)] };
      s.status.busy = false ∧ s.inbox = .barge (.writeCsr .cmd 0xFFFFFFFF) :: []) := ⟨⟨rfl, rfl⟩, rfl, rfl⟩

theorem witness_StepCompletesTheAcceptedCommand :
    ((toy.present 0x41100000).coreTurn ∧ decode (toy.present 0x41100000).cmd = .ok (.mroot 1)) ∧
    (({ toy.accept 0x41100000 with inbox := [.request (.readX 1)] } : State).coreTurn ∧ decode 0x41100000 = .ok (.mroot 1)) ∧
    decode 0x51020FFF = .ok (.fst 2 4095) ∧
    (({ toy with inbox := [.request (.writeX 1 7)] } : State).inbox = .request (.writeX 1 7) :: [] ∧ toy.status.busy = false) ∧
    ({ toy.accept 0x41100000 with inbox := [.barge (.writeX 1 7), .reset] } : State).inbox = .barge (.writeX 1 7) :: [.reset] ∧
    toy.inbox = [] ∧ toy.status.busy = false :=
  ⟨⟨⟨rfl, .inl rfl⟩, by decide⟩, ⟨⟨rfl, .inr ⟨_, _, rfl⟩⟩, by decide⟩, by decide, ⟨rfl, rfl⟩, rfl, rfl, rfl⟩

theorem witness_IllegalWordCompletesWithIllegalCommand :
    (toy.present 0x20090008).coreTurn ∧ decode (toy.present 0x20090008).cmd = .error .groupPastX15 := ⟨⟨rfl, .inl rfl⟩, by decide⟩

theorem witness_DecodeAndEncodeAgree : (Instr.hash 0 8 8).wellFormed = true ∧ decode 0x20080008 = .ok (.hash 0 8 8) := by decide

theorem witness_DecoderAgreesWithOpcodeTable :
    decode 0x50200FFF = .ok (.fld 2 4095) ∧
    ((0x20000000, 0xFF00FFF0) ∈ opcodeTable ∧ (0x20090008 : Word) &&& 0xFF00FFF0 = 0x20000000) ∧
    ∀ row ∈ opcodeTable, (0x44000000 : Word) &&& row.2 ≠ row.1 :=
  ⟨by decide, ⟨by simp [opcodeTable], by decide⟩, by simp [opcodeTable]⟩

theorem witness_FieldFunctionValues :
    (let a : Fe := Field.reduce (p - 2); let b : Fe := Field.reduce 1; a.val + b.val < p ∧ b.val ≤ a.val) ∧
    (let a : Fe := Field.reduce (p - 1); let b : Fe := Field.reduce 1; p ≤ a.val + b.val ∧ b.val < a.val) ∧
    (let v : Container := BitVec.ofNat 256 (p - 1); v.toNat < p) := by decide +kernel

theorem witness_InverseIsTheUniqueSolution : (Field.reduce (p - 1)).val ≠ 0 ∧ (Field.reduce 1).val ≠ 0 := by decide +kernel

theorem witness_DivisionFailsOnZeroDivisorOnly : (Field.reduce 0).val = 0 ∧ (Field.reduce 1).val ≠ 0 := by decide +kernel

theorem witness_FieldLawsHold :
    (Field.reduce 3).val ≠ 0 ∧ Field.div (Field.reduce 6) (Field.reduce 3) = some (Field.reduce 2) := by decide +kernel

theorem witness_AddSubMulCommandResults :
    let s := toyWith [(1, p - 1), (2, 2)] []
    (s.reg 1).toNat < p ∧ (s.reg 2).toNat < p ∧ (s.reg 2).toNat ≤ (s.reg 1).toNat ∧ ¬(s.reg 1).toNat ≤ (s.reg 2).toNat := by decide +kernel

theorem witness_PowerAndNormalizeCommandResults : ((toyWith [(1, p - 1)] []).reg 1).toNat < p := by decide +kernel

theorem witness_DivideCommandResult :
    let s := toyWith [(1, p - 1), (2, 2)] []
    (s.reg 1).toNat < p ∧ (s.reg 2).toNat < p ∧ (s.reg 2).toNat ≠ 0 ∧ (s.reg 3).toNat = 0 := by decide +kernel

theorem witness_RoundLayerValues : 2 < [Field.reduce 0, Field.reduce 1, Field.reduce 2].length := by decide

theorem witness_PermutationRunsEveryRoundInOrder :
    tablesFor toyParams [Field.reduce 0, Field.reduce 1].length = some (toyTables 2) ∧ tablesFor toyParams [Field.reduce 0].length = none ∧
    tablesFor toyParams 9 = some (toyTables 9) ∧ tablesFor toyParams 10 = none := ⟨rfl, rfl, rfl, rfl⟩

theorem witness_PermCommandResult :
    (tablesFor toy.params (9 : Count).val = some (toyTables 9) ∧ ∀ k < 9, toy.regCanonical k) ∧
    (tablesFor toy.params (2 : Count).val = some (toyTables 2) ∧ ∀ k < 2, (toyWith [(2, p)] []).regCanonical k) :=
  ⟨⟨rfl, by unfold State.regCanonical; decide +kernel⟩, rfl, by unfold State.regCanonical; decide +kernel⟩

theorem witness_HashIsSlotZeroOfThePermutation :
    tablesFor toyParams ([Field.reduce 1, Field.reduce 2].length + 1) = some (toyTables 3) ∧ tablesFor narrowParams ([Field.reduce 1].length + 1) = none ∧
    ([] : List Fe).length = 0 ∧ 9 ≤ (List.replicate 9 (Field.reduce 1)).length := ⟨rfl, rfl, rfl, by decide⟩

theorem witness_HashCommandResult :
    (8 : Reg).val + (8 : Count).val ≤ 16 ∧ tablesFor toy.params ((8 : Count).val + 1) = some (toyTables 9) ∧ ∀ j < 8, toy.regCanonical ((8 : Reg).val + j) :=
  ⟨by decide, rfl, by unfold State.regCanonical; decide +kernel⟩

theorem witness_CipherInitialStateValue : 2 ^ 32 - 1 < 2 ^ 32 := by decide

/-- The checks of a command that pass, as the statements write them. -/
theorem oks {i : Instr} {s : State} (h : ∀ c ∈ checksOf s i, c.1 = true) :
    widthOk s i ∧ depthOk s i ∧ capacityOk s i ∧ regionsOk s i ∧ operandsOk s i := checks_pass_iff.mp h

theorem encState_checks : ∀ c ∈ checksOf encState (.cenc 4 6), c.1 = true := by decide +kernel

/-- A message of no words, the tag in the last word of `DMEM`. -/
def emptyEncState : State := { encState with len := 0, dst := 63, src := 0xFFFFFFFF }

theorem witness_EncryptCommandResult :
    ((4 : Reg) ≠ 15 ∧ tablesFor encState.params 5 = some (toyTables 5) ∧ regionsOk encState (.cenc 4 6) ∧ operandsOk encState (.cenc 4 6)) ∧
    regionsOk emptyEncState (.cenc 4 6) ∧ operandsOk emptyEncState (.cenc 4 6) :=
  ⟨⟨by decide, rfl, (oks encState_checks).2.2.2⟩, (oks (by decide +kernel)).2.2.2⟩

theorem witness_DecryptCommandResult :
    (4 : Reg) ≠ 15 ∧ tablesFor decState.params 5 = some (toyTables 5) ∧ regionsOk decState (.cdec 7 4 6) ∧ operandsOk decState (.cdec 7 4 6) :=
  ⟨by decide, rfl, (oks (by decide +kernel)).2.2.2⟩

theorem witness_CheckCommandResult :
    (14 : Reg) ≠ 15 ∧ tablesFor (tagState 7).params 5 = some (toyTables 5) ∧ regionsOk (tagState 7) (.cchk 14 15) ∧
      operandsOk (tagState 7) (.cchk 14 15) := ⟨by decide, rfl, (oks (by decide +kernel)).2.2.2⟩

/-- A ciphertext of one word, and the boundary, the tag alone. -/
theorem witness_DecryptionFollowsTheSchedule :
    ((ciphertext.map fun c => Field.reduce c.2).length = 3 * ((1 + 2) / 3) + 1 ∧ 0 < (1 + 2) / 3 ∧ 3 * 0 + 0 < 1) ∧
    [Field.reduce 7].length = 3 * ((0 + 2) / 3) + 1 := by decide

theorem witness_TamperedMessageFailsCheck :
    [Field.reduce 1, Field.reduce 8].length = [Field.reduce 1, Field.reduce 7].length ∧
      [Field.reduce 1, Field.reduce 8] ≠ [Field.reduce 1, Field.reduce 7] := by decide +kernel

theorem witness_EncryptThenDecryptCommands :
    ∃ t, exec (.cenc 4 6) encState = .next t ∧ t.cause = none ∧ regionFits encState.params ((63 : Word).toNat, encState.len.toNat) :=
  ⟨_, exec_of_ok (ruleOf_of_checks rfl encState_checks), rfl, .inr (by decide +kernel)⟩

theorem witness_LayersFollowThePairingRule :
    1 < (layer default 0 [Field.reduce 1, Field.reduce 2, Field.reduce 3] (0 + 1)).length ∧ tablesFor toyParams 3 = some (toyTables 3) :=
  ⟨by simp [layer], rfl⟩

theorem witness_PathReplayReconstructsRoot :
    ([Field.reduce 4, Field.reduce 9].length ≤ 2 ^ 1 ∧ Field.reduce 9 ∈ [Field.reduce 4, Field.reduce 9]) ∧
    [Field.reduce 4].length ≤ 2 ^ 0 ∧ Field.reduce 4 ∈ [Field.reduce 4] := by decide +kernel

theorem witness_SubtreeDependsOnItsOwnLeaves : ∀ j, 0 * 2 ^ 1 ≤ j → j < (0 + 1) * 2 ^ 1 →
    [Field.reduce 1, Field.reduce 2, Field.reduce 3][j]? = [Field.reduce 1, Field.reduce 2, Field.reduce 4][j]? := by
  intro j _ h
  match j, h with
  | 0, _ => rfl
  | 1, _ => rfl

theorem leafState_oks : widthOk leafState .mbuild ∧ depthOk leafState .mbuild ∧ capacityOk leafState .mbuild ∧ regionsOk leafState .mbuild ∧
    operandsOk leafState .mbuild := oks (by decide +kernel)

/-- One leaf in the last word of `DMEM`, a tree of depth 0. -/
def oneLeafState : State := { toyWith [] [(63, 77)] with src := 63, len := 1 }

theorem witness_BuildAndRootCommandResults :
    (widthOk leafState .mbuild ∧ depthOk leafState .mbuild ∧ capacityOk leafState .mbuild ∧ regionsOk leafState .mbuild ∧
      operandsOk leafState .mbuild) ∧
    (widthOk oneLeafState .mbuild ∧ depthOk oneLeafState .mbuild ∧ capacityOk oneLeafState .mbuild ∧ regionsOk oneLeafState .mbuild ∧
      operandsOk oneLeafState .mbuild) ∧
    tablesFor toy.params 3 = some (toyTables 3) := ⟨leafState_oks, oks (by decide +kernel), rfl⟩

theorem treeState_checks : ∀ c ∈ checksOf treeState (.mpath 2), c.1 = true := by decide +kernel

theorem witness_PathCommandResult :
    (tablesFor treeState.params 3 = some (toyTables 3) ∧ regionsOk treeState (.mpath 2) ∧ (treeState.reg 2).toNat < p ∧
      treeState.tree.leaves[2]? = some (treeState.regElem 2) ∧ ∀ j < 2, treeState.tree.leaves[j]? ≠ some (treeState.regElem 2)) ∧
    ((treeState.reg 3).toNat < p ∧ treeState.regElem 3 ∉ treeState.tree.leaves) :=
  ⟨⟨rfl, (oks treeState_checks).2.2.2.1, by decide +kernel, by decide +kernel, by decide +kernel⟩, by decide +kernel⟩

theorem witness_FoldCommandResult :
    tablesFor foldState.params 3 = some (toyTables 3) ∧ depthOk foldState (.mfold 3 2) ∧ regionsOk foldState (.mfold 3 2) ∧
      operandsOk foldState (.mfold 3 2) :=
  have h := oks (i := .mfold 3 2) (s := foldState) (by decide +kernel)
  ⟨rfl, h.2.1, h.2.2.2⟩

theorem witness_EmptyTreeRootIsTheDefault :
    let s : State := { toy with levels := 32, src := 0xFFFFFFFF }
    tablesFor s.params 3 = some (toyTables 3) ∧ s.levels.toNat ≤ maxLevelsOf s.params ∧ s.len = 0 := ⟨rfl, by decide +kernel, rfl⟩

theorem treeState_found : ∃ t, exec (.mpath 2) treeState = .next t ∧ t.cause = none := by
  have hf : findLeaf (treeState.regElem 2) treeState.tree.leaves = some 2 := by decide +kernel
  have h := ruleOf_of_checks (i := .mpath 2) rfl treeState_checks
  simp only [outcomeOf] at h
  rw [show ((2 : Reg)).val = 2 from rfl, hf] at h
  exact ⟨_, exec_of_ok h, rfl⟩

theorem treeState_inv : treeState.Inv where
  busyDone     := by decide +kernel
  errIsCause   := by decide +kernel
  fatalIsCause := by decide +kernel
  einfoZero    := by decide +kernel
  stickyBits k h := by
    have h0 : treeState.esticky = 0 := by decide +kernel
    rw [h0] at h
    simp at h
  stickyCause c h := by
    have h0 : treeState.cause = none := by decide +kernel
    rw [h0] at h
    cases h
  dmemForm     := by decide +kernel
  dmemRange    := by decide +kernel
  treeDepth    := by decide +kernel
  treeCapacity := by decide +kernel
  treeCount    := by decide +kernel

theorem witness_PathThenFoldCommandsGiveTheRoot : treeState.Inv ∧ ∃ t, exec (.mpath 2) treeState = .next t ∧ t.cause = none :=
  ⟨treeState_inv, treeState_found⟩

theorem witness_LoadAndStoreCommandResults :
    (let s : State := { toy with src := 60 }; s.src.toNat + (3 : Offset).val < dmemWords s.params) ∧
    (let s : State := { toy with dst := 63 }; s.dst.toNat + (0 : Offset).val < dmemWords s.params) := by decide +kernel

/-- The TOY machine with tables of no width. -/
def bareState : State := { toy with params := { toyParams with tables := #v[none, none, none, none, none, none, none, none] } }

theorem witness_UnsupportedWidthIsReportedFirst :
    ((Instr.perm 10).wellFormed = true ∧ widthOf (.perm 10) = some 10 ∧ tablesFor toy.params 10 = none) ∧
    ((Instr.hash 0 1 0).wellFormed = true ∧ widthOf (.hash 0 1 0) = some 1 ∧ tablesFor toy.params 1 = none) ∧
    (widthOf (.cchk 4 6) = some 5 ∧ widthOf .mbuild = some 3 ∧ tablesFor bareState.params 5 = none ∧ tablesFor bareState.params 3 = none) :=
  ⟨⟨rfl, rfl, rfl⟩, ⟨rfl, rfl, rfl⟩, rfl, rfl, rfl, rfl⟩

theorem witness_DepthAndCapacityErrors :
    (let s : State := { toy with levels := 33 };
      widthOk s .mbuild ∧ (∀ rd ra, widthOk s (.mfold rd ra)) ∧ maxLevelsOf s.params < s.levels.toNat) ∧
    let s : State := { toy with levels := 2, len := 5 }
    widthOk s .mbuild ∧ s.levels.toNat ≤ maxLevelsOf s.params ∧ 2 ^ s.levels.toNat < s.len.toNat := by
  have h3 : tablesFor toyParams 3 ≠ none := by
    rw [show tablesFor toyParams 3 = some (toyTables 3) from rfl]
    exact Option.some_ne_none _
  have hw : ∀ (s : State) (i : Instr), s.params = toyParams → widthOf i = some 3 → widthOk s i := by
    intro s i hp hi t ht
    rw [hi] at ht
    cases ht
    rw [hp]
    exact h3
  exact ⟨⟨hw _ _ rfl rfl, fun _ _ => hw _ _ rfl rfl, by decide +kernel⟩, hw _ _ rfl rfl, by decide +kernel, by decide +kernel⟩

/-- `CENC` whose second region passes the end by one word. -/
def farState : State := { encState with dst := 61 }

theorem farState_ok : (Instr.cenc 4 6).wellFormed = true ∧ widthOk farState (.cenc 4 6) ∧ depthOk farState (.cenc 4 6) ∧
    capacityOk farState (.cenc 4 6) := by
  have h := oks encState_checks
  exact ⟨rfl, h.1, h.2.1, h.2.2.1⟩

theorem witness_AddressRangeErrors :
    ((Instr.cenc 4 6).wellFormed = true ∧ widthOk farState (.cenc 4 6) ∧ depthOk farState (.cenc 4 6) ∧ capacityOk farState (.cenc 4 6)) ∧
    (regionsOf farState (.cenc 4 6) = [(0, 1)] ++ (61, 4) :: [] ∧ (∀ r ∈ [(0, 1)], r.2 = 0 ∨ r.1 + r.2 ≤ dmemWords farState.params) ∧
      0 < 4 ∧ dmemWords farState.params < 61 + 4) ∧
    ((∀ r ∈ regionsOf encState (.cenc 4 6), r.2 = 0 ∨ r.1 + r.2 ≤ dmemWords encState.params) ∧ ∃ t, exec (.cenc 4 6) encState = .next t) :=
  ⟨farState_ok, by decide +kernel, by decide +kernel, _, exec_of_ok (ruleOf_of_checks rfl encState_checks)⟩

/-- `CENC` whose second key element and whose message word are no FieldElements. -/
def rawState : State := { toyWith [(4, 13), (5, p), (6, 42)] [(0, p)] with len := 1, dst := 16 }

/-- `CENC` whose message word alone is none. -/
def rawWordState : State := rawState.setReg 5 37

theorem rawState_ok (s : State) (hs : s = rawState ∨ s = rawWordState) :
    widthOk s (.cenc 4 6) ∧ depthOk s (.cenc 4 6) ∧ capacityOk s (.cenc 4 6) ∧ regionsOk s (.cenc 4 6) := by
  have h := oks encState_checks
  rcases hs with rfl | rfl <;> exact ⟨h.1, h.2.1, h.2.2.1, h.2.2.2.1⟩

theorem witness_NonCanonicalOperandsReportedInOrder :
    ((Instr.cenc 4 6).wellFormed = true ∧ widthOk rawState (.cenc 4 6) ∧ depthOk rawState (.cenc 4 6) ∧ capacityOk rawState (.cenc 4 6) ∧
      regionsOk rawState (.cenc 4 6)) ∧
    (operandRegs (.cenc 4 6) = [4] ++ 5 :: [6] ∧ (∀ j ∈ [4], rawState.regCanonical j) ∧ ¬rawState.regCanonical 5) ∧
    ((widthOk rawWordState (.cenc 4 6) ∧ depthOk rawWordState (.cenc 4 6) ∧ capacityOk rawWordState (.cenc 4 6) ∧
      regionsOk rawWordState (.cenc 4 6)) ∧ (∀ j ∈ operandRegs (.cenc 4 6), rawWordState.regCanonical j) ∧
      operandWords rawWordState (.cenc 4 6) = [] ++ 0 :: [] ∧ ¬rawWordState.wordCanonical 0) := by
  refine ⟨⟨rfl, rawState_ok _ (.inl rfl)⟩, ⟨rfl, ?_, ?_⟩, rawState_ok _ (.inr rfl), ?_, by decide +kernel, ?_⟩ <;>
    simp only [State.regCanonical, State.wordCanonical] <;> decide +kernel

theorem witness_CommandSucceedsExactlyWhenChecksPass : (Instr.hash 0 8 8).wellFormed = true := rfl

/-- A command that raises an error: `PERM 10`. -/
theorem perm10_fails : exec (.perm 10) toy = .next (toy.failedWith .unsupportedWidth 10) := exec_of_error (i := .perm 10) (s := toy) rfl

theorem witness_ErrorsArePrecise : ∃ t, exec (.perm 10) toy = .next t ∧ t.cause = some .unsupportedWidth := ⟨_, perm10_fails, rfl⟩

theorem witness_CausesPerCommand :
    (∃ t, exec (.perm 10) toy = .next t ∧ t.cause = some .unsupportedWidth) ∧ (Instr.perm 10).wellFormed = true := ⟨⟨_, perm10_fails, rfl⟩, rfl⟩

/-- A command that succeeds: `FNORM x7, x7` with `x7 = p + 5`. -/
theorem fnorm_changes : ∃ t, exec (.fnorm 7 7) (toyWith [(7, p + 5)] []) = .next t ∧ t.reg 7 ≠ (toyWith [(7, p + 5)] []).reg 7 := by
  refine ⟨after (.fnorm 7 7) (toyWith [(7, p + 5)] []), rfl, ?_⟩
  decide +kernel

theorem treeState_mbuild_changes : ∃ t, exec .mbuild leafState = .next t ∧ t.tree ≠ leafState.tree :=
  ⟨_, exec_of_ok (ruleOf_of_checks rfl (checks_pass_iff.mpr leafState_oks)), by decide +kernel⟩

theorem treeState_mpath_changes : ∃ t, exec (.mpath 2) treeState = .next t ∧ t.idx ≠ treeState.idx := by
  have hf : findLeaf (treeState.regElem 2) treeState.tree.leaves = some 2 := by decide +kernel
  have h := ruleOf_of_checks (i := .mpath 2) rfl treeState_checks
  simp only [outcomeOf] at h
  rw [show ((2 : Reg)).val = 2 from rfl, hf] at h
  refine ⟨_, exec_of_ok h, ?_⟩
  show BitVec.ofNat 32 2 ≠ treeState.idx
  decide +kernel

theorem witness_CommandsWriteOnlyTheirOutputs :
    (∃ t, exec (.fnorm 7 7) (toyWith [(7, p + 5)] []) = .next t ∧ t.reg 7 ≠ (toyWith [(7, p + 5)] []).reg 7) ∧
    (∃ t, exec .mbuild leafState = .next t ∧ t.tree ≠ leafState.tree) ∧ (∃ t, exec (.mpath 2) treeState = .next t ∧ t.idx ≠ treeState.idx) ∧
    ∃ t, exec (.cchk 4 6) (tagState 7) = .next t ∧ t.status.eq ≠ (tagState 7).status.eq := by
  refine ⟨fnorm_changes, treeState_mbuild_changes, treeState_mpath_changes, _,
    exec_of_ok (ruleOf_of_checks (i := .cchk 4 6) rfl (by decide +kernel)), ?_⟩
  decide +kernel

theorem witness_MemoryOutsideTheWriteRegionIsUnchanged :
    (∃ t, exec (.cenc 4 6) encState = .next t) ∧ (15 < (writeRegionOf encState (.cenc 4 6)).1) ∧
    ((writeRegionOf encState (.cenc 4 6)).1 + (writeRegionOf encState (.cenc 4 6)).2 ≤ 20) ∧
    (∃ t, exec (.fnorm 7 7) (toyWith [(7, p + 5)] []) = .next t ∧ t.reg 7 ≠ (toyWith [(7, p + 5)] []).reg 7) ∧
    ∀ rd off, Instr.fnorm 7 7 ≠ .fld rd off :=
  ⟨⟨_, exec_of_ok (ruleOf_of_checks rfl encState_checks)⟩, by decide +kernel, by decide +kernel, fnorm_changes, fun _ _ h => by cases h⟩

theorem witness_InvariantKeptByEveryStep : treeState.Inv ∧ ∃ t, step treeState = .next t := ⟨treeState_inv, _, rfl⟩

theorem witness_ParametersNeverChange : ∃ t, step { toy with inbox := [.request (.writeCsr .dmemsz 5)] } = .next t := ⟨_, rfl⟩

theorem witness_StepsNeverRefuseAndRarelyFault :
    step { toy with inbox := [.barge (.readMem 64)] } = .fault (.noSuchWord 64) := rfl

theorem witness_EveryRunEnds :
    let s : State := { toy.accept 0x41100000 with inbox := [.request (.readMem 63), .barge (.writeX 0 5), .reset] }
    s.hostInRange ∧ s.inbox.length = 3 := by
  refine ⟨fun e he t ht => ?_, rfl⟩
  have h63 : outside toyParams (.readMem 63) = none := by decide +kernel
  simp only [List.mem_cons, List.not_mem_nil, or_false] at he
  rcases he with rfl | rfl | rfl <;> rcases ht with h | h <;> cases h
  · exact h63
  · rfl

theorem witness_StickyBitsStayUntilReset :
    let s : State := { toy.accept 0x41100000 with esticky := 0x1E6, inbox := [.barge (.writeX 1 7)] }
    (∃ t, step s = .next t) ∧ (∀ rest, s.inbox ≠ .reset :: rest) ∧ s.esticky.getLsbD 8 = true :=
  ⟨⟨_, rfl⟩, fun _ h => (by cases h), by decide⟩

theorem witness_BusyCoreIgnoresTheHost :
    (toy.accept 0x41100000).status.busy = true ∧ outside toyParams (.writeMem 63 5) = none ∧ (writeData (.writeMem 63 5)).isSome = true ∧
      (outside toyParams (.readPort 2) = none ∧ targetOf toyParams (.readPort 2) = .csr .status ∧ writeData (.readPort 2) = none) ∧
      outside toyParams (.readCsr .status) = none ∧ outside toyParams (.readX 1) = none ∧ writeData (.readX 1) = none := by decide +kernel

theorem witness_RunningCommandIsNotDisturbed :
    let s : State := { toy.accept 0x41100000 with inbox := [.barge (.writeCsr .src 9), .request (.readX 1)] }
    s.status.busy = true ∧ outside s.params (.writeCsr .src 9) = none ∧ s.inbox = .barge (.writeCsr .src 9) :: [.request (.readX 1)] ∧
      decode s.cmd = .ok (.mroot 1) := ⟨rfl, rfl, rfl, by decide⟩

theorem witness_CsrAccessRules :
    treeState.Inv ∧ toy.cause = none ∧ (toy.fail ⟨.badArgument, 0⟩).cause = some .badArgument ∧ toy.status.busy = false ∧ Csr.idx ∈ ([.src, .dst, .aux, .len, .levels, .idx] : List Csr) ∧
      Csr.esticky ∈ ([.id, .status, .cause, .einfo, .esticky, .tlevels, .tleaves, .dmemsz, .widths] : List Csr) ∧ Csr.src ≠ .idx :=
  ⟨treeState_inv, rfl, rfl, by decide⟩

theorem witness_HostPortMap :
    toy.status.busy = false ∧ (0x0F : Word).toNat = 15 ∧ (0x00 : Word).toNat = 0 ∧ (0x1F : Word).toNat = 0x10 + (15 : Reg).val ∧
      (63 < dmemWords toy.params ∧ (0x8000003F : Word).toNat = 0x80000000 + 63) ∧
      (0x20 ≤ (0x7FFFFFFF : Word).toNat ∧ (0x7FFFFFFF : Word).toNat < 0x80000000) ∧ (0x20 : Word).toNat = 0x20 ∧
      0x80000000 + dmemWords toy.params ≤ (0x80000040 : Word).toNat := by decide +kernel

end Sys2Proof.Tests
end

/-! Proofs about 10_state: reset, acceptance, the turns of core and host, the CSRs, and what every step keeps. -/

namespace Sys2Proof.Machine

/-! ## Whose turn it is (R45, R47, R61, R260, R269) -/

theorem step_of_coreTurn {s : State} (h : s.coreTurn) : step s = runCommand s := by rw [step, nextTurn_core h]

theorem step_of_transaction {s : State} {t : Transaction} {rest : List HostEvent}
    (h : (s.inbox = .request t :: rest ∧ s.status.busy = false) ∨ s.inbox = .barge t :: rest) :
    step s = perform { s with inbox := rest } t := by
  rcases h with ⟨hi, hb⟩ | hi
  · simp [step, nextTurn, hi, hb, hostTurn]
  · simp [step, nextTurn, hi, hostTurn]

theorem step_of_reset {s : State} {rest : List HostEvent} (h : s.inbox = .reset :: rest) :
    step s = .next (State.afterReset { s with inbox := rest }) := by
  simp [step, nextTurn, h, resetTurn]

theorem step_of_quiet {s : State} (hi : s.inbox = []) (hb : s.status.busy = false) : step s = .next s := by
  simp [step, nextTurn, hi, hb]

theorem runCommand_of_decode {s : State} {i : Instr} (h : decode s.cmd = .ok i) : runCommand s = exec i s := by
  simp [runCommand, h]

/-! ## Transactions -/

theorem perform_of_idle {s : State} {t : Transaction} (hb : s.status.busy = false) (ho : outside s.params t = none) :
    perform s t = .next (performIdle s t) := by
  rw [perform_of_outside ho, hb, if_neg Bool.false_ne_true]

theorem perform_of_busy {s : State} {t : Transaction} (hb : s.status.busy = true) (ho : outside s.params t = none) :
    perform s t = .next (performBusy s t) := by
  rw [perform_of_outside ho, hb, if_pos rfl]

/-- A CSR value travels in data bits [31:0] (R63), so a host write arrives unchanged. -/
theorem perform_writeCsr_of_idle {s : State} (n : Csr) (v : Word) (hb : s.status.busy = false) :
    perform s (.writeCsr n v) = .next (s.writeCsr n v) := by
  have hv : (v.setWidth 256).setWidth 32 = v := by
    rw [BitVec.setWidth_setWidth_of_le _ (by decide), BitVec.setWidth_eq]
  rw [perform_of_idle hb rfl]
  simp only [performIdle, writeData, targetOf, State.writeTarget, hv]

theorem perform_readCsr_of_idle {s : State} (n : Csr) (hb : s.status.busy = false) :
    perform s (.readCsr n) = .next { s with replies := (s.csr n).setWidth 256 :: s.replies } := by
  rw [perform_of_idle hb rfl]
  rfl

/-- Port address 2 is `STATUS` whatever the size of `DMEM` (R63). -/
theorem portTarget_two (c : Params) : portTarget c 2 = .csr .status := rfl

theorem performBusy_readStatus {s : State} {t : Transaction} (ht : targetOf s.params t = .csr .status) (hw : writeData t = none) :
    performBusy s t = { s with replies := (statusWord s.status).setWidth 256 :: s.replies } := by
  simp only [performBusy, hw, ht, if_true]
  rfl

theorem performBusy_write {s : State} {t : Transaction} (hw : (writeData t).isSome = true) :
    performBusy s t = { s with esticky := s.esticky ||| BitVec.ofNat 32 (2 ^ 9) } := by
  rcases performBusy_cases s t with ⟨hn, -⟩ | ⟨-, h⟩
  · simp [hn] at hw
  · exact h

theorem performBusy_read {s : State} {t : Transaction} (hw : writeData t = none) :
    ∃ v k, performBusy s t = { s with replies := v :: s.replies, draws := k } := by
  rcases performBusy_cases s t with ⟨-, h⟩ | ⟨hs, -⟩
  · exact h
  · simp [hw] at hs

/-- Settles O2: the host's write of `CMD` is the acceptance of its word. -/
theorem acceptanceWritesCommandAndStatusOnly : Obligations.AcceptanceWritesCommandAndStatusOnly := by
  intro s w rest hb hi
  exact (step_of_transaction (hi.imp_left fun h => ⟨h, hb⟩)).trans (perform_writeCsr_of_idle .cmd w hb)

/-- Settles O3: the equation of `step` for each turn. -/
theorem stepCompletesTheAcceptedCommand : Obligations.StepCompletesTheAcceptedCommand := by
  refine ⟨fun s i hc hd => ?_, fun s w i hd => ?_, fun s t rest h => step_of_transaction h, fun s hi hb => step_of_quiet hi hb⟩
  · rw [step_of_coreTurn hc, runCommand_of_decode hd]
  · have hcmd : (s.withFetchWord 32 w.toNat).cmd = w := by
      rw [State.withFetchWord, State.present_cmd, Nat.mod_eq_of_lt w.isLt, BitVec.ofNat_toNat, BitVec.setWidth_eq]
    refine ⟨hcmd, ?_⟩
    rw [step_of_coreTurn ⟨rfl, .inl rfl⟩, runCommand_of_decode (hcmd.symm ▸ hd)]

/-- Settles O56, by the two things a busy core does with a transaction. -/
theorem busyCoreIgnoresTheHost : Obligations.BusyCoreIgnoresTheHost := by
  intro s t hb ho
  rw [perform_of_busy hb ho]
  refine ⟨fun hw => congrArg _ (performBusy_write hw), fun h => congrArg _ ?_, fun hw => ?_⟩
  · rcases h with rfl | rfl | ⟨ht, hw⟩
    · exact performBusy_readStatus rfl rfl
    · exact performBusy_readStatus (portTarget_two s.params) rfl
    · exact performBusy_readStatus ht hw
  · obtain ⟨v, k, h⟩ := performBusy_read hw
    exact ⟨v, k, congrArg _ h⟩

/-! ## Reset (R40, R260, R261) -/

/-- A sum of distinct powers of two is the number with these bits. -/
theorem sum_bits_eq_ofBits (f : Nat → Bool) (n : Nat) :
    ((List.range n).map fun k => if f k then 2 ^ k else 0).sum = Nat.ofBits fun k : Fin n => f k := by
  induction n generalizing f with
  | zero => rfl
  | succ n ih =>
    have hdouble : (fun k => if f k then 2 ^ k else 0) ∘ Nat.succ = fun k => 2 * if f (k + 1) then 2 ^ k else 0 := by
      funext k
      by_cases h : f (k + 1) = true <;> simp [h, Nat.pow_succ']
    have hzero : (if f 0 then 2 ^ 0 else 0) = (f 0).toNat := by cases f 0 <;> rfl
    rw [List.range_succ_eq_map, List.map_cons, List.sum_cons, List.map_map, hdouble, hzero, List.sum_map_mul_left, ih, Nat.ofBits_succ,
      Nat.add_comm]
    rfl

/-- Every width with tables is one of the slots 2 to 9 (R5). -/
theorem inWset_lt {c : Params} {t : Nat} (h : inWset c t = true) : t < 10 := by
  by_contra hn
  have hl : c.tables.toList[t - 2]? = none := by
    rw [List.getElem?_eq_none_iff, Vector.length_toList]
    omega
  simp [inWset, tablesFor, hl] at h

/-- `WIDTHS` shows `WSET` bit by bit (R38). -/
theorem getLsbD_widthsWord (c : Params) {t : Nat} (ht : t < 32) : (widthsWord c).getLsbD t = inWset c t := by
  rw [widthsWord, BitVec.getLsbD_ofNat, decide_eq_true ht, Bool.true_and, sum_bits_eq_ofBits, Nat.testBit_ofBits]
  split
  · rfl
  · rename_i hn
    exact (Bool.eq_false_iff.mpr (mt inWset_lt hn)).symm

/-- Settles O1: the reset state field by field, and the reset's turn. -/
theorem resetLeavesTheSpecifiedState : Obligations.ResetLeavesTheSpecifiedState := by
  refine ⟨fun c => ⟨fun i => ?_, rfl, ?_, rfl, fun t ht => getLsbD_widthsWord c ht, rfl, fun a => rfl⟩, rfl,
    fun s rest h => step_of_reset h⟩
  · simp [State.reg]
  · simp [State.csr, statusWord, bitIf, causeWord]

/-! ## What a step can leave -/

/-- The states a step can lead to from `s`, one constructor per kind of step (R45 to R48, R260). -/
inductive StepResult (s : State) : State → Prop where
  /-- The accepted command completed without error (R47). -/
  | succeeded (i : Instr) (s' : State) (hr : ruleOf i s = .ok s') :
      StepResult s (s.succeededWith s'.x s'.dmem s'.idx s'.tree s'.status.eq)
  /-- The accepted word completed with an error (R224, R230). -/
  | failed (c : Cause) (info : Word) : StepResult s (s.failedWith c info)
  /-- A read by the host, of an idle or of a busy core (R48, R61). -/
  | replied (rest : List HostEvent) (v : Container) (k : Nat) : StepResult s { s with inbox := rest, replies := v :: s.replies, draws := k }
  /-- A write the busy core ignored (R48, R234). -/
  | writeLost (rest : List HostEvent) : StepResult s { s with inbox := rest, esticky := s.esticky ||| BitVec.ofNat 32 (2 ^ 9) }
  /-- Acceptance (R46). -/
  | accepted (rest : List HostEvent) (w : Word) : StepResult s { s with inbox := rest, cmd := w, status := statusAccepted s.status }
  /-- A write of a register (R61). -/
  | regWritten (rest : List HostEvent) (i : Reg) (v : Container) : StepResult s { s with inbox := rest, x := s.x.set i.val v }
  /-- A write of a word that exists (R61, R62). -/
  | wordWritten (rest : List HostEvent) (a : Nat) (v : Container) (ha : a < dmemWords s.params) :
      StepResult s { s with inbox := rest, dmem := Memory.writeAll s.dmem a [v] }
  /-- A write of an operand CSR, or one that is ignored (R31 to R34, R39). -/
  | csrsWritten (rest : List HostEvent) (a b c d e f : Word) :
      StepResult s { s with inbox := rest, src := a, dst := b, aux := c, len := d, levels := e, idx := f }
  /-- The reset input (R260). -/
  | reset (rest : List HostEvent) (hi : s.inbox = .reset :: rest) : StepResult s (State.afterReset { s with inbox := rest })
  /-- Nothing to do (R269). -/
  | idle : StepResult s s

theorem runCommand_result {s t : State} (h : runCommand s = .next t) : StepResult s t := by
  rcases runCommand_cases s with ⟨i, s', -, hr, he⟩ | ⟨c, info, he⟩ <;> rw [he] at h <;> cases h
  · exact .succeeded i s' hr
  · exact .failed c info

theorem perform_result {s t : State} {rest : List HostEvent} {tr : Transaction} (h : perform { s with inbox := rest } tr = .next t) :
    StepResult s t := by
  obtain ⟨ho, rfl⟩ := perform_next h
  split
  · rcases performBusy_cases { s with inbox := rest } tr with ⟨-, v, k, e⟩ | ⟨-, e⟩ <;> rw [e]
    · exact .replied rest v k
    · exact .writeLost rest
  · rcases performIdle_cases { s with inbox := rest } tr with
      ⟨v, e⟩ | ⟨w, e⟩ | ⟨i, v, e⟩ | ⟨a, v, e, ha⟩ | ⟨a, b, c, d, l, i, e⟩ <;> rw [e]
    · exact .replied rest v s.draws
    · exact .accepted rest w
    · exact .regWritten rest i v
    · exact .wordWritten rest a v (outside_none_mem ho ha)
    · exact .csrsWritten rest a b c d l i

/-- Everything a step that answers a next state can lead to. -/
theorem step_result {s t : State} (h : step s = .next t) : StepResult s t := by
  rcases step_cases s with ⟨-, hs⟩ | ⟨tr, rest, -, hs⟩ | ⟨rest, hi, hs⟩ | ⟨-, -, hs⟩ <;> rw [hs] at h
  · exact runCommand_result h
  · exact perform_result h
  · cases h
    exact .reset rest hi
  · cases h
    exact .idle

theorem step_params {s t : State} (h : step s = .next t) : t.params = s.params := by
  cases step_result h <;> rfl

/-- Settles O52: the three constant CSRs are a constant and two views of the parameters, which no step changes. -/
theorem parametersNeverChange : Obligations.ParametersNeverChange := by
  intro s t h
  have hp := step_params h
  exact ⟨hp, rfl, congrArg dmemszWord hp, congrArg widthsWord hp⟩

theorem getLsbD_or_of_left {e m : Word} {k : Nat} (h : e.getLsbD k = true) : (e ||| m).getLsbD k = true := by
  rw [BitVec.getLsbD_or, h, Bool.true_or]

/-- Settles O55: a step but a reset leaves `ESTICKY` as it was or sets a bit in it. -/
theorem stickyBitsStayUntilReset : Obligations.StickyBitsStayUntilReset := by
  intro s t k h hreset hk
  cases step_result h with
  | failed c info => exact getLsbD_or_of_left hk
  | writeLost rest => exact getLsbD_or_of_left hk
  | reset rest hi => exact absurd hi (hreset rest)
  | _ => exact hk

/-! ## The invariant, part by part -/

/-- The part of the invariant that speaks of the status and error registers (R27 to R30). -/
structure ErrorRegsOk (f : Status) (cause : Option Cause) (einfo esticky : Word) : Prop where
  busyDone     : ¬(f.busy = true ∧ f.done = true)
  errIsCause   : f.err = cause.isSome
  fatalIsCause : f.fatal = decide (cause ≠ none ∧ cause ≠ some .notFound)
  einfoZero    : cause = none → einfo = 0
  stickyBits   : ∀ k, esticky.getLsbD k = true → 1 ≤ k ∧ k ≤ 9
  stickyCause  : ∀ c, cause = some c → esticky.getLsbD (causeCode c) = true

/-- The part that speaks of the memory (R62). -/
structure MemoryOk (c : Params) (m : Memory) : Prop where
  form  : Memory.wf m
  range : ∀ cell ∈ m, cell.1 < dmemWords c

/-- The part that speaks of the tree store (R35, R36, R43). -/
structure TreeOk (c : Params) (t : Tree) : Prop where
  depth    : t.levels ≤ maxLevelsOf c
  capacity : t.leaves.length ≤ 2 ^ t.levels
  count    : t.leaves.length < 2 ^ 32

theorem State.inv_iff {s : State} :
    s.Inv ↔ ErrorRegsOk s.status s.cause s.einfo s.esticky ∧ MemoryOk s.params s.dmem ∧ TreeOk s.params s.tree :=
  ⟨fun h => ⟨⟨h.busyDone, h.errIsCause, h.fatalIsCause, h.einfoZero, h.stickyBits, h.stickyCause⟩, ⟨h.dmemForm, h.dmemRange⟩,
      ⟨h.treeDepth, h.treeCapacity, h.treeCount⟩⟩,
    fun ⟨he, hm, ht⟩ => ⟨he.busyDone, he.errIsCause, he.fatalIsCause, he.einfoZero, he.stickyBits, he.stickyCause, hm.form, hm.range,
      ht.depth, ht.capacity, ht.count⟩⟩

/-! The status and error registers. -/

theorem ErrorRegsOk.reset : ErrorRegsOk ⟨false, false, false, false, false⟩ none 0 0 where
  busyDone h := Bool.false_ne_true h.1
  errIsCause := rfl
  fatalIsCause := rfl
  einfoZero _ := rfl
  stickyBits k h := by simp at h
  stickyCause c h := by cases h

section
variable {f : Status} {cause : Option Cause} {einfo esticky : Word}

theorem ErrorRegsOk.accept (h : ErrorRegsOk f cause einfo esticky) : ErrorRegsOk (statusAccepted f) cause einfo esticky :=
  { h with busyDone := fun hb => Bool.false_ne_true hb.2 }

/-- A bit in range may be set. -/
theorem stickyBits_or (h : ∀ k, esticky.getLsbD k = true → 1 ≤ k ∧ k ≤ 9) {n : Nat} (hn : 1 ≤ n ∧ n ≤ 9) :
    ∀ k, (esticky ||| BitVec.ofNat 32 (2 ^ n)).getLsbD k = true → 1 ≤ k ∧ k ≤ 9 := by
  intro k hk
  rw [getLsbD_orBit _ _ _ (by omega), Bool.or_eq_true, decide_eq_true_eq] at hk
  rcases hk with hk | rfl
  · exact h k hk
  · exact hn

theorem ErrorRegsOk.busyAccess (h : ErrorRegsOk f cause einfo esticky) :
    ErrorRegsOk f cause einfo (esticky ||| BitVec.ofNat 32 (2 ^ 9)) :=
  { h with
    stickyBits := stickyBits_or h.stickyBits (by decide)
    stickyCause := fun c hc => getLsbD_or_of_left (h.stickyCause c hc) }

theorem ErrorRegsOk.succeed (h : ErrorRegsOk f cause einfo esticky) (eq : Bool) :
    ErrorRegsOk ⟨false, true, false, false, eq⟩ none 0 esticky where
  busyDone hb := Bool.false_ne_true hb.1
  errIsCause := rfl
  fatalIsCause := rfl
  einfoZero _ := rfl
  stickyBits := h.stickyBits
  stickyCause c hc := by cases hc

theorem ErrorRegsOk.fail (h : ErrorRegsOk f cause einfo esticky) (c : Cause) (info : Word) (eq : Bool) :
    ErrorRegsOk ⟨false, true, true, decide (c ≠ .notFound), eq⟩ (some c) info (esticky ||| BitVec.ofNat 32 (2 ^ causeCode c)) where
  busyDone hb := Bool.false_ne_true hb.1
  errIsCause := rfl
  fatalIsCause := by simp
  einfoZero hc := by cases hc
  stickyBits := by
    have hc := causeCode_range c
    exact stickyBits_or h.stickyBits ⟨hc.1, by omega⟩
  stickyCause d hd := by
    obtain rfl := Option.some.inj hd
    have hc := causeCode_range c
    rw [getLsbD_orBit _ _ _ (by omega), decide_eq_true rfl, Bool.or_true]

end

/-! The memory. -/

theorem MemoryOk.empty (c : Params) : MemoryOk c [] := ⟨List.Pairwise.nil, fun _ h => nomatch h⟩

theorem MemoryOk.writeAll {c : Params} {m : Memory} {a : Nat} {vs : List Container} (h : MemoryOk c m)
    (hf : regionFits c (a, vs.length)) : MemoryOk c (Memory.writeAll m a vs) := by
  refine ⟨Memory.writeAll_wf m a vs h.form, fun cell hc => ?_⟩
  rcases Memory.mem_writeAll hc with ⟨hlo, hhi⟩ | hm
  · rcases hf with hf | hf <;> dsimp only at hf <;> omega
  · exact h.range cell hm

/-- The region a command writes is empty or among those it checks (R67). -/
theorem writeRegionOf_fits {s : State} {i : Instr} (h : regionsOk s i) : regionFits s.params (writeRegionOf s i) := by
  cases i with
  | cenc | cdec | mpath | fst => exact h _ (by simp [regionsOf, writeRegionOf])
  | _ => exact .inl rfl

theorem MemoryOk.outcome {s s' : State} {i : Instr} (h : MemoryOk s.params s.dmem) (hr : regionsOk s i) (ho : outcomeOf s i = .ok s') :
    MemoryOk s.params s'.dmem := by
  obtain ⟨vs, hd, hl⟩ := outcomeOf_dmem ho
  rw [hd]
  refine h.writeAll ?_
  rw [hl]
  exact writeRegionOf_fits hr

/-! The tree. -/

theorem TreeOk.empty (c : Params) : TreeOk c { levels := 0, leaves := [] } := ⟨Nat.zero_le _, Nat.zero_le _, by decide⟩

theorem length_elems (s : State) (base n : Nat) : (s.elems base n).length = n := by simp [State.elems]

/-- `MBUILD` takes `LEN` leaves, checked against `2^LEVELS`, and a depth checked against `MAX_LEVELS` (R190). -/
theorem TreeOk.outcome {s s' : State} {i : Instr} (h : TreeOk s.params s.tree) (hd : depthOk s i) (hc : capacityOk s i)
    (ho : outcomeOf s i = .ok s') : TreeOk s.params s'.tree := by
  rcases outcomeOf_tree ho with ht | ⟨hi, ht⟩ <;> rw [ht]
  · exact h
  · refine ⟨hd (.inl hi), ?_, ?_⟩
    · rw [length_elems]
      exact hc hi
    · rw [length_elems]
      exact s.len.isLt

/-! The whole invariant. -/

theorem State.resetWith_inv (c : Params) : (State.resetWith c).Inv := State.inv_iff.mpr ⟨.reset, .empty c, .empty c⟩

theorem StepResult.inv {s t : State} (hst : StepResult s t) (h : s.Inv) : t.Inv := by
  obtain ⟨he, hm, ht⟩ := State.inv_iff.mp h
  refine State.inv_iff.mpr ?_
  cases hst with
  | succeeded i s' hr =>
    obtain ⟨-, hchecks, ho⟩ := ruleOf_ok hr
    obtain ⟨-, hdepth, hcap, hregions, -⟩ := checks_pass_iff.mp hchecks
    exact ⟨he.succeed _, hm.outcome (s' := s') hregions ho, ht.outcome (s' := s') hdepth hcap ho⟩
  | failed c info => exact ⟨he.fail c info _, hm, ht⟩
  | writeLost rest => exact ⟨he.busyAccess, hm, ht⟩
  | accepted rest w => exact ⟨he.accept, hm, ht⟩
  | wordWritten rest a v ha => exact ⟨he, hm.writeAll (.inr ha), ht⟩
  | reset rest hi => exact ⟨.reset, .empty _, .empty _⟩
  | _ => exact ⟨he, hm, ht⟩

/-- Settles O50: each part of the invariant holds of the reset state of any parameters. -/
theorem invariantHoldsAtReset : Obligations.InvariantHoldsAtReset :=
  ⟨State.resetWith_inv Config.params, State.resetWith_inv⟩

/-- Settles O51: each state a step can lead to keeps each part of the invariant. -/
theorem invariantKeptByEveryStep : Obligations.InvariantKeptByEveryStep := fun _ _ h hstep => (step_result hstep).inv h

/-! ## What a command leaves alone -/

/-- Settles O48: a command that failed wrote the error registers alone, one that succeeded wrote what its outcome lists. -/
theorem commandsWriteOnlyTheirOutputs : Obligations.CommandsWriteOnlyTheirOutputs := by
  intro i s t h
  rcases exec_cases i s with ⟨s', hr, he⟩ | ⟨e, -, he⟩ <;> rw [he] at h <;> cases h
  · obtain ⟨-, -, ho⟩ := ruleOf_ok hr
    exact ⟨⟨rfl, rfl, rfl, rfl, rfl, rfl, rfl, rfl, rfl, rfl, rfl⟩, rfl, rfl, fun r hne => (outcomeOf_regs ho hne).1,
      fun hne => ((outcomeOf_tree ho).resolve_left hne).1, (outcomeOf_idx ho).resolve_left, (outcomeOf_eq ho).resolve_left⟩
  · exact ⟨⟨rfl, rfl, rfl, rfl, rfl, rfl, rfl, rfl, rfl, rfl, rfl⟩, rfl, rfl, fun r hne => absurd rfl hne,
      fun hne => absurd rfl hne, fun hne => absurd rfl hne, fun hne => absurd rfl hne⟩

/-! ## A command and a host that does not wait (R47, R48) -/

/-- `s` with another host's side and the bits `m` set in `ESTICKY`: all that a transaction can do to a busy core. -/
def State.disturbed (s : State) (inbox : List HostEvent) (replies : List Container) (draws : Nat) (m : Word) : State :=
  { s with inbox := inbox, replies := replies, draws := draws, esticky := s.esticky ||| m }

/-- A transaction with a busy core disturbs it, and sets no sticky bit but 9, and that one exactly when it writes. -/
theorem performBusy_disturbed (s : State) (rest : List HostEvent) (t : Transaction) :
    ∃ replies draws, performBusy { s with inbox := rest } t =
      s.disturbed rest replies draws (if (writeData t).isSome then BitVec.ofNat 32 (2 ^ 9) else 0) := by
  rcases performBusy_cases { s with inbox := rest } t with ⟨hw, v, k, e⟩ | ⟨hw, e⟩
  · refine ⟨v :: s.replies, k, ?_⟩
    simp [e, hw, State.disturbed]
  · refine ⟨s.replies, s.draws, ?_⟩
    simp [e, hw, State.disturbed]

section
variable (s : State) (ib : List HostEvent) (rp : List Container) (dr : Nat) (m : Word)

/-- No check of a command reads what the host disturbs. -/
theorem checksOf_disturbed (i : Instr) : checksOf (s.disturbed ib rp dr m) i = checksOf s i := by cases i <;> rfl

/-- Nor does the outcome, which passes it on. -/
theorem outcomeOf_disturbed (i : Instr) : outcomeOf (s.disturbed ib rp dr m) i = (outcomeOf s i).map (·.disturbed ib rp dr m) := by
  cases i with
  | fdiv rd ra rb =>
    have hb : (s.disturbed ib rp dr m).regElem rb.val = s.regElem rb.val := rfl
    simp only [outcomeOf, hb]
    split <;> rfl
  | mpath ra =>
    have hf : findLeaf ((s.disturbed ib rp dr m).regElem ra.val) (s.disturbed ib rp dr m).tree.leaves =
        findLeaf (s.regElem ra.val) s.tree.leaves := rfl
    simp only [outcomeOf, hf]
    split <;> rfl
  | _ => rfl

theorem ruleOf_disturbed {i : Instr} (hw : i.wellFormed = true) :
    ruleOf i (s.disturbed ib rp dr m) = (ruleOf i s).map (·.disturbed ib rp dr m) := by
  rw [ruleOf_eq hw, ruleOf_eq hw, checksOf_disturbed, outcomeOf_disturbed]
  cases guardAll (checksOf s i) <;> rfl

/-- Completion passes the disturbance on: bits of `ESTICKY` are set in any order. -/
theorem completed_disturbed (r : Except Error State) :
    completed (s.disturbed ib rp dr m) (r.map (·.disturbed ib rp dr m)) = (completed s r).disturbed ib rp dr m := by
  cases r with
  | ok s' => rfl
  | error e =>
    have hbits : s.esticky ||| m ||| bitIf true (causeCode e.cause) = s.esticky ||| bitIf true (causeCode e.cause) ||| m := by
      rw [BitVec.or_assoc, BitVec.or_comm m, BitVec.or_assoc]
    simp [Except.map, completed, State.fail, State.disturbed, setStickyBit, hbits]

/-- A command does to a disturbed core what it does to the core left alone. -/
theorem exec_disturbed {i : Instr} (hw : i.wellFormed = true) :
    exec i (s.disturbed ib rp dr m) = .next ((completed s (ruleOf i s)).disturbed ib rp dr m) := by
  rw [exec_eq, ruleOf_disturbed s ib rp dr m hw, complete, completed_disturbed]

end

/-- Settles O57: the transaction disturbs the core, and the command passes the disturbance on. -/
theorem runningCommandIsNotDisturbed : Obligations.RunningCommandIsNotDisturbed := by
  intro s t rest i hb ho hi hd
  obtain ⟨replies, draws, hp⟩ := performBusy_disturbed s rest t
  have hstep := (step_of_transaction (.inr hi)).trans ((perform_of_busy (s := { s with inbox := rest }) hb ho).trans (congrArg _ hp))
  refine ⟨_, _, _, hstep, hd, exec_eq i s, exec_disturbed s rest replies draws _ (decode_ok hd).2, ?_⟩
  cases (writeData t).isSome <;> simp [State.disturbed]

/-! ## Reads and writes of CSRs (R24 to R39) -/

/-- The CSRs that hold an operand, which the host writes (R31 to R34). -/
abbrev operandCsrs : List Csr := [.src, .dst, .aux, .len, .levels, .idx]

/-- A write of an operand CSR is read back, and changes no other CSR, no register, word or tree. -/
theorem writeCsr_operand (s : State) {n : Csr} (v : Word) (hn : n ∈ operandCsrs) :
    (s.writeCsr n v).csr n = v ∧ (∀ m, m ≠ n → (s.writeCsr n v).csr m = s.csr m) ∧ (s.writeCsr n v).x = s.x ∧
      (s.writeCsr n v).dmem = s.dmem ∧ (s.writeCsr n v).tree = s.tree ∧ (s.writeCsr n v).params = s.params := by
  cases n with
  | src | dst | aux | len | levels | idx =>
    exact ⟨rfl, fun m hm => by cases m <;> simp [State.csr, State.writeCsr] at hm ⊢, rfl, rfl, rfl, rfl⟩
  | _ => simp at hn

/-- A write of a read-only CSR is ignored (R39). -/
theorem writeCsr_readOnly (s : State) {n : Csr} (v : Word)
    (hn : n ∈ ([.id, .status, .cause, .einfo, .esticky, .tlevels, .tleaves, .dmemsz, .widths] : List Csr)) : s.writeCsr n v = s := by
  cases n with
  | cmd | src | dst | aux | len | levels | idx => simp at hn
  | _ => rfl

theorem getLsbD_bitIf (b : Bool) {j : Nat} (hj : j < 32) (k : Nat) : (bitIf b j).getLsbD k = (decide (k = j) && b) := by
  cases b with
  | false => simp [bitIf]
  | true => simpa [bitIf] using getLsbD_orBit 0 j k hj

/-- `STATUS` bit by bit (R27). -/
theorem getLsbD_statusWord (f : Status) (k : Nat) : (statusWord f).getLsbD k =
    (decide (k = 0) && f.busy || decide (k = 1) && f.done || decide (k = 2) && f.err || decide (k = 3) && f.fatal ||
      decide (k = 4) && f.eq) := by
  simp only [statusWord, BitVec.getLsbD_or, getLsbD_bitIf _ (show 0 < 32 by decide), getLsbD_bitIf _ (show 1 < 32 by decide),
    getLsbD_bitIf _ (show 2 < 32 by decide), getLsbD_bitIf _ (show 3 < 32 by decide), getLsbD_bitIf _ (show 4 < 32 by decide)]

theorem toNat_causeWord_some (c : Cause) : (causeWord (some c)).toNat = causeCode c := by cases c <;> rfl

/-- In a state of a run `TLEVELS` and `TLEAVES` hold the whole depth and number of leaves (R35, R36). -/
theorem toNat_treeCsrs {s : State} (h : s.Inv) :
    (s.csr .tlevels).toNat = s.tree.levels ∧ (s.csr .tleaves).toNat = s.tree.leaves.length := by
  have hmax : maxLevelsOf s.params < 33 := s.params.maxLevels.isLt
  have hdepth := h.treeDepth
  exact ⟨(BitVec.toNat_ofNat ..).trans (Nat.mod_eq_of_lt (by omega)), (BitVec.toNat_ofNat ..).trans (Nat.mod_eq_of_lt h.treeCount)⟩

/-- Settles O58: a host's access to an idle core is `writeCsr` or a reply, and each CSR reads what its view says. -/
theorem csrAccessRules : Obligations.CsrAccessRules := by
  refine ⟨fun s n v hb => ⟨fun hn => ⟨_, perform_writeCsr_of_idle n v hb, writeCsr_operand s v hn⟩, fun hn => ?_,
    perform_readCsr_of_idle n hb⟩, fun s v hb => ?_, fun s => ⟨rfl, rfl, rfl, rfl, rfl, rfl, rfl, rfl, rfl, rfl⟩,
    fun s h => toNat_treeCsrs h, fun s k => getLsbD_statusWord s.status k, fun s => ⟨fun hc => ?_, fun c k hck => ?_⟩, rfl⟩
  · rw [perform_writeCsr_of_idle n v hb, writeCsr_readOnly s v hn]
  · have write := fun n => perform_writeCsr_of_idle n v hb
    exact ⟨write .src, write .dst, write .aux, write .len, write .levels, write .idx⟩
  · rw [State.csr, hc]
    rfl
  · have hcode : causeCode c = k := by fin_cases hck <;> rfl
    refine ⟨hcode, fun hc => ?_⟩
    rw [State.csr, hc, toNat_causeWord_some, hcode]

end Sys2Proof.Machine

/-! Proofs about 20_memory: what faults, the word frame of commands, the range check, the host's transactions and the port map. -/

namespace Sys2Proof.Machine

/-! ## Faults (R61, R85, U16) -/

/-- Only an abstract memory transaction on a word that does not exist is outside (U16). -/
theorem outside_some {c : Params} {t : Transaction} {a : Nat} (h : outside c t = some a) :
    dmemWords c ≤ a ∧ (t = .readMem a ∨ ∃ v, t = .writeMem a v) := by
  cases t with
  | readMem b | writeMem b v =>
    simp only [outside, Option.ite_none_left_eq_some, Option.some.injEq] at h
    obtain ⟨hb, rfl⟩ := h
    exact ⟨Nat.not_lt.mp hb, by simp⟩
  | _ => cases h

theorem perform_fault {s : State} {t : Transaction} {f : Fault} (h : perform s t = .fault f) :
    ∃ a, outside s.params t = some a ∧ f = .noSuchWord a := by
  cases ho : outside s.params t with
  | none => rw [perform_of_outside ho] at h; cases h
  | some a => exact ⟨a, rfl, by simpa [perform, ho] using h.symm⟩

theorem perform_ne_refused (s : State) (t : Transaction) (r : Refusal) : perform s t ≠ .refused r := by
  unfold perform
  split
  · exact nofun
  · exact nofun

theorem runCommand_answers (s : State) : ∃ t, runCommand s = .next t := by
  rcases runCommand_cases s with ⟨_, s', -, -, h⟩ | ⟨c, info, h⟩
  · exact ⟨_, h⟩
  · exact ⟨_, h⟩

/-- A step that answers no next state is a transaction of the host. -/
theorem step_next_or_perform (s : State) :
    (∃ t, step s = .next t) ∨
    ∃ t rest, (s.inbox = .request t :: rest ∨ s.inbox = .barge t :: rest) ∧ step s = perform { s with inbox := rest } t := by
  rcases step_cases s with ⟨-, h⟩ | ⟨t, rest, hi, h⟩ | ⟨rest, -, h⟩ | ⟨-, -, h⟩
  · exact .inl ((runCommand_answers s).imp fun t ht => h.trans ht)
  · exact .inr ⟨t, rest, hi.imp_left And.left, h⟩
  · exact .inl ⟨_, h⟩
  · exact .inl ⟨_, h⟩

/-- Settles O53: every step but the host's transaction answers a next state, and a transaction faults only where it is outside. -/
theorem stepsNeverRefuseAndRarelyFault : Obligations.StepsNeverRefuseAndRarelyFault := by
  intro s
  rcases step_next_or_perform s with ⟨t, h⟩ | ⟨t, rest, hi, h⟩ <;> rw [h]
  · exact ⟨nofun, nofun⟩
  · refine ⟨perform_ne_refused _ _, fun f hf => ?_⟩
    obtain ⟨a, ho, rfl⟩ := perform_fault hf
    exact ⟨t, rest, a, hi, rfl, outside_some ho⟩

/-! ## What a command writes (R67, R114, R224) -/

/-- The words of the completed state are those its rule left: no rule moves the epoch. -/
theorem word_of_outcome {i : Instr} {s s' : State} (h : outcomeOf s i = .ok s') (a : Nat) :
    (s.succeededWith s'.x s'.dmem s'.idx s'.tree s'.status.eq).word a = s'.word a := by
  have hepoch : s.epoch = s'.epoch := by rw [outcomeOf_shape h]
  apply State.word_congr
  · rfl
  · exact hepoch

/-- Settles O49: a command that failed wrote no word and no register, one that succeeded wrote what its outcome lists. -/
theorem memoryOutsideTheWriteRegionIsUnchanged : Obligations.MemoryOutsideTheWriteRegionIsUnchanged := by
  intro i s t h
  rcases exec_cases i s with ⟨s', hr, he⟩ | ⟨e, -, he⟩ <;> rw [he] at h <;> cases h
  · obtain ⟨-, -, ho⟩ := ruleOf_ok hr
    refine ⟨fun a ha => ?_, fun hfld r hne => (outcomeOf_regs ho hne).2 hfld⟩
    exact (word_of_outcome ho a).trans (outcomeOf_word ho ha)
  · exact ⟨fun a _ => rfl, fun _ r hne => absurd rfl hne⟩

/-! ## The range check (R66, R67, R231) -/

/-- The checks between the width and the regions pass when depth and capacity are right. -/
theorem sizeChecks_pass {i : Instr} {s : State} (hd : depthOk s i) (hc : capacityOk s i) : ∀ c ∈ sizeChecks s i, c.1 = true := by
  cases i with
  | mbuild => simpa [sizeChecks, depthCheck, capacityCheck] using And.intro (hd (.inl rfl)) (hc rfl)
  | mfold rd ra => simpa [sizeChecks, depthCheck] using hd (.inr ⟨rd, ra, rfl⟩)
  | _ => exact nofun

/-- No check but that of a region reports `AddressRange`. -/
theorem eq_regionCheck_of_addressRange {i : Instr} {s : State} {c : Bool × Error} (h : c ∈ checksOf s i)
    (hc : c.2.cause = .addressRange) : ∃ r ∈ regionsOf s i, c = regionCheck s.params r := by
  simp only [checksOf, List.mem_append, List.mem_map] at h
  rcases h with ⟨t, -, rfl⟩ | hsize | ⟨r, hr, rfl⟩ | ⟨k, -, rfl⟩ | ⟨a, -, rfl⟩
  · cases hc
  · cases i with
    | mbuild => rcases List.mem_pair.mp hsize with rfl | rfl <;> cases hc
    | mfold rd ra => obtain rfl := List.mem_singleton.mp hsize; cases hc
    | _ => cases hsize
  · exact ⟨r, hr, rfl⟩
  · cases hc
  · cases hc

/-- The first region that fails is the error, width, depth and capacity being right. -/
theorem ruleOf_of_first_region {i : Instr} {s : State} (hwf : i.wellFormed = true) (hw : widthOk s i) (hd : depthOk s i)
    (hc : capacityOk s i) {before after : List (Nat × Nat)} {r : Nat × Nat} (hs : regionsOf s i = before ++ r :: after)
    (hb : ∀ q ∈ before, regionFits s.params q) (hr : ¬regionFits s.params r) :
    ruleOf i s = .error { cause := .addressRange, info := BitVec.ofNat 32 r.1 } := by
  have hrow : checksOf s i = ((widthOf i).toList.map (widthCheck s.params) ++ (sizeChecks s i ++ before.map (regionCheck s.params))) ++
      (false, { cause := .addressRange, info := BitVec.ofNat 32 r.1 }) :: (after.map (regionCheck s.params) ++
        ((operandRegs i).map (regCheck s) ++ (operandWords s i).map (wordCheck s))) := by
    have hcheck : regionCheck s.params r = (false, { cause := .addressRange, info := BitVec.ofNat 32 r.1 }) :=
      check_false (mt regionCheck_fst.mp hr)
    simp only [checksOf, hs, List.map_append, List.map_cons, hcheck, List.append_assoc, List.cons_append]
  refine ruleOf_of_first hwf hrow ?_
  have hwidth : ∀ c ∈ (widthOf i).toList.map (widthCheck s.params), c.1 = true := by
    simpa [widthCheck_fst, widthOk] using hw
  have hregions : ∀ c ∈ before.map (regionCheck s.params), c.1 = true := by
    simpa only [List.forall_mem_map, regionCheck_fst] using hb
  exact List.forall_mem_append.mpr ⟨hwidth, List.forall_mem_append.mpr ⟨sizeChecks_pass hd hc, hregions⟩⟩

/-- A command reports `AddressRange` only when one of its regions does not fit. -/
theorem not_regionsOk_of_addressRange {i : Instr} {s : State} {e : Error} (h : ruleOf i s = .error e) (he : e.cause = .addressRange) :
    ¬regionsOk s i := by
  intro hregions
  rcases ruleOf_error h with ⟨-, rfl⟩ | ⟨-, hcheck | hdata⟩
  · cases he
  · obtain ⟨r, hr, hreg⟩ := eq_regionCheck_of_addressRange hcheck he
    have hpass : (regionCheck s.params r).1 = true := regionCheck_fst.mpr (hregions r hr)
    exact Bool.false_ne_true ((congrArg Prod.fst hreg).trans hpass)
  · rcases outcomeOf_error hdata with ⟨rd, ra, rb, -, -, rfl⟩ | ⟨ra, -, -, rfl⟩ <;> cases he

/-- Settles O43: the failing region is the first check that does not pass, and no other check reports `AddressRange`. -/
theorem addressRangeErrors : Obligations.AddressRangeErrors := by
  intro i s hwf hw hd hc
  refine ⟨fun before base count after hs hb hpos hpast => ?_, fun hregions t h hcause => ?_⟩
  · have hr : ¬regionFits s.params (base, count) := by
      rintro (h | h)
      · exact hpos.ne' h
      · exact Nat.not_lt.mpr h hpast
    exact exec_of_error (ruleOf_of_first_region hwf hw hd hc hs hb hr)
  · rcases exec_cases i s with ⟨s', -, he⟩ | ⟨e, hr, he⟩ <;> rw [he] at h <;> cases h
    · cases hcause
    · exact not_regionsOk_of_addressRange hr (Option.some.inj hcause) hregions

/-! ## Transactions and the port map (R61, R63, R68) -/

theorem perform_read_of_idle {s : State} {t : Transaction} (hb : s.status.busy = false) (ho : outside s.params t = none)
    (hw : writeData t = none) : perform s t = .next (s.reply (s.readTarget (targetOf s.params t))) := by
  rw [perform_of_idle hb ho, performIdle, hw]

theorem perform_write_of_idle {s : State} {t : Transaction} {data : Container} (hb : s.status.busy = false)
    (ho : outside s.params t = none) (hw : writeData t = some data) :
    perform s t = .next (s.writeTarget data (targetOf s.params t)) := by
  rw [perform_of_idle hb ho, performIdle, hw]

/-- Port addresses 0 to 15 are the CSRs by number. -/
theorem portTarget_csr (c : Params) {paddr : Word} {n : Csr} (h : paddr.toNat = (csrNumber n).val) : portTarget c paddr = .csr n := by
  simp only [portTarget, h]
  cases n <;> rfl

theorem portTarget_reg (c : Params) {paddr : Word} {i : Reg} (h : paddr.toNat = 0x10 + i.val) : portTarget c paddr = .reg i := by
  have hi : Fin.ofNat 16 i.val = i := Fin.ext (Nat.mod_eq_of_lt i.isLt)
  simp only [portTarget, h, Nat.add_sub_cancel_left, hi]
  rw [if_neg (by omega), if_pos (by omega)]

theorem portTarget_mem {c : Params} {paddr : Word} {a : Nat} (ha : a < dmemWords c) (h : paddr.toNat = 0x80000000 + a) :
    portTarget c paddr = .mem a := by
  simp only [portTarget, h, Nat.add_sub_cancel_left]
  rw [if_neg (by omega), if_neg (by omega), if_neg (by omega), if_pos ha]

theorem portTarget_nothing {c : Params} {paddr : Word}
    (h : (0x20 ≤ paddr.toNat ∧ paddr.toNat < 0x80000000) ∨ 0x80000000 + dmemWords c ≤ paddr.toNat) :
    portTarget c paddr = .nothing := by
  simp only [portTarget]
  rw [if_neg (by omega), if_neg (by omega)]
  split
  · rfl
  · rw [if_neg (by omega)]

/-- A port access is an access to the target its address names (R63). -/
theorem perform_port_of_idle {s : State} {paddr : Word} {T : Target} (data : Container) (hb : s.status.busy = false)
    (hT : portTarget s.params paddr = T) :
    perform s (.readPort paddr) = .next (s.reply (s.readTarget T)) ∧
      perform s (.writePort paddr data) = .next (s.writeTarget data T) := by
  subst hT
  exact ⟨perform_read_of_idle hb rfl rfl, perform_write_of_idle hb rfl rfl⟩

/-- Settles O59: a transaction of an idle core reads or writes its target, and the port map names that target. -/
theorem hostPortMap : Obligations.HostPortMap := by
  intro s data hb
  have readX (i : Reg) := perform_read_of_idle (t := .readX i) hb rfl rfl
  have writeX (i : Reg) := perform_write_of_idle (t := .writeX i data) hb rfl rfl
  have readMem (a : Nat) (ha : a < dmemWords s.params) := perform_read_of_idle (t := .readMem a) hb (if_pos ha) rfl
  have writeMem (a : Nat) (ha : a < dmemWords s.params) := perform_write_of_idle (t := .writeMem a data) hb (if_pos ha) rfl
  refine ⟨fun i => ⟨readX i, _, writeX i, rfl, s.reg_setReg_same i data, fun j hj => s.reg_setReg_other i j data hj.symm⟩,
    fun a ha => ⟨readMem a ha, _, writeMem a ha, rfl, s.word_writeWords_inside a 0 [data] Nat.one_pos,
      fun b hne => s.word_writeWords_outside a b [data] ?_⟩,
    fun paddr => ⟨fun n k hnk hk => ?_, fun i hi => ?_, fun a ha hpa => ?_, fun hres => ?_⟩⟩
  · simp only [List.length_singleton]
    omega
  · have hnumber : paddr.toNat = (csrNumber n).val := hk.trans (by fin_cases hnk <;> rfl)
    obtain ⟨hread, hwrite⟩ := perform_port_of_idle data hb (portTarget_csr _ hnumber)
    exact ⟨hread.trans (perform_readCsr_of_idle n hb).symm, hwrite.trans (perform_writeCsr_of_idle n _ hb).symm⟩
  · obtain ⟨hread, hwrite⟩ := perform_port_of_idle data hb (portTarget_reg _ hi)
    exact ⟨hread.trans (readX i).symm, hwrite.trans (writeX i).symm⟩
  · obtain ⟨hread, hwrite⟩ := perform_port_of_idle data hb (portTarget_mem ha hpa)
    exact ⟨hread.trans (readMem a ha).symm, hwrite.trans (writeMem a ha).symm⟩
  · exact perform_port_of_idle data hb (portTarget_nothing hres)

end Sys2Proof.Machine

/-! Proofs about 30_encoding: decode and encode, the opcode table, and the register groups. -/

namespace Sys2Proof

/-! ## Decode and encode (R81 to R85) -/

/-- R81: the word assembled from five fields is the word that has these five fields. -/
theorem assemble_eq_iff {op : BitVec 8} {rd ra rb : Reg} {imm : Offset} {w : Word} :
    assemble op rd ra rb imm = w ↔
      opField w = op ∧ rdField w = rd ∧ raField w = ra ∧ rbField w = rb ∧ immField w = imm := by
  constructor
  · rintro rfl
    simp
  · rintro ⟨rfl, rfl, rfl, rfl, rfl⟩
    exact assemble_fields w

/-- R82, R84: the fields of a command's word give the command back; the group check of R91 is not asked here. -/
theorem decodeFields_encode (i : Instr) : decodeFields (encode i) = .ok i := by
  cases i with
  | fadd | fsub | fmul | fdiv | cdec => simp [encode, decodeFields, formatR3, whenZero]
  | fpow5 | fnorm | mfold => simp [encode, decodeFields, formatR2, whenZero]
  | hash => simp [encode, decodeFields, formatRN, whenZero]
  | perm => simp [encode, decodeFields, formatW, whenZero]
  | cenc | cchk => simp [encode, decodeFields, formatK, whenZero]
  | mbuild => simp [encode, decodeFields, formatZ, whenZero]
  | mroot => simp [encode, decodeFields, formatD, whenZero]
  | mpath => simp [encode, decodeFields, formatA, whenZero]
  | fld => simp [encode, decodeFields, formatLI, whenZero]
  | fst => simp [encode, decodeFields, formatSI, whenZero]

/-- R82, R85: the operands of a word read as a command are its own fields, and the fields the command does not use were found zero, so
they assemble to the word again. -/
theorem encode_of_decodeFields {w : Word} {i : Instr} (h : decodeFields w = .ok i) : encode i = w := by
  unfold decodeFields at h
  split at h
  case h_18 => cases h
  all_goals
    next hop =>
    obtain ⟨hzero, rfl⟩ := whenZero_ok h
    simp only [Bool.and_eq_true, beq_iff_eq] at hzero
    exact assemble_eq_iff.mpr ⟨BitVec.eq_of_toNat_eq hop, by simp [hzero, immOfCount_countOf]⟩

/-- R91: a command's word is accepted unless its register group passes `x[15]`. -/
theorem decode_encode (i : Instr) : decode (encode i) = if i.wellFormed then .ok i else .error .groupPastX15 := by
  rw [decode, decodeFields_encode]
  rfl

/-- Settles O6: the fields of an assembled word are the ones it was assembled from, and a word is assembled from its fields. -/
theorem decodeAndEncodeAgree : Obligations.DecodeAndEncodeAgree := by
  refine ⟨fun i hwf => by rw [decode_encode, if_pos hwf], fun w i h => ?_⟩
  obtain ⟨hfields, hwf⟩ := decode_ok h
  exact ⟨encode_of_decodeFields hfields, hwf⟩

/-! ## Words against the rows of the opcode table (R84) -/

/-- R84: the word of a command matches the command's row, which stands in the table. -/
theorem encode_matches_row (i : Instr) : Laws.TableRow.Statement i := by
  cases i with
  | fadd rd ra rb => exact Laws.TableRow.fadd rd ra rb
  | fsub rd ra rb => exact Laws.TableRow.fsub rd ra rb
  | fmul rd ra rb => exact Laws.TableRow.fmul rd ra rb
  | fpow5 rd ra => exact Laws.TableRow.fpow5 rd ra
  | fnorm rd ra => exact Laws.TableRow.fnorm rd ra
  | fdiv rd ra rb => exact Laws.TableRow.fdiv rd ra rb
  | perm t => exact Laws.TableRow.perm t
  | hash rd ra n => exact Laws.TableRow.hash rd ra n
  | cenc ra rb => exact Laws.TableRow.cenc ra rb
  | cdec rd ra rb => exact Laws.TableRow.cdec rd ra rb
  | cchk ra rb => exact Laws.TableRow.cchk ra rb
  | mbuild => exact Laws.TableRow.mbuild
  | mroot rd => exact Laws.TableRow.mroot rd
  | mpath ra => exact Laws.TableRow.mpath ra
  | mfold rd ra => exact Laws.TableRow.mfold rd ra
  | fld rd off => exact Laws.TableRow.fld rd off
  | fst ra off => exact Laws.TableRow.fst ra off

section matching
variable {w mask value : Word} (h : w &&& mask = value)
include h

/-- Where the mask has every bit of a field set, a matching word has the field of the row's `match`. -/
theorem extractLsb'_of_match {start len : Nat} (hm : mask.extractLsb' start len = BitVec.allOnes len) :
    w.extractLsb' start len = value.extractLsb' start len := by
  rw [← h, BitVec.extractLsb'_and, hm, BitVec.and_allOnes]

theorem opField_of_match (hm : opField mask = 0xFF) : opField w = opField value := extractLsb'_of_match h hm
theorem rdField_of_match (hm : rdField mask = 15) : rdField w = rdField value :=
  congrArg BitVec.toFin (extractLsb'_of_match h (BitVec.toFin_inj.mp hm))
theorem raField_of_match (hm : raField mask = 15) : raField w = raField value :=
  congrArg BitVec.toFin (extractLsb'_of_match h (BitVec.toFin_inj.mp hm))
theorem rbField_of_match (hm : rbField mask = 15) : rbField w = rbField value :=
  congrArg BitVec.toFin (extractLsb'_of_match h (BitVec.toFin_inj.mp hm))
theorem immField_of_match (hm : immField mask = 4095) : immField w = immField value :=
  congrArg BitVec.toFin (extractLsb'_of_match h (BitVec.toFin_inj.mp hm))

end matching

/-- `imm12[11:4]` as the slice `w[11:4]` of the word. -/
theorem immHigh_immField (w : Word) : immHigh (immField w) = (w.extractLsb' 4 8).toNat := by
  rw [immHigh, immField_val, BitVec.extractLsb'_toNat, Nat.shiftRight_eq_div_pow]
  omega

/-- R83 a: where the mask has `imm12[11:4]` set and the row's `match` has it zero, the immediate is its count. -/
theorem immField_eq_immOfCount_of_match {w mask value : Word} (h : w &&& mask = value) (hm : mask.extractLsb' 4 8 = 0xFF)
    (hv : value.extractLsb' 4 8 = 0) : immField w = immOfCount (countOf (immField w)) := by
  have hw : w.extractLsb' 4 8 = 0 := (extractLsb'_of_match h hm).trans hv
  exact (immOfCount_countOf (by rw [immHigh_immField, hw]; rfl)).symm

/-- R84: a word that matches a row is the word of that row's command, with the operands that stand in its fields. -/
theorem exists_encode_of_match {w : Word} {row : Word × Word} (hrow : row ∈ opcodeTable) (h : w &&& row.2 = row.1) :
    ∃ i, matchMask i = row ∧ encode i = w := by
  simp only [opcodeTable, List.mem_cons, List.not_mem_nil, or_false] at hrow
  rcases hrow with rfl | rfl | rfl | rfl | rfl | rfl | rfl | rfl | rfl | rfl | rfl | rfl | rfl | rfl | rfl | rfl | rfl
  · exact ⟨.fadd (rdField w) (raField w) (rbField w), rfl, assemble_eq_iff.mpr
      ⟨opField_of_match h rfl, rfl, rfl, rfl, immField_of_match h rfl⟩⟩
  · exact ⟨.fsub (rdField w) (raField w) (rbField w), rfl, assemble_eq_iff.mpr
      ⟨opField_of_match h rfl, rfl, rfl, rfl, immField_of_match h rfl⟩⟩
  · exact ⟨.fmul (rdField w) (raField w) (rbField w), rfl, assemble_eq_iff.mpr
      ⟨opField_of_match h rfl, rfl, rfl, rfl, immField_of_match h rfl⟩⟩
  · exact ⟨.fpow5 (rdField w) (raField w), rfl, assemble_eq_iff.mpr
      ⟨opField_of_match h rfl, rfl, rfl, rbField_of_match h rfl, immField_of_match h rfl⟩⟩
  · exact ⟨.fnorm (rdField w) (raField w), rfl, assemble_eq_iff.mpr
      ⟨opField_of_match h rfl, rfl, rfl, rbField_of_match h rfl, immField_of_match h rfl⟩⟩
  · exact ⟨.fdiv (rdField w) (raField w) (rbField w), rfl, assemble_eq_iff.mpr
      ⟨opField_of_match h rfl, rfl, rfl, rfl, immField_of_match h rfl⟩⟩
  · exact ⟨.perm (countOf (immField w)), rfl, assemble_eq_iff.mpr ⟨opField_of_match h rfl, rdField_of_match h rfl,
      raField_of_match h rfl, rbField_of_match h rfl, immField_eq_immOfCount_of_match h rfl rfl⟩⟩
  · exact ⟨.hash (rdField w) (raField w) (countOf (immField w)), rfl, assemble_eq_iff.mpr
      ⟨opField_of_match h rfl, rfl, rfl, rbField_of_match h rfl, immField_eq_immOfCount_of_match h rfl rfl⟩⟩
  · exact ⟨.cenc (raField w) (rbField w), rfl, assemble_eq_iff.mpr
      ⟨opField_of_match h rfl, rdField_of_match h rfl, rfl, rfl, immField_of_match h rfl⟩⟩
  · exact ⟨.cdec (rdField w) (raField w) (rbField w), rfl, assemble_eq_iff.mpr
      ⟨opField_of_match h rfl, rfl, rfl, rfl, immField_of_match h rfl⟩⟩
  · exact ⟨.cchk (raField w) (rbField w), rfl, assemble_eq_iff.mpr
      ⟨opField_of_match h rfl, rdField_of_match h rfl, rfl, rfl, immField_of_match h rfl⟩⟩
  · exact ⟨.mbuild, rfl, assemble_eq_iff.mpr ⟨opField_of_match h rfl, rdField_of_match h rfl,
      raField_of_match h rfl, rbField_of_match h rfl, immField_of_match h rfl⟩⟩
  · exact ⟨.mroot (rdField w), rfl, assemble_eq_iff.mpr
      ⟨opField_of_match h rfl, rfl, raField_of_match h rfl, rbField_of_match h rfl, immField_of_match h rfl⟩⟩
  · exact ⟨.mpath (raField w), rfl, assemble_eq_iff.mpr
      ⟨opField_of_match h rfl, rdField_of_match h rfl, rfl, rbField_of_match h rfl, immField_of_match h rfl⟩⟩
  · exact ⟨.mfold (rdField w) (raField w), rfl, assemble_eq_iff.mpr
      ⟨opField_of_match h rfl, rfl, rfl, rbField_of_match h rfl, immField_of_match h rfl⟩⟩
  · exact ⟨.fld (rdField w) (immField w), rfl, assemble_eq_iff.mpr
      ⟨opField_of_match h rfl, rfl, raField_of_match h rfl, rbField_of_match h rfl, rfl⟩⟩
  · exact ⟨.fst (raField w) (immField w), rfl, assemble_eq_iff.mpr
      ⟨opField_of_match h rfl, rdField_of_match h rfl, rfl, rbField_of_match h rfl, rfl⟩⟩

theorem matches_row_of_decode {w : Word} {i : Instr} (h : decode w = .ok i) :
    matchMask i ∈ opcodeTable ∧ w &&& (matchMask i).2 = (matchMask i).1 := by
  obtain ⟨hmatch, hrow⟩ := encode_matches_row i
  rw [encode_of_decodeFields (decode_ok h).1] at hmatch
  exact ⟨hrow, hmatch⟩

/-- Settles O7: a decoded word is its command's word, which matches the command's row, and a word that matches a row is the word of
that row's command. -/
theorem decoderAgreesWithOpcodeTable : Obligations.DecoderAgreesWithOpcodeTable := by
  refine ⟨fun w i => matches_row_of_decode, fun w row hrow h => ?_, fun w hnone => ?_⟩
  · obtain ⟨i, hi, rfl⟩ := exists_encode_of_match hrow h
    exact ⟨i, hi, rfl, decode_encode i⟩
  · cases hd : decode w with
    | error e => exact ⟨e, rfl⟩
    | ok i =>
      obtain ⟨hrow, hmatch⟩ := matches_row_of_decode hd
      exact absurd hmatch (hnone _ hrow)

/-! ## Rows do not overlap (R85) -/

/-- Every row looks at the whole of `op`. -/
theorem opField_mask_of_mem : ∀ row ∈ opcodeTable, opField row.2 = 0xFF := by
  simp [opcodeTable, opField]

theorem opcodeTable_ops_differ : opcodeTable.Pairwise fun a b => opField a.1 ≠ opField b.1 := by decide

/-- Settles O8: a word that matched two rows would have the `op` of both, and the `op` values of two rows differ. -/
theorem opcodeRowsNeverOverlap : Obligations.OpcodeRowsNeverOverlap := by
  refine opcodeTable_ops_differ.imp_of_mem fun {a b} ha hb hne w => ?_
  rintro ⟨hwa, hwb⟩
  have hopa : opField w = opField a.1 := opField_of_match hwa (opField_mask_of_mem a ha)
  have hopb : opField w = opField b.1 := opField_of_match hwb (opField_mask_of_mem b hb)
  exact hne (hopa.symm.trans hopb)

/-! ## Register groups (R91) -/

/-- R91: a group passes `x[15]` exactly when it is not empty and its last register is past `x[15]`. -/
theorem groupFits_eq_false_iff {ra : Reg} {g : Nat} : groupFits ra g = false ↔ g ≠ 0 ∧ 16 < ra.val + g := by
  simp [groupFits]

/-- R91: a pair passes `x[15]` exactly when it begins there. -/
theorem groupFits_two_eq_false_iff {ra : Reg} : groupFits ra 2 = false ↔ ra = 15 := by
  rw [groupFits_eq_false_iff, Fin.ext_iff]
  omega

/-- Settles O9: the group check of each command, read as arithmetic. -/
theorem registerGroupsEndAtX15 : Obligations.RegisterGroupsEndAtX15 := by
  refine ⟨fun rd ra n => ?_, fun _ _ => groupFits_two_eq_false_iff, fun _ _ _ => groupFits_two_eq_false_iff,
    fun _ _ => groupFits_two_eq_false_iff, fun _ => rfl⟩
  have hgroup : (Instr.hash rd ra n).wellFormed = false ↔ n.val ≠ 0 ∧ 16 < ra.val + n.val := groupFits_eq_false_iff
  rw [hgroup]
  omega

end Sys2Proof

/-! Proofs about 40_field_arithmetic: the values and laws of the field functions, and the field commands. -/

namespace Sys2Proof.Machine.Field

/-! ## Sum, difference and normalization by cases (R100, R101, R105) -/

theorem add_val_of_lt {a b : Fe} (h : a.val + b.val < p) : (add a b).val = a.val + b.val :=
  (add_val a b).trans (Nat.mod_eq_of_lt h)

/-- The sum of two FieldElements is below `2 * p`, so one subtraction reduces it. -/
theorem add_val_of_ge {a b : Fe} (h : p ≤ a.val + b.val) : (add a b).val = a.val + b.val - p := by
  have hlt : a.val + b.val - p < p := by
    have ha := a.isLt
    have hb := b.isLt
    omega
  rw [add_val, Nat.mod_eq_sub_mod h, Nat.mod_eq_of_lt hlt]

/-- The difference of two FieldElements is above `-p`, so one addition brings it into range. -/
theorem sub_val_of_lt {a b : Fe} (h : a.val < b.val) : (sub a b).val = a.val + p - b.val := by
  rw [sub_val, Nat.mod_eq_of_lt (by omega)]

theorem sub_val_of_le {a b : Fe} (h : b.val ≤ a.val) : (sub a b).val = a.val - b.val := by
  have hlt : a.val - b.val < p := (Nat.sub_le _ _).trans_lt a.isLt
  rw [sub_val, Nat.sub_add_comm h, Nat.add_mod_right, Nat.mod_eq_of_lt hlt]

theorem sub_val_eq_ite (a b : Fe) :
    (sub a b).val = if b.val ≤ a.val then a.val - b.val else a.val + p - b.val := by
  split
  next h => exact sub_val_of_le h
  next h => exact sub_val_of_lt (Nat.not_le.mp h)

/-- The `+ p` that keeps the difference natural is a multiple of the modulus. -/
theorem sub_val_int (a b : Fe) : ((sub a b).val : Int) = ((a.val : Int) - b.val) % p := by
  have hle : b.val ≤ a.val + p := b.isLt.le.trans (Nat.le_add_left _ _)
  rw [sub_val, Int.natCast_mod, Nat.cast_sub hle, Nat.cast_add, add_sub_right_comm, Int.add_emod_right]

/-- A container is below `6 * p`, so at most five subtractions of `p` normalize it (R105). -/
theorem toNat_eq_normalize_add (v : Container) : ∃ k ≤ 5, v.toNat = (normalize v).val + k * p := by
  have hquot : v.toNat / p < 6 := Nat.div_lt_of_lt_mul (v.isLt.trans (by decide))
  exact ⟨v.toNat / p, Nat.le_of_lt_succ hquot, (Nat.mod_add_div' v.toNat p).symm⟩

/-- Settles O10, each function by the cases of its rule. -/
theorem fieldFunctionValues : Obligations.FieldFunctionValues :=
  ⟨fun a b => ⟨add_val a b, add_val_of_lt, add_val_of_ge⟩, fun a b => ⟨sub_val_int a b, sub_val_of_le, sub_val_of_lt⟩, mul_val,
    fun v => ⟨normalize_val v, Nat.mod_eq_of_lt, toNat_eq_normalize_add v⟩⟩

/-! ## The fifth power (R103, R104) -/

/-- The reductions between the multiplications do not show: in `ZMod p` both sides are the fifth power. -/
theorem pow5_val (a : Fe) : (pow5 a).val = a.val ^ 5 % p := by
  have h : pow5 a = reduce (a.val ^ 5) := toZ_injective (by rw [toZ_pow5, toZ_reduce, Nat.cast_pow, toZ])
  rw [h, val_reduce]

/-- Settles O11: the two equations are the definitions, the value is `pow5_val`. -/
theorem fifthPowerValue : Obligations.FifthPowerValue := fun a => ⟨rfl, rfl, pow5_val a⟩

/-! ## Laws of a commutative ring (R116), each carried over from `ZMod p` -/

protected theorem add_comm (a b : Fe) : add a b = add b a := toZ_injective (by simp only [toZ_add]; ring)
protected theorem mul_comm (a b : Fe) : mul a b = mul b a := toZ_injective (by simp only [toZ_mul]; ring)

protected theorem add_assoc (a b c : Fe) : add (add a b) c = add a (add b c) := toZ_injective (by simp only [toZ_add]; ring)
protected theorem mul_assoc (a b c : Fe) : mul (mul a b) c = mul a (mul b c) := toZ_injective (by simp only [toZ_mul]; ring)

protected theorem mul_add (a b c : Fe) : mul a (add b c) = add (mul a b) (mul a c) :=
  toZ_injective (by simp only [toZ_mul, toZ_add]; ring)

protected theorem add_zero (a : Fe) : add a (reduce 0) = a := toZ_injective (by rw [toZ_add, toZ_reduce, Nat.cast_zero]; ring)
protected theorem mul_one (a : Fe) : mul a (reduce 1) = a := toZ_injective (by rw [toZ_mul, toZ_reduce, Nat.cast_one]; ring)

/-- The other order of `sub_add_cancel`. -/
theorem sub_add_cancel_right (a b : Fe) : sub (add a b) b = a := by rw [Field.add_comm, sub_add_cancel]

theorem pow5_mul (a b : Fe) : pow5 (mul a b) = mul (pow5 a) (pow5 b) := toZ_injective (by simp only [toZ_pow5, toZ_mul]; ring)

/-! ## Inverse and division (R106, R107) -/

/-- Multiplication by an element other than 0 is undone by its inverse, and by nothing else; this rests on `p` being prime. -/
theorem mul_eq_iff_eq_mul_inv {a b q : Fe} (hb : b.val ≠ 0) : mul q b = a ↔ q = mul a (inv b) := by
  have : Fact p.Prime := ⟨Laws.p_prime⟩
  have hz : toZ q * toZ b = toZ a ↔ toZ q = toZ a * (toZ b)⁻¹ := (eq_mul_inv_iff_mul_eq₀ (toZ_ne_zero hb)).symm
  rw [← toZ_inv hb, ← toZ_mul, ← toZ_mul] at hz
  exact ⟨fun h => toZ_injective (hz.mp (congrArg toZ h)), fun h => toZ_injective (hz.mpr (congrArg toZ h))⟩

/-- Settles O12: the inverse is the one `c` that times `b` is 1. -/
theorem inverseIsTheUniqueSolution : Obligations.InverseIsTheUniqueSolution := by
  intro b hb c
  calc (mul b c).val = 1
      ↔ mul c b = reduce 1 := by rw [Field.mul_comm]; exact (Fin.ext_iff (b := reduce 1)).symm
    _ ↔ c = mul (reduce 1) (inv b) := mul_eq_iff_eq_mul_inv hb
    _ ↔ c = inv b := by rw [Field.mul_comm, Field.mul_one]

theorem div_of_eq_zero (a : Fe) {b : Fe} (hb : b.val = 0) : div a b = none := if_pos hb

theorem div_of_ne_zero (a : Fe) {b : Fe} (hb : b.val ≠ 0) : div a b = some (mul a (inv b)) := if_neg hb

/-- Settles O13: division by 0 fails, and any other divisor is cancelled by its inverse. -/
theorem divisionFailsOnZeroDivisorOnly : Obligations.DivisionFailsOnZeroDivisorOnly :=
  fun a _ => ⟨div_of_eq_zero a, fun hb => ⟨_, div_of_ne_zero a hb, rfl, fun _ => mul_eq_iff_eq_mul_inv hb⟩⟩

/-- Whatever `div` answers is the quotient (R116). -/
theorem mul_of_div_eq_some {a b q : Fe} (hb : b.val ≠ 0) (h : div a b = some q) : mul q b = a := by
  rw [div_of_ne_zero a hb] at h
  exact (mul_eq_iff_eq_mul_inv hb).mpr (Option.some.inj h).symm

/-- Settles O14, law by law. -/
theorem fieldLawsHold : Obligations.FieldLawsHold :=
  ⟨fun a b => ⟨Field.add_comm a b, Field.mul_comm a b⟩,
    fun a b c => ⟨Field.add_assoc a b c, Field.mul_assoc a b c, Field.mul_add a b c⟩,
    fun a => ⟨Field.add_zero a, Field.mul_one a⟩,
    fun a b => ⟨sub_add_cancel_right a b, add_sub_cancel a b⟩,
    fun _ _ _ => mul_of_div_eq_some,
    pow5_mul⟩

end Sys2Proof.Machine.Field

namespace Sys2Proof.Machine

/-! ## Operands read as FieldElements (R21, R227) -/

theorem regCanonical_iff {s : State} {i : Reg} : s.regCanonical i.val ↔ (s.reg i).toNat < p := by
  rw [State.regCanonical, reg_eq_getD]

theorem regElem_val (s : State) (i : Reg) : (s.regElem i.val).val = (s.reg i).toNat % p := by
  rw [State.regElem, val_reduce, reg_eq_getD]

theorem regElem_val_of_lt {s : State} {i : Reg} (h : (s.reg i).toNat < p) : (s.regElem i.val).val = (s.reg i).toNat :=
  (regElem_val s i).trans (Nat.mod_eq_of_lt h)

theorem fe_of_lt {s : State} {i : Reg} (h : (s.reg i).toNat < p) : s.fe i = .ok (s.regElem i.val) :=
  fe_of_canonical (regCanonical_iff.mpr h)

/-! ## Commands whose one write is a FieldElement to `x[rd]` (R47) -/

/-- A rule that only writes `q` to `x[rd]` completes with that register set to the value of `q`. -/
theorem exec_of_setReg_ofFe {i : Instr} {s : State} {rd : Reg} {q : Fe} {n : Nat} (h : ruleOf i s = .ok (s.setReg rd (ofFe q)))
    (hq : q.val = n) : exec i s = .next (s.succeededX (s.x.set rd.val (BitVec.ofNat 256 n))) := by
  subst hq
  exact exec_of_ok h

section
variable {rd ra rb : Reg} {s : State}

/-- The common rule of `FADD`, `FSUB`, `FMUL` on canonical operands; nothing is asked of `rd`, which may be a source. -/
theorem fieldBinary_of_lt (f : Fe → Fe → Fe) (ha : (s.reg ra).toNat < p) (hb : (s.reg rb).toNat < p) :
    fieldBinary f rd ra rb s = .ok (s.setReg rd (ofFe (f (s.regElem ra.val) (s.regElem rb.val)))) := by
  rw [fieldBinary, fe_of_lt ha, fe_of_lt hb]
  rfl

theorem ruleFpow5_of_lt (ha : (s.reg ra).toNat < p) :
    ruleFpow5 rd ra s = .ok (s.setReg rd (ofFe (Field.pow5 (s.regElem ra.val)))) := by
  rw [ruleFpow5, fe_of_lt ha]
  rfl

/-- `FDIV` on canonical operands with a quotient writes it (R113). -/
theorem ruleFdiv_of_div_eq_some {q : Fe} (ha : (s.reg ra).toNat < p) (hb : (s.reg rb).toNat < p)
    (hdiv : Field.div (s.regElem ra.val) (s.regElem rb.val) = some q) : ruleFdiv rd ra rb s = .ok (s.setReg rd (ofFe q)) := by
  rw [ruleFdiv, fe_of_lt ha, fe_of_lt hb]
  simp only [ok_bind, hdiv, pure_eq_ok]

/-- `FDIV` on canonical operands without a quotient names the divisor's register (R229). -/
theorem ruleFdiv_of_div_eq_none (ha : (s.reg ra).toNat < p) (hb : (s.reg rb).toNat < p)
    (hdiv : Field.div (s.regElem ra.val) (s.regElem rb.val) = none) :
    ruleFdiv rd ra rb s = .error { cause := .divisionByZero, info := BitVec.ofNat 32 rb.val } := by
  rw [ruleFdiv, fe_of_lt ha, fe_of_lt hb]
  simp only [ok_bind, hdiv]

end

/-- Settles O15: the three commands share one rule, and each function's value is that of its operands' values. -/
theorem addSubMulCommandResults : Obligations.AddSubMulCommandResults := by
  intro rd ra rb s ha hb
  rw [← regElem_val_of_lt ha, ← regElem_val_of_lt hb]
  exact ⟨exec_of_setReg_ofFe (fieldBinary_of_lt Field.add ha hb) (Field.add_val _ _),
    exec_of_setReg_ofFe (fieldBinary_of_lt Field.sub ha hb) (Field.sub_val_eq_ite _ _),
    exec_of_setReg_ofFe (fieldBinary_of_lt Field.mul ha hb) (Field.mul_val _ _)⟩

/-- Settles O16: `FPOW5` needs a canonical operand, `FNORM` reads any container raw. -/
theorem powerAndNormalizeCommandResults : Obligations.PowerAndNormalizeCommandResults := by
  refine ⟨fun rd ra s ha => ?_, fun rd ra s => exec_of_setReg_ofFe (i := .fnorm rd ra) rfl (Field.normalize_val _)⟩
  rw [← regElem_val_of_lt ha]
  exact exec_of_setReg_ofFe (i := .fpow5 rd ra) (ruleFpow5_of_lt ha) (Field.pow5_val _)

/-- Settles O17: on canonical operands `FDIV` answers as `div` does on their FieldElements. -/
theorem divideCommandResult : Obligations.DivideCommandResult := by
  intro rd ra rb s ha hb
  rw [← regElem_val_of_lt ha, ← regElem_val_of_lt hb]
  refine ⟨fun hne => ?_, fun hzero => ?_⟩
  · have hdiv := Field.div_of_ne_zero (s.regElem ra.val) hne
    have hquot := Field.mul_of_div_eq_some hne hdiv
    exact ⟨_, Fin.isLt _, congrArg Fin.val hquot, exec_of_setReg_ofFe (i := .fdiv rd ra rb) (ruleFdiv_of_div_eq_some ha hb hdiv) rfl⟩
  · exact exec_of_error (i := .fdiv rd ra rb) (ruleFdiv_of_div_eq_none ha hb (Field.div_of_eq_zero _ hzero))

end Sys2Proof.Machine

/-! Proofs about 41_permutation: the slots after each layer of a round, the order of the rounds, and the command `PERM`. -/

namespace Sys2Proof.Machine

/-! ## The three steps of a round, slot by slot (R122, R123, R124) -/

theorem isFullRound_iff {t r : Nat} : isFullRound t r = true ↔ r < 4 ∨ 4 + partialRounds t ≤ r := by
  rw [isFullRound, Bool.or_eq_true, decide_eq_true_iff, decide_eq_true_iff]
  rfl

theorem getD_ark_val (T : Tables) (r : Nat) {S : List Fe} {i : Nat} (h : i < S.length) :
    ((ark T r S).getD i 0).val = ((S.getD i 0).val + (rcAt T (r * S.length + i)).val) % p := by
  rw [getD_ark T r S i h 0 0, Field.add_val]

theorem getD_sbox_val (r : Nat) {S : List Fe} {i : Nat} (h : i < S.length) :
    ((sbox r S).getD i 0).val =
      if (r < 4 ∨ 4 + partialRounds S.length ≤ r) ∨ i = 0 then (S.getD i 0).val ^ 5 % p else (S.getD i 0).val := by
  rw [getD_sbox r S i h 0 0, apply_ite Fin.val, Field.pow5_val]
  simp only [isFullRound_iff]

/-- The reductions inside a row do not show: in `ZMod p` both sides are the same sum of products. -/
theorem mixRow_val (T : Tables) (i : Nat) (S : List Fe) :
    (mixRow T i S).val = (∑ j ∈ Finset.range S.length, (mdsAt T i j).val * (S.getD j 0).val) % p := by
  have h : mixRow T i S = Field.reduce (∑ j ∈ Finset.range S.length, (mdsAt T i j).val * (S.getD j 0).val) := by
    apply Field.toZ_injective
    rw [toZ_mixRow T i S 0, Field.toZ_reduce, Nat.cast_sum]
    simp only [Nat.cast_mul, Field.toZ]
  rw [h, val_reduce]

/-- Settles O18, one step of the round at a time. -/
theorem roundLayerValues : Obligations.RoundLayerValues := by
  refine fun T r S => ⟨length_ark T r S, length_sbox r S, length_mix T S, fun i hi => ⟨getD_ark_val T r hi, getD_sbox_val r hi, ?_⟩⟩
  rw [getD_mix T S i hi, mixRow_val]

/-! ## The rounds and the widths (R120, R121, R7) -/

theorem permute_of_tables {c : Params} {s : List Fe} {T : Tables} (h : tablesFor c s.length = some T) :
    permute c s = .ok (permuteWith T s) := by
  rw [permute, requireWidth_some h, ok_bind, pure_eq_ok]

theorem permute_of_no_tables {c : Params} {s : List Fe} (h : tablesFor c s.length = none) :
    permute c s = .error { cause := .unsupportedWidth, info := BitVec.ofNat 32 s.length } := by
  rw [permute, requireWidth_none h, error_bind]

/-- Settles O19: the sequence of states is `roundsDone`, whose every step is one round. -/
theorem permutationRunsEveryRoundInOrder : Obligations.PermutationRunsEveryRoundInOrder := by
  refine ⟨fun T s => ⟨roundsDone T s, rfl, fun _ => rfl, length_roundsDone T s, permuteWith_eq T s⟩, rfl,
    fun _ _ => ⟨fun _ => permute_of_tables, permute_of_no_tables⟩, fun _ _ ht => ?_⟩
  obtain ⟨T, hT⟩ := Option.ne_none_iff_exists'.mp ht
  exact width_of_tables hT

/-! ## The command `PERM` (R127, R47) -/

/-- `PERM t` on canonical `x[0..t-1]` of a width with tables writes their permutation over them. -/
theorem rulePerm_of_canonical {t : Count} {s : State} {T : Tables} (hT : tablesFor s.params t.val = some T)
    (hc : ∀ k < t.val, s.regCanonical k) :
    rulePerm t s = .ok (s.setLowRegs ((permuteWith T ((List.range t.val).map s.regElem)).map ofFe)) := by
  have hread : s.feRegs 0 t.val = .ok ((List.range t.val).map s.regElem) := by
    simpa using feRegs_of_canonical (ra := 0) (groupFits_perm t) (by simpa using hc)
  rw [rulePerm, requireWidth_some hT, ok_bind, hread, ok_bind, pure_eq_ok]

/-- The whole register file after FieldElements are written over the lowest registers. -/
theorem x_setLowRegs_map_ofFe (s : State) (v : List Fe) :
    (s.setLowRegs (v.map ofFe)).x = Vector.ofFn fun i : Fin 16 => if i.val < v.length then ofFe (v.getD i.val 0) else s.reg i := by
  ext k hk : 1
  by_cases h : k < v.length
  · simp [h]
  · simp [h, State.reg]

/-- Settles O20: `permuteWith` keeps the width, so exactly `x[0..t-1]` are overwritten. -/
theorem permCommandResult : Obligations.PermCommandResult := by
  intro t s T hT hc
  have hx := x_setLowRegs_map_ofFe s (permuteWith T ((List.range t.val).map s.regElem))
  rw [length_permuteWith, List.length_map, List.length_range] at hx
  rw [← hx]
  exact exec_of_ok (i := .perm t) (rulePerm_of_canonical hT hc)

end Sys2Proof.Machine

/-! Proofs about 42_hash: the function `hash`, slot 0 of one permutation, and the command `HASH`. -/

namespace Sys2Proof.Machine

/-! ## The function `hash` (R140) -/

/-- A permuted state is as wide as the one it came from, so it has a slot 0, and the hash is what stands there. -/
theorem getElem?_zero_permuteWith (T : Tables) (v : List Fe) : (permuteWith T (0 :: v))[0]? = some (hashWith T v) := by
  have hpos : 0 < (permuteWith T (0 :: v)).length := by rw [length_permuteWith]; exact Nat.succ_pos _
  obtain ⟨a, r, hs⟩ := List.exists_cons_of_length_pos hpos
  have hhash : hashWith T v = a := congrArg (List.headD · (Field.reduce 0)) hs
  rw [hs, hhash, List.getElem?_cons_zero]

theorem hash_of_tables {c : Params} {v : List Fe} {T : Tables} (h : tablesFor c (v.length + 1) = some T) :
    hash c v = .ok (hashWith T v) := by
  rw [hash, requireWidth_some h, ok_bind, pure_eq_ok]

theorem hash_of_no_tables {c : Params} {v : List Fe} (h : tablesFor c (v.length + 1) = none) :
    hash c v = .error { cause := .unsupportedWidth, info := BitVec.ofNat 32 (v.length + 1) } := by
  rw [hash, requireWidth_none h, error_bind]

theorem tablesFor_of_width_out_of_range {c : Params} {t : Nat} (h : t < 2 ∨ 9 < t) : tablesFor c t = none := by
  refine Option.eq_none_iff_forall_ne_some.mpr fun T hT => ?_
  have hwidth := width_of_tables hT
  omega

/-- Settles O21: with tables the permutation has a slot 0, without them `hash` stops at the width, and only widths 2 to 9 have them. -/
theorem hashIsSlotZeroOfThePermutation : Obligations.HashIsSlotZeroOfThePermutation :=
  fun _ v => ⟨fun T hT => ⟨length_permuteWith T (0 :: v), hashWith T v, hash_of_tables hT, getElem?_zero_permuteWith T v⟩,
    hash_of_no_tables, fun hlen => tablesFor_of_width_out_of_range (by omega)⟩

/-! ## The command `HASH` (R141, R47) -/

/-- `HASH rd, ra, n` on a canonical group that fits, of a width with tables, writes the hash of the group to `x[rd]`. -/
theorem ruleHash_of_canonical {rd ra : Reg} {n : Count} {s : State} {T : Tables} (hg : groupFits ra n.val = true)
    (hT : tablesFor s.params (n.val + 1) = some T) (hc : ∀ j < n.val, s.regCanonical (ra.val + j)) :
    ruleHash rd ra n s = .ok (s.setReg rd (ofFe (hashWith T ((List.range n.val).map fun j => s.regElem (ra.val + j))))) := by
  rw [ruleHash, requireFits_of_fits hg, ok_bind, requireWidth_some hT, ok_bind, feRegs_of_canonical hg hc, ok_bind, pure_eq_ok]

/-- Settles O22: the rule reads the group before its one write, so `rd` may be a register of the group. -/
theorem hashCommandResult : Obligations.HashCommandResult := by
  intro rd ra n s T hfit hT hc
  have hg : groupFits ra n.val = true := by simp [groupFits, hfit]
  rw [List.getD_eq_getElem?_getD, getElem?_zero_permuteWith, Option.getD_some]
  exact exec_of_ok (i := .hash rd ra n) (ruleHash_of_canonical hg hT hc)

end Sys2Proof.Machine

/-! Proofs about 43_cipher: the initial state, the block schedule of `encrypt` and `decrypt`, the round trip, and the commands `CENC`,
`CDEC` and `CCHK`. -/

namespace Sys2Proof.Machine

/-! ## The initial state (R153) -/

theorem reduce_of_lt {n : Nat} (h : n < p) : (Field.reduce n).val = n := (val_reduce n).trans (Nat.mod_eq_of_lt h)

/-- `L * 2^128 < 2^160 < p`. -/
theorem mul_two_pow_128_lt {L : Nat} (h : L < 2 ^ 32) : L * 2 ^ 128 < p := by
  simp only [p]
  omega

/-- The product of slot 0 is exact. -/
theorem mul_reduce_two_pow_128_val {L : Nat} (h : L < 2 ^ 32) :
    (Field.mul (Field.reduce L) (Field.reduce (2 ^ 128))).val = L * 2 ^ 128 := by
  rw [Field.mul_val, reduce_of_lt (h.trans (by decide)), reduce_of_lt (by decide), Nat.mod_eq_of_lt (mul_two_pow_128_lt h)]

/-- Settles O23: the product is exact, so the one reduction is that of the sum. -/
theorem cipherInitialStateValue : Obligations.CipherInitialStateValue := by
  refine fun k nonce L h => ⟨mul_two_pow_128_lt h, ?_⟩
  have hslot : (Field.add nonce (Field.mul (Field.reduce L) (Field.reduce (2 ^ 128)))).val = (nonce.val + L * 2 ^ 128) % p := by
    rw [Field.add_val, mul_reduce_two_pow_128_val h]
  simp only [cinit, List.map_cons, List.map_nil, hslot, val_reduce, Nat.zero_mod]

/-! ## The states of the block loop (R152, R154, R155)

Both loops replace the rate slots by ciphertext words, so the states depend on the ciphertext alone. -/

/-- The state after a block whose ciphertext words are `c`. -/
def absorb (T : Tables) (S c : List Fe) : List Fe := permuteWith T (withRate S c)

/-- The state before block `b` of a ciphertext whose blocks are `cs`. -/
def stateBefore (T : Tables) (S : List Fe) (cs : List (List Fe)) (b : Nat) : List Fe := (cs.take b).foldl (absorb T) S

theorem stateBefore_zero (T : Tables) (S : List Fe) (cs : List (List Fe)) : stateBefore T S cs 0 = S := by
  rw [stateBefore, List.take_zero, List.foldl_nil]

theorem stateBefore_succ (T : Tables) (S : List Fe) {cs : List (List Fe)} {b : Nat} {c : List Fe} (h : cs[b]? = some c) :
    stateBefore T S cs (b + 1) = absorb T (stateBefore T S cs b) c := by
  simp [stateBefore, List.take_add_one, h]

theorem length_foldl_absorb (T : Tables) {S : List Fe} (hS : S.length = 5) {cs : List (List Fe)} (hcs : ∀ c ∈ cs, c.length = 3) :
    (cs.foldl (absorb T) S).length = 5 := by
  induction cs generalizing S with
  | nil => exact hS
  | cons c cs ih =>
    obtain ⟨hc, hcs⟩ := List.forall_mem_cons.mp hcs
    exact ih (length_next hS hc) hcs

theorem length_stateBefore (T : Tables) {S : List Fe} (hS : S.length = 5) {cs : List (List Fe)} (hcs : ∀ c ∈ cs, c.length = 3)
    (b : Nat) : (stateBefore T S cs b).length = 5 :=
  length_foldl_absorb T hS fun c hc => hcs c (List.mem_of_mem_take hc)

/-- The five slots after a block: the capacity slots stayed, the rate slots took the ciphertext words, then all were permuted. -/
theorem absorb_eq (T : Tables) {S : List Fe} (h : S.length = 5) (x y z : Fe) :
    absorb T S [x, y, z] = permuteWith T [S.getD 0 0, S.getD 1 0, x, y, z] := by
  match S, h with
  | [_, _, _, _, _], _ => rfl

theorem decryptBlocks_snd (T : Tables) (S : List Fe) (cs : List (List Fe)) :
    (decryptBlocks T S cs).2 = stateBefore T S cs cs.length := by
  rw [stateBefore, List.take_length]
  induction cs generalizing S with
  | nil => rfl
  | cons c cs ih => exact ih _

theorem getD_zipWith_sub {c S : List Fe} (hc : c.length = 3) (hS : S.length = 5) {j : Nat} (hj : j < 3) :
    (List.zipWith Field.sub c (rateSlots S)).getD j 0 = Field.sub (c.getD j 0) (S.getD (2 + j) 0) := by
  have h1 : j < c.length := hc ▸ hj
  have h2 : j < (rateSlots S).length := length_rateSlots hS ▸ hj
  have h3 : 2 + j < S.length := by omega
  rw [List.getD_eq_getElem _ _ (by simp [h1, h2]), List.getElem_zipWith, List.getD_eq_getElem _ _ h1, List.getD_eq_getElem _ _ h3]
  simp only [rateSlots, List.getElem_drop]

/-- Word `j` of block `b` that `decrypt` recovers, padding words among them. -/
theorem getD_decryptBlocks (T : Tables) {S : List Fe} (hS : S.length = 5) {cs : List (List Fe)} (hcs : ∀ c ∈ cs, c.length = 3)
    {b : Nat} {c : List Fe} (hb : cs[b]? = some c) {j : Nat} (hj : j < 3) :
    (decryptBlocks T S cs).1.getD (3 * b + j) 0 = Field.sub (c.getD j 0) ((stateBefore T S cs b).getD (2 + j) 0) := by
  induction cs generalizing S b with
  | nil => simp at hb
  | cons d cs ih =>
    obtain ⟨hd, hcs⟩ := List.forall_mem_cons.mp hcs
    have hlen : (List.zipWith Field.sub d (rateSlots S)).length = 3 := by simp [hd, length_rateSlots hS]
    cases b with
    | zero =>
      obtain rfl : d = c := by simpa using hb
      rw [decryptBlocks, Nat.mul_zero, Nat.zero_add, List.getD_append _ _ _ _ (by omega)]
      exact getD_zipWith_sub hd hS hj
    | succ b =>
      have hidx : 3 * (b + 1) + j - 3 = 3 * b + j := by omega
      rw [decryptBlocks, List.getD_append_right _ _ _ _ (by omega), hlen, hidx]
      exact ih (length_next hS hd) hcs (by simpa using hb)

theorem getElem?_blocks (m : List Fe) {b : Nat} (h : b < blockCount m.length) :
    (blocks m)[b]? = some [m.getD (3 * b) 0, m.getD (3 * b + 1) 0, m.getD (3 * b + 2) 0] := by
  induction m using blocks.induct generalizing b with
  | case1 => simp [blockCount] at h
  | case2 x | case3 x y =>
    obtain rfl : b = 0 := by simpa [blockCount] using h
    rfl
  | case4 x y z m ih =>
    cases b with
    | zero => rfl
    | succ b =>
      have hb : b < blockCount m.length := by
        simp only [blockCount, List.length_cons] at h ⊢
        omega
      exact ih hb

/-! ## One schedule for both directions (R154, R155) -/

/-- The blocks `decrypt` takes from a ciphertext: all words but the tag. -/
def cipherBlocks (ct : List Fe) (L : Nat) : List (List Fe) := blocks (ct.take (3 * blockCount L))

theorem length_of_mem_cipherBlocks {ct c : List Fe} {L : Nat} (h : c ∈ cipherBlocks ct L) : c.length = 3 := length_of_mem_blocks h

/-- The state before block `b`. -/
def cipherState (T : Tables) (ct : List Fe) (k : Key) (nonce : Fe) (L b : Nat) : List Fe :=
  stateBefore T (permuteWith T (cinit k nonce L)) (cipherBlocks ct L) b

/-- The words that `decrypt` recovers, before the padding is dropped. -/
def paddedPlain (T : Tables) (ct : List Fe) (k : Key) (nonce : Fe) (L : Nat) : List Fe :=
  (decryptBlocks T (permuteWith T (cinit k nonce L)) (cipherBlocks ct L)).1

theorem cipherState_zero (T : Tables) (ct : List Fe) (k : Key) (nonce : Fe) (L : Nat) :
    cipherState T ct k nonce L 0 = permuteWith T (cinit k nonce L) := stateBefore_zero T _ _

theorem length_permuteWith_cinit (T : Tables) (k : Key) (nonce : Fe) (L : Nat) : (permuteWith T (cinit k nonce L)).length = 5 := by
  rw [length_permuteWith, length_cinit]

section
variable (T : Tables) {ct : List Fe} (k : Key) (nonce : Fe) {L : Nat} (hct : ct.length = 3 * blockCount L + 1)
include hct

theorem length_cipherBlocks : (cipherBlocks ct L).length = blockCount L := by
  rw [cipherBlocks, length_blocks, List.length_take, hct]
  simp only [blockCount]
  omega

theorem getElem?_cipherBlocks {b : Nat} (hb : b < blockCount L) :
    (cipherBlocks ct L)[b]? = some [ct.getD (3 * b) 0, ct.getD (3 * b + 1) 0, ct.getD (3 * b + 2) 0] := by
  have hcount : b < blockCount (ct.take (3 * blockCount L)).length := by
    rw [← length_blocks]
    exact (length_cipherBlocks hct).symm ▸ hb
  have htake : ∀ i < 3 * blockCount L, (ct.take (3 * blockCount L)).getD i 0 = ct.getD i 0 := fun i hi => by
    simp [hi]
  rw [cipherBlocks, getElem?_blocks _ hcount, htake _ (by omega), htake _ (by omega), htake _ (by omega)]

theorem cipherState_succ {b : Nat} (hb : b < blockCount L) :
    cipherState T ct k nonce L (b + 1) = permuteWith T [(cipherState T ct k nonce L b).getD 0 0, (cipherState T ct k nonce L b).getD 1 0,
      ct.getD (3 * b) 0, ct.getD (3 * b + 1) 0, ct.getD (3 * b + 2) 0] := by
  rw [cipherState, stateBefore_succ T _ (getElem?_cipherBlocks hct hb)]
  exact absorb_eq T (length_stateBefore T (length_permuteWith_cinit T k nonce L) (fun _ => length_of_mem_cipherBlocks) b) _ _ _

theorem getD_paddedPlain {b j : Nat} (hb : b < blockCount L) (hj : j < 3) :
    (paddedPlain T ct k nonce L).getD (3 * b + j) 0 =
      Field.sub (ct.getD (3 * b + j) 0) ((cipherState T ct k nonce L b).getD (2 + j) 0) := by
  have hword : [ct.getD (3 * b) 0, ct.getD (3 * b + 1) 0, ct.getD (3 * b + 2) 0].getD j 0 = ct.getD (3 * b + j) 0 := by
    match j, hj with
    | 0, _ | 1, _ | 2, _ => rfl
  rw [paddedPlain, getD_decryptBlocks T (length_permuteWith_cinit T k nonce L) (fun _ => length_of_mem_cipherBlocks)
    (getElem?_cipherBlocks hct hb) hj, hword]
  rfl

theorem decrypt_tag : (decrypt T ct k nonce L).tag = (cipherState T ct k nonce L (blockCount L)).getD 2 0 := by
  have hstate := decryptBlocks_snd T (permuteWith T (cinit k nonce L)) (cipherBlocks ct L)
  rw [length_cipherBlocks hct] at hstate
  exact congrArg tagOf hstate

/-- The tag matches exactly when it is the last ciphertext word. -/
theorem decrypt_ok_iff : (decrypt T ct k nonce L).ok = true ↔ (decrypt T ct k nonce L).tag = ct.getD (3 * blockCount L) 0 := by
  have hlast : ct[3 * blockCount L]? = some (ct.getD (3 * blockCount L) 0) := by simp [hct]
  have hok : (decrypt T ct k nonce L).ok = (ct[3 * blockCount L]? == some (decrypt T ct k nonce L).tag) := rfl
  rw [hok, hlast, beq_iff_eq, Option.some.injEq, eq_comm]

end

/-- Settles O60: the states are `cipherState`, and the plaintext is `paddedPlain` cut to `L` words. -/
theorem decryptionFollowsTheSchedule : Obligations.DecryptionFollowsTheSchedule := by
  intro T ct k nonce L nb d hct
  refine ⟨length_plain k nonce L hct, cipherState T ct k nonce L, cipherState_zero T ct k nonce L,
    fun b hb => cipherState_succ T k nonce hct hb, fun b j hj hL => ?_, decrypt_tag T k nonce hct, decrypt_ok_iff T k nonce hct⟩
  have hb : b < blockCount L := by
    simp only [blockCount]
    omega
  have hcut : d.plain.getD (3 * b + j) 0 = (paddedPlain T ct k nonce L).getD (3 * b + j) 0 := by
    change ((paddedPlain T ct k nonce L).take L).getD (3 * b + j) 0 = _
    simp [hL]
  rw [hcut, getD_paddedPlain T k nonce hct hb hj]

/-! ## Decryption of an encryption (R154, R157, R163, R164) -/

section
variable (T : Tables) (msg : List Fe) (k : Key) (nonce : Fe)

/-- The ciphertext without its tag. -/
theorem take_encrypt : (encrypt T msg k nonce).take (3 * blockCount msg.length) =
    (encryptBlocks T (permuteWith T (cinit k nonce msg.length)) (blocks msg)).1 := by
  have hlen := length_encryptBlocks T (length_permuteWith_cinit T k nonce msg.length) (bs := blocks msg) fun _ => length_of_mem_blocks
  rw [length_blocks] at hlen
  rw [← hlen]
  exact List.take_left

/-- The decryptor's loop on an encryption recovers the padded message and ends in the encryptor's state. -/
theorem decryptBlocks_encrypt :
    decryptBlocks T (permuteWith T (cinit k nonce msg.length)) (cipherBlocks (encrypt T msg k nonce) msg.length) =
      ((blocks msg).flatten, (encryptBlocks T (permuteWith T (cinit k nonce msg.length)) (blocks msg)).2) := by
  rw [cipherBlocks, take_encrypt]
  exact decryptBlocks_encryptBlocks T (length_permuteWith_cinit T k nonce msg.length) fun _ => length_of_mem_blocks

/-- A message word past the end reads 0 (R151). -/
theorem getD_paddedPlain_encrypt (i : Nat) :
    (paddedPlain T (encrypt T msg k nonce) k nonce msg.length).getD i 0 = msg.getD i 0 := by
  rw [paddedPlain, decryptBlocks_encrypt, flatten_blocks]
  rcases Nat.lt_or_ge i msg.length with h | h
  · exact List.getD_append _ _ _ _ h
  · rw [List.getD_append_right _ _ _ _ h, List.getD_eq_default _ _ h]
    simp only [List.getD_eq_getElem?_getD, List.getElem?_replicate]
    split <;> rfl

theorem decrypt_encrypt_plain : (decrypt T (encrypt T msg k nonce) k nonce msg.length).plain = msg := by
  change (decryptBlocks T _ (cipherBlocks _ _)).1.take msg.length = msg
  rw [decryptBlocks_encrypt, take_flatten_blocks]

theorem decrypt_encrypt_tag : (decrypt T (encrypt T msg k nonce) k nonce msg.length).tag =
    tagOf (encryptBlocks T (permuteWith T (cinit k nonce msg.length)) (blocks msg)).2 := by
  change tagOf (decryptBlocks T _ (cipherBlocks _ _)).2 = _
  rw [decryptBlocks_encrypt]

/-- The appended word of an encryption is the tag recomputed from it. -/
theorem getLast?_encrypt :
    (encrypt T msg k nonce).getLast? = some (decrypt T (encrypt T msg k nonce) k nonce msg.length).tag := by
  rw [decrypt_encrypt_tag]
  exact List.getLast?_concat

theorem getD_encrypt_last : (encrypt T msg k nonce).getD (3 * blockCount msg.length) 0 =
    (decrypt T (encrypt T msg k nonce) k nonce msg.length).tag := by
  have hlast := getLast?_encrypt T msg k nonce
  rw [List.getLast?_eq_getElem?, length_encrypt, Nat.add_sub_cancel] at hlast
  rw [List.getD_eq_getElem?_getD, hlast, Option.getD_some]

theorem decrypt_encrypt_ok : (decrypt T (encrypt T msg k nonce) k nonce msg.length).ok = true :=
  (decrypt_ok_iff T k nonce (length_encrypt T msg k nonce)).mpr (getD_encrypt_last T msg k nonce).symm

/-- For one key, nonce and length, encryption tells messages apart: decryption gives each back. -/
theorem eq_of_encrypt_eq {msg' : List Fe} (hlen : msg'.length = msg.length) (h : encrypt T msg' k nonce = encrypt T msg k nonce) :
    msg' = msg := by
  rw [← decrypt_encrypt_plain T msg' k nonce, h, hlen, decrypt_encrypt_plain]

end

/-- Settles O24: the encryptor's states are the decryptor's, and adding back the rate slot the decryptor took away gives the ciphertext
word. -/
theorem encryptionFollowsTheSchedule : Obligations.EncryptionFollowsTheSchedule := by
  intro T msg k nonce nb ct
  have hct : ct.length = 3 * blockCount msg.length + 1 := length_encrypt T msg k nonce
  refine ⟨hct, cipherState T ct k nonce msg.length, cipherState_zero T ct k nonce msg.length,
    fun b hb => ⟨fun j hj => ?_, cipherState_succ T k nonce hct hb⟩, ?_⟩
  · rw [← getD_paddedPlain_encrypt T msg k nonce, getD_paddedPlain T k nonce hct hb hj, Field.add_comm, Field.add_sub_cancel]
  · exact (getD_encrypt_last T msg k nonce).trans (decrypt_tag T k nonce hct)

/-- Settles O25: the decryptor's loop follows the encryptor's state by state. -/
theorem cipherRoundTripRecoversMessage : Obligations.CipherRoundTripRecoversMessage :=
  fun T msg k nonce =>
    ⟨decrypt_encrypt_plain T msg k nonce, decrypt_encrypt_ok T msg k nonce, getLast?_encrypt T msg k nonce⟩

theorem check_eq_decide (T : Tables) (ct msg : List Fe) (k : Key) (nonce : Fe) :
    check T ct msg k nonce = decide (ct = encrypt T msg k nonce) := by
  rw [check, Bool.beq_comm, beq_eq_decide]

/-- Settles O26: a message that passes the check has the same encryption, so it is the same message. -/
theorem tamperedMessageFailsCheck : Obligations.TamperedMessageFailsCheck := by
  refine fun T msg k nonce => ⟨beq_self_eq_true _, fun msg' hlen hne => ?_⟩
  exact beq_eq_false_iff_ne.mpr fun h => hne (eq_of_encrypt_eq T msg k nonce hlen h)

/-! ## FieldElements in registers and words (R9, R21, R62) -/

theorem getD_elems (s : State) (base : Nat) {n j : Nat} (h : j < n) :
    (s.elems base n).getD j 0 = Field.reduce (s.word (base + j)).toNat := by
  simp [State.elems, h]

/-- A canonical container is the one that holds its FieldElement. -/
theorem ofFe_reduce_toNat {v : Container} (h : v.toNat < p) : ofFe (Field.reduce v.toNat) = v := by
  apply BitVec.eq_of_toNat_eq
  rw [toNat_ofFe, reduce_of_lt h]

theorem ofFe_injective {a b : Fe} (h : ofFe a = ofFe b) : a = b := by
  apply Fin.ext
  rw [← toNat_ofFe a, h, toNat_ofFe]

theorem ofFe_getD_elems {s : State} {base n j : Nat} (hj : j < n) (hc : s.wordCanonical (base + j)) :
    ofFe ((s.elems base n).getD j 0) = s.word (base + j) := by
  rw [getD_elems s base hj, ofFe_reduce_toNat hc]

theorem elems_eq_of_word_eq_ofFe {s : State} {base : Nat} {v : List Fe} (h : ∀ j < v.length, s.word (base + j) = ofFe (v.getD j 0)) :
    s.elems base v.length = v := by
  apply List.ext_getElem
  · exact length_elems s base v.length
  · intro j hj hv
    simp [State.elems, h j hv, toNat_ofFe, reduce_val, hv]

theorem regElem_congr {s t : State} (h : t.x = s.x) (k : Nat) : t.regElem k = s.regElem k := by rw [State.regElem, State.regElem, h]

theorem regCanonical_congr {s t : State} (h : t.x = s.x) (k : Nat) : t.regCanonical k ↔ s.regCanonical k := by
  rw [State.regCanonical, State.regCanonical, h]

theorem keyAt_congr {s t : State} (h : t.x = s.x) (ra : Reg) : keyAt t ra = keyAt s ra := by
  rw [keyAt, keyAt, regElem_congr h, regElem_congr h]

theorem word_writeWords_map_ofFe (s : State) (a : Nat) {v : List Fe} {j : Nat} (h : j < v.length) :
    (s.writeWords a (v.map ofFe)).word (a + j) = ofFe (v.getD j 0) := by
  rw [State.word_writeWords_inside s a j (v.map ofFe) (by simpa using h), List.getElem_map, List.getD_eq_getElem v 0 h]

/-! ## The cipher commands (R160, R161, R162) -/

/-- The width check and the group check of a cipher command pass as the statements ask, and no other check stands between. -/
theorem ruleOf_of_width_five {i : Instr} {s : State} {T : Tables} (hi : widthOf i = some 5) (hwf : i.wellFormed = true)
    (hT : tablesFor s.params 5 = some T) (hr : regionsOk s i) (ho : operandsOk s i) : ruleOf i s = outcomeOf s i := by
  refine ruleOf_of_checks hwf (checks_pass_iff.mpr ⟨fun t ht => ?_, fun h => ?_, fun h => ?_, hr, ho⟩)
  · obtain rfl : 5 = t := Option.some.inj (hi.symm.trans ht)
    simp [hT]
  · rcases h with rfl | ⟨rd, ra, rfl⟩ <;> simp [widthOf] at hi
  · subst h
    simp [widthOf] at hi

theorem groupFits_two_iff {ra : Reg} : groupFits ra 2 = true ↔ ra ≠ 15 := by
  rw [← Bool.not_eq_false, not_congr groupFits_two_eq_false_iff]

section
variable {s : State} {ra rb : Reg} {T : Tables} (hra : ra ≠ 15) (hT : tablesFor s.params 5 = some T)
include hra hT

theorem ruleCenc_of_ok (hr : regionsOk s (.cenc ra rb)) (ho : operandsOk s (.cenc ra rb)) :
    ruleOf (.cenc ra rb) s = .ok (s.writeWords s.dst.toNat
      ((encrypt T (s.elems s.src.toNat s.len.toNat) (keyAt s ra) (s.regElem rb.val)).map ofFe)) := by
  have hwf : (Instr.cenc ra rb).wellFormed = true := groupFits_two_iff.mpr hra
  rw [ruleOf_of_width_five rfl hwf hT hr ho, outcomeOf, tablesOr_some hT]

theorem ruleCdec_of_ok {rd : Reg} (hr : regionsOk s (.cdec rd ra rb)) (ho : operandsOk s (.cdec rd ra rb)) {d : Decrypted}
    (hd : decrypt T (s.elems s.src.toNat (3 * blockCount s.len.toNat + 1)) (keyAt s ra) (s.regElem rb.val) s.len.toNat = d) :
    ruleOf (.cdec rd ra rb) s = .ok (((s.writeWords s.dst.toNat (d.plain.map ofFe)).setReg rd (ofFe d.tag)).setEq d.ok) := by
  have hwf : (Instr.cdec rd ra rb).wellFormed = true := groupFits_two_iff.mpr hra
  subst hd
  rw [ruleOf_of_width_five rfl hwf hT hr ho, outcomeOf, tablesOr_some hT]

theorem ruleCchk_of_ok (hr : regionsOk s (.cchk ra rb)) (ho : operandsOk s (.cchk ra rb)) :
    ruleOf (.cchk ra rb) s = .ok (s.setEq (check T (s.elems s.aux.toNat (3 * blockCount s.len.toNat + 1))
      (s.elems s.src.toNat s.len.toNat) (keyAt s ra) (s.regElem rb.val))) := by
  have hwf : (Instr.cchk ra rb).wellFormed = true := groupFits_two_iff.mpr hra
  rw [ruleOf_of_width_five rfl hwf hT hr ho, outcomeOf, tablesOr_some hT]

end

/-- Settles O27: the encryption is written over the write region, whose length is that of a ciphertext. -/
theorem encryptCommandResult : Obligations.EncryptCommandResult := by
  intro ra rb s T hra hT hr ho n ct
  have hrule := ruleCenc_of_ok hra hT hr ho
  obtain ⟨-, -, houtcome⟩ := ruleOf_ok hrule
  have hlen : ct.length = n := (length_encrypt ..).trans (by rw [length_elems]; rfl)
  refine ⟨_, exec_of_ok hrule, rfl, fun j hj => ?_, fun a ha => (word_of_outcome houtcome a).trans (outcomeOf_word houtcome ha)⟩
  exact (word_of_outcome houtcome _).trans (word_writeWords_map_ofFe s _ (hlen ▸ hj))

/-- Settles O28: the plaintext is written over the write region, and the tag in `x[rd]` is the last ciphertext word as a container
exactly when it is as a FieldElement. -/
theorem decryptCommandResult : Obligations.DecryptCommandResult := by
  intro rd ra rb s T hra hT hr ⟨hregs, hwords⟩ d
  have hrule := ruleCdec_of_ok hra hT hr ⟨hregs, hwords⟩ (d := d) rfl
  obtain ⟨-, -, houtcome⟩ := ruleOf_ok hrule
  have hct := length_elems s s.src.toNat (3 * blockCount s.len.toNat + 1)
  have hlen : d.plain.length = s.len.toNat := length_plain _ _ _ hct
  have hlast : s.wordCanonical (s.src.toNat + 3 * blockCount s.len.toNat) :=
    hwords _ (List.mem_map_of_mem (List.mem_range.mpr (Nat.lt_succ_self _)))
  refine ⟨_, exec_of_ok hrule, rfl, ?_, fun j hj => ?_, fun a ha => (word_of_outcome houtcome a).trans (outcomeOf_word houtcome ha)⟩
  · change d.ok = true ↔ (s.setReg rd (ofFe d.tag)).reg rd = s.word (s.src.toNat + 3 * blockCount s.len.toNat)
    rw [State.reg_setReg_same, ← ofFe_getD_elems (Nat.lt_succ_self _) hlast]
    exact (decrypt_ok_iff T _ _ hct).trans ⟨congrArg ofFe, fun h => ofFe_injective h⟩
  · exact (word_of_outcome houtcome _).trans (word_writeWords_map_ofFe s _ (hlen.symm ▸ hj))

/-- Settles O29: the rule's one write is `EQ`, and `check` compares the two ciphertexts word for word. -/
theorem checkCommandResult : Obligations.CheckCommandResult := by
  intro ra rb s T hra hT hr ho
  have hrule := ruleCchk_of_ok hra hT hr ho
  rw [check_eq_decide] at hrule
  exact exec_of_ok hrule

/-! ## `CENC`, then `CDEC` (R160, R161, R163) -/

/-- A command that ended without a cause passed its checks. -/
theorem ok_of_cause_none {i : Instr} {s t : State} (h : exec i s = .next t) (hc : t.cause = none) : ∃ s', ruleOf i s = .ok s' := by
  rcases exec_cases i s with ⟨s', hr, -⟩ | ⟨e, -, he⟩
  · exact ⟨s', hr⟩
  · rw [he] at h
    cases h
    cases hc

/-- `CDEC` where `SRC` holds an encryption under the registers' key and nonce gives the message back (R163). -/
theorem exec_cdec_of_encryption {s : State} {T : Tables} {rd ra rb : Reg} {msg : List Fe} (hra : ra ≠ 15)
    (hT : tablesFor s.params 5 = some T) (hr : regionsOk s (.cdec rd ra rb))
    (hregs : ∀ k ∈ operandRegs (.cdec rd ra rb), s.regCanonical k) (hlen : s.len.toNat = msg.length)
    (hct : ∀ j < 3 * blockCount msg.length + 1,
      s.word (s.src.toNat + j) = ofFe ((encrypt T msg (keyAt s ra) (s.regElem rb.val)).getD j 0)) :
    ∃ u, exec (.cdec rd ra rb) s = .next u ∧ u.cause = none ∧ u.status.eq = true ∧
      ∀ j < msg.length, u.word (s.dst.toNat + j) = ofFe (msg.getD j 0) := by
  have hn : (encrypt T msg (keyAt s ra) (s.regElem rb.val)).length = 3 * blockCount msg.length + 1 := length_encrypt ..
  have helems : s.elems s.src.toNat (3 * blockCount s.len.toNat + 1) = encrypt T msg (keyAt s ra) (s.regElem rb.val) := by
    rw [hlen, ← hn]
    exact elems_eq_of_word_eq_ofFe (hn ▸ hct)
  have hwords : ∀ a ∈ operandWords s (.cdec rd ra rb), s.wordCanonical a := fun a ha => by
    obtain ⟨j, hj, rfl⟩ := List.mem_map.mp ha
    rw [State.wordCanonical, hct j (hlen ▸ List.mem_range.mp hj)]
    exact toNat_ofFe_lt _
  have hrule := ruleCdec_of_ok hra hT hr ⟨hregs, hwords⟩ (by rw [helems, hlen])
  rw [decrypt_encrypt_plain, decrypt_encrypt_ok] at hrule
  obtain ⟨-, -, houtcome⟩ := ruleOf_ok hrule
  refine ⟨_, exec_of_ok hrule, rfl, rfl, fun j hj => ?_⟩
  exact (word_of_outcome houtcome _).trans (word_writeWords_map_ofFe s _ hj)

/-- Settles O30: `CENC` leaves its encryption at `DST` and the key, nonce and `LEN` as they were, so `CDEC` decrypts an encryption. -/
theorem encryptThenDecryptCommands : Obligations.EncryptThenDecryptCommands := by
  intro s t rd ra rb out hexec hcause hfits
  obtain ⟨s', hrule⟩ := ok_of_cause_none hexec hcause
  obtain ⟨hwf, hchecks, -⟩ := ruleOf_ok hrule
  obtain ⟨hwidth, -, -, hregions, hregs, hwords⟩ := checks_pass_iff.mp hchecks
  obtain ⟨T, hT⟩ := Option.ne_none_iff_exists'.mp (hwidth 5 rfl)
  have hra : ra ≠ 15 := groupFits_two_iff.mp hwf
  obtain ⟨t', hexec', ht, hct, -⟩ := encryptCommandResult ra rb s T hra hT hregions ⟨hregs, hwords⟩
  obtain rfl : t = t' := Host.Outcome.next.inj (hexec.symm.trans hexec')
  let t₁ : State := { t with src := s.dst, dst := out }
  have hx : t₁.x = s.x := (congrArg State.x ht).trans rfl
  have hlen : t₁.len = s.len := (congrArg State.len ht).trans rfl
  have hparams : t₁.params = s.params := (congrArg State.params ht).trans rfl
  have hmsg : s.len.toNat = (s.elems s.src.toNat s.len.toNat).length := (length_elems ..).symm
  have hregions₁ : regionsOk t₁ (.cdec rd ra rb) := by
    have hciphertext : regionFits s.params (s.dst.toNat, 3 * blockCount s.len.toNat + 1) := hregions _ (by simp [regionsOf])
    simpa [regionsOk, regionsOf, hlen, hparams] using And.intro hciphertext hfits
  have hregs₁ : ∀ k ∈ operandRegs (.cdec rd ra rb), t₁.regCanonical k := fun k hk => (regCanonical_congr hx k).mpr (hregs k hk)
  obtain ⟨u, hu, hucause, hueq, huwords⟩ := exec_cdec_of_encryption (s := t₁) (msg := s.elems s.src.toNat s.len.toNat) hra
    (hparams ▸ hT) hregions₁ hregs₁ (hlen ▸ hmsg) (by
      rw [← hmsg, keyAt_congr hx, regElem_congr hx]
      exact hct)
  refine ⟨u, hu, hucause, hueq, fun j hj => (huwords j (hmsg ▸ hj)).trans (ofFe_getD_elems hj (hwords _ ?_))⟩
  exact List.mem_map_of_mem (List.mem_range.mpr hj)

end Sys2Proof.Machine

/-! Proofs about 44_merkle: the layers of the tree, the search for a leaf, the path and its replay, and the commands `MBUILD`, `MROOT`,
`MPATH` and `MFOLD`. -/

namespace Sys2Proof.Machine

/-! ## The node hash and the layers (R142, R182, R183, R197) -/

theorem hash2_eq_getD_zero (T : Tables) (l r : Fe) : hash2 T l r = (permuteWith T [0, l, r]).getD 0 0 := by
  rw [List.getD_eq_getElem?_getD, getElem?_zero_permuteWith, Option.getD_some, hash2]

/-- Node `i` of the layer above, with the one case in which a default stands in. -/
theorem getD_nextLayer (T : Tables) (z : Fe) (l : List Fe) {i : Nat} (h : i < (nextLayer T z l).length) :
    (nextLayer T z l).getD i 0 = hash2 T (l.getD (2 * i) 0) (if 2 * i + 1 < l.length then l.getD (2 * i + 1) 0 else z) := by
  have hleft : 2 * i < l.length := by rw [length_nextLayer] at h; omega
  rw [List.getD_eq_getElem?_getD, getElem?_nextLayer]
  by_cases hright : 2 * i + 1 < l.length
  · simp [hleft, hright]
  · simp [hleft, hright]

/-- Settles O31, each layer from the one below it. -/
theorem layersFollowThePairingRule : Obligations.LayersFollowThePairingRule :=
  fun T z0 leaves L => ⟨fun l r => ⟨hash2_eq_getD_zero T l r, fun _ => hash_of_tables (v := [l, r])⟩, rfl, fun _ => rfl, rfl,
    length_layer T z0 leaves L, length_nextLayer T (zeroAt T z0 L) (layer T z0 leaves L),
    fun _ => getD_nextLayer T (zeroAt T z0 L) (layer T z0 leaves L)⟩

/-- Settles O34, by induction on the layer: the two nodes below node `i` share out its leaves. -/
theorem subtreeDependsOnItsOwnLeaves : Obligations.SubtreeDependsOnItsOwnLeaves := by
  intro T z0 leaves leaves' L
  induction L with
  | zero => exact fun i h => h i (by omega) (by omega)
  | succ L ih =>
    intro i h
    rw [pow_succ'] at h
    have hleft := ih (2 * i) fun j _ _ => h j (by linarith) (by linarith)
    have hright := ih (2 * i + 1) fun j _ _ => h j (by linarith) (by linarith)
    rw [layer, layer, getElem?_nextLayer, getElem?_nextLayer, hleft, hright]

theorem treeRoot_eq_getD (T : Tables) (z0 : Fe) (levels : Nat) (leaves : List Fe) :
    treeRoot T z0 levels leaves = (layer T z0 leaves levels).getD 0 (zeroAt T z0 levels) := by
  rw [treeRoot, List.headD_eq_getD]

theorem treeRoot_nil (T : Tables) (z0 : Fe) (levels : Nat) : treeRoot T z0 levels [] = zeroAt T z0 levels := by
  have hempty : layer T z0 [] levels = [] := by
    rw [← List.length_eq_zero_iff, length_layer, List.length_nil, Nat.zero_add]
    exact Nat.div_eq_of_lt (Nat.sub_lt (Nat.two_pow_pos levels) Nat.one_pos)
  rw [treeRoot, hempty, List.headD_nil]

/-! ## The search (R184, R186) -/

/-- Two first matches are the same: neither lies before the other. -/
theorem findLeaf_eq_some_iff {leaf : Fe} {leaves : List Fe} {i : Nat} :
    findLeaf leaf leaves = some i ↔ leaves[i]? = some leaf ∧ ∀ j < i, leaves[j]? ≠ some leaf := by
  refine ⟨findLeaf_some, fun ⟨hi, hfirst⟩ => ?_⟩
  cases hf : findLeaf leaf leaves with
  | none => exact absurd (List.mem_of_getElem? hi) (findLeaf_none.mp hf)
  | some k =>
    obtain ⟨hk, hfirst'⟩ := findLeaf_some hf
    have hki : ¬k < i := fun hlt => hfirst k hlt hk
    have hik : ¬i < k := fun hlt => hfirst' i hlt hi
    rw [show k = i by omega]

/-- Settles O32: the search answers the first match, and nothing exactly without one. -/
theorem firstMatchingLeafIsFound : Obligations.FirstMatchingLeafIsFound :=
  fun _ _ => ⟨fun _ => findLeaf_eq_some_iff, findLeaf_none⟩

/-! ## The path and its replay (R185, R188, R189, R194) -/

/-- In a tree within its capacity, replaying the path of leaf `i` ends at node 0 of the top layer. -/
theorem foldPath_pathFrom_eq_treeRoot (T : Tables) (z0 : Fe) {levels i : Nat} {leaves : List Fe} {leaf : Fe}
    (hcap : leaves.length ≤ 2 ^ levels) (hleaf : leaves[i]? = some leaf) :
    foldPath T leaf (pathFrom T z0 levels 0 leaves i) i = treeRoot T z0 levels leaves := by
  obtain ⟨hi, -⟩ := List.getElem?_eq_some_iff.mp hleaf
  have htop := foldPath_pathFrom (T := T) (z0 := z0) (n := levels) (L := 0) hleaf
  rw [Nat.zero_add, Nat.div_eq_of_lt (hi.trans_le hcap)] at htop
  rw [treeRoot_eq_getD, List.getD_eq_getElem?_getD, htop]
  rfl

/-- Settles O33: the search finds every leaf that is in the tree. -/
theorem pathReplayReconstructsRoot : Obligations.PathReplayReconstructsRoot := by
  intro T z0 levels leaves leaf hcap hmem
  obtain ⟨i0, hf⟩ := Option.ne_none_iff_exists'.mp fun hnone => findLeaf_none.mp hnone hmem
  obtain ⟨hleaf, -⟩ := findLeaf_some hf
  exact ⟨_, i0, congrArg (Option.map _) hf, hleaf, length_pathFrom .., foldPath_pathFrom_eq_treeRoot T z0 hcap hleaf⟩

/-- The left sibling of an odd node of the layer exists, so that no default stands in for it. -/
theorem sibling_of_lt (z : Fe) {lay : List Fe} {i : Nat} (h : i < lay.length) :
    sibling z lay i = if i % 2 = 0 then lay.getD (i + 1) z else lay.getD (i - 1) 0 := by
  have hleft : i - 1 < lay.length := by omega
  rw [sibling, List.getD_eq_getElem _ z hleft, List.getD_eq_getElem _ 0 hleft]

/-- Element `L` of a leaf's path, in the words of R185. -/
theorem getD_pathFrom (T : Tables) (z0 : Fe) {leaves : List Fe} {levels i0 L : Nat} (hi : i0 < leaves.length) (hL : L < levels) :
    (pathFrom T z0 levels 0 leaves i0).getD L 0 =
      if i0 / 2 ^ L % 2 = 0 then (layer T z0 leaves L).getD (i0 / 2 ^ L + 1) (zeroAt T z0 L)
      else (layer T z0 leaves L).getD (i0 / 2 ^ L - 1) 0 := by
  have helem := getElem?_pathFrom T z0 leaves levels 0 i0 L hL
  rw [Nat.zero_add, sibling_of_lt _ (lt_length_layer hi L)] at helem
  exact (List.getD_eq_getElem?_getD ..).trans (congrArg (Option.getD · 0) helem)

/-- The replay level by level: shifting the index down tests its next bit, and the rest of the path is the path from one level up. -/
theorem foldPath_map_range (T : Tables) (f : Nat → Fe) (n i : Nat) (node : Fe) :
    foldPath T node ((List.range n).map f) i =
      (List.range n).foldl (fun node L => if i.testBit L then hash2 T (f L) node else hash2 T node (f L)) node := by
  induction n generalizing f i node with
  | zero => rfl
  | succ n ih =>
    rw [List.range_succ_eq_map, List.map_cons, List.map_map, foldPath, ih, List.foldl_cons, List.foldl_map]
    rcases Nat.mod_two_eq_zero_or_one i with h | h <;> simp [Nat.testBit_add_one, Nat.testBit_zero, h]

/-! ## The Merkle commands (R190 to R193) -/

section
variable {s : State} {rd ra : Reg} {T : Tables} (hT : tablesFor s.params 3 = some T)
include hT

theorem ruleMroot_of_tables :
    ruleMroot rd s = .ok (s.setReg rd (ofFe (treeRoot T s.params.zero0 s.tree.levels s.tree.leaves))) := by
  rw [ruleMroot, requireWidth_some hT, ok_bind, pure_eq_ok]

/-- On a canonical operand only the search can still fail. -/
theorem ruleMpath_of_canonical (hr : regionFits s.params (s.dst.toNat, s.tree.levels)) (hra : (s.reg ra).toNat < p) :
    ruleMpath ra s = outcomeOf s (.mpath ra) := by
  rw [ruleMpath, requireWidth_some hT, ok_bind, requireRegion_of_fits hr, ok_bind, fe_of_lt hra, ok_bind, pathFor, outcomeOf,
    tablesOr_some hT]
  cases findLeaf (s.regElem ra.val) s.tree.leaves <;> rfl

theorem ruleMfold_of_canonical (hd : s.levels.toNat ≤ maxLevelsOf s.params) (hr : regionFits s.params (s.src.toNat, s.levels.toNat))
    (hra : s.regCanonical ra.val) (hpath : ∀ L < s.levels.toNat, s.wordCanonical (s.src.toNat + L)) :
    ruleMfold rd ra s = .ok (s.setReg rd (ofFe
      (foldPath T (s.regElem ra.val) (s.elems s.src.toNat s.levels.toNat) s.idx.toNat))) := by
  rw [ruleMfold, requireWidth_some hT, ok_bind, requireDepth_of_le hd, ok_bind, requireRegion_of_fits hr, ok_bind,
    fe_of_canonical hra, ok_bind, feRegion_of_canonical hpath, ok_bind, pure_eq_ok]

end

/-- Settles O35: the tree's two CSRs are views of what `MBUILD` stored. -/
theorem buildAndRootCommandResults : Obligations.BuildAndRootCommandResults := by
  refine ⟨fun s hw hd hc hr ho => ⟨?_, ?_, ?_⟩, fun rd s T hT => ?_⟩
  · exact exec_of_ok (i := .mbuild) (ruleOf_of_checks rfl (checks_pass_iff.mpr ⟨hw, hd, hc, hr, ho⟩))
  · exact (BitVec.ofNat_toNat ..).trans (BitVec.setWidth_eq _)
  · change BitVec.ofNat 32 (s.elems s.src.toNat s.len.toNat).length = s.len
    rw [length_elems, BitVec.ofNat_toNat, BitVec.setWidth_eq]
  · rw [← treeRoot_eq_getD]
    exact exec_of_ok (i := .mroot rd) (ruleMroot_of_tables hT)

/-- Settles O36: the path of the first match is written over the write region; without a match nothing is. -/
theorem pathCommandResult : Obligations.PathCommandResult := by
  intro ra s T hT hr hra
  have hrule : ruleOf (.mpath ra) s = _ := ruleMpath_of_canonical hT (hr _ (List.mem_singleton_self _)) hra
  refine ⟨fun i0 hleaf hfirst => ?_, fun habsent => ?_⟩
  · simp only [outcomeOf, findLeaf_eq_some_iff.mpr ⟨hleaf, hfirst⟩, tablesOr_some hT] at hrule
    obtain ⟨-, -, houtcome⟩ := ruleOf_ok hrule
    obtain ⟨hi, -⟩ := List.getElem?_eq_some_iff.mp hleaf
    refine ⟨_, exec_of_ok hrule, rfl, fun L hL => ?_, fun a ha => (word_of_outcome houtcome a).trans (outcomeOf_word houtcome ha)⟩
    rw [word_of_outcome houtcome, State.word_setIdx, word_writeWords_map_ofFe s _ (by rwa [length_pathFrom]), getD_pathFrom T _ hi hL]
  · simp only [outcomeOf, findLeaf_none.mpr habsent] at hrule
    exact exec_of_error hrule

/-- Settles O37: bit `L` of `IDX` is the lowest bit of the index that the replay has shifted down `L` times. -/
theorem foldCommandResult : Obligations.FoldCommandResult := by
  intro rd ra s T hT hd hr ⟨hregs, hwords⟩
  have hrule : ruleOf (.mfold rd ra) s = _ := ruleMfold_of_canonical (rd := rd) hT (hd (.inr ⟨rd, ra, rfl⟩))
    (hr _ (List.mem_singleton_self _)) (hregs _ (List.mem_singleton_self _))
    fun L hL => hwords _ (List.mem_map_of_mem (List.mem_range.mpr hL))
  rw [State.elems, foldPath_map_range] at hrule
  exact exec_of_ok hrule

/-- Settles O38: with `LEN = 0` no region and no leaf is checked, and no node of the empty tree exists. -/
theorem emptyTreeRootIsTheDefault : Obligations.EmptyTreeRootIsTheDefault := by
  intro s rd T hT hlevels hlen
  have hlen' : s.len.toNat = 0 := congrArg BitVec.toNat hlen
  have hwidth : widthOk s .mbuild := fun t ht => by cases ht; simp [hT]
  obtain ⟨hbuild, -, -⟩ := buildAndRootCommandResults.1 s hwidth (fun _ => hlevels) (fun _ => hlen' ▸ Nat.zero_le _)
    (by simp [regionsOk, regionsOf, regionFits, hlen']) ⟨by simp [operandRegs], by simp [operandWords, hlen']⟩
  refine ⟨_, hbuild, rfl, ?_⟩
  rw [hlen', State.elems, List.range_zero, List.map_nil, ← treeRoot_nil T]
  exact exec_of_ok (i := .mroot rd) (s := s.succeededWith s.x s.dmem s.idx ⟨s.levels.toNat, []⟩ s.status.eq) (ruleMroot_of_tables hT)

/-! ## `MPATH`, then `MFOLD` (R192, R193, R194) -/

/-- `MFOLD` where `SRC` holds the path `pe` writes its replay. -/
theorem exec_mfold_of_path {s : State} {rd ra : Reg} {T : Tables} {pe : List Fe} (hT : tablesFor s.params 3 = some T)
    (hd : s.levels.toNat ≤ maxLevelsOf s.params) (hr : regionFits s.params (s.src.toNat, s.levels.toNat)) (hra : s.regCanonical ra.val)
    (hlen : s.levels.toNat = pe.length) (hpe : ∀ L < pe.length, s.word (s.src.toNat + L) = ofFe (pe.getD L 0)) :
    exec (.mfold rd ra) s = .next (s.succeededX (s.x.set rd.val (ofFe (foldPath T (s.regElem ra.val) pe s.idx.toNat)))) := by
  have hwords : ∀ L < s.levels.toNat, s.wordCanonical (s.src.toNat + L) := fun L hL => by
    rw [State.wordCanonical, hpe L (hlen ▸ hL)]
    exact toNat_ofFe_lt _
  have hrule : ruleOf (.mfold rd ra) s = _ := ruleMfold_of_canonical (rd := rd) hT hd hr hra hwords
  rw [hlen, elems_eq_of_word_eq_ofFe hpe] at hrule
  exact exec_of_ok hrule

/-- Settles O39: `MPATH` leaves a leaf's path at `DST` and its index in `IDX`, so `MFOLD` replays that leaf's path. -/
theorem pathThenFoldCommandsGiveTheRoot : Obligations.PathThenFoldCommandsGiveTheRoot := by
  intro s t rd ra hinv hexec hcause
  obtain ⟨s', hrule⟩ := ok_of_cause_none hexec hcause
  obtain ⟨-, hchecks, houtcome⟩ := ruleOf_ok hrule
  obtain ⟨hwidth, -, -, hregions, hregs, -⟩ := checks_pass_iff.mp hchecks
  obtain ⟨T, hT⟩ := Option.ne_none_iff_exists'.mp (hwidth 3 rfl)
  obtain ⟨i0, hfound, rfl⟩ := outcomeOf_mpath houtcome
  rw [tablesOr_some hT] at hrule houtcome
  obtain ⟨hleaf, -⟩ := findLeaf_some hfound
  have hra : s.regCanonical ra.val := hregs _ (List.mem_singleton_self _)
  have hfits : regionFits s.params (s.dst.toNat, s.tree.levels) := hregions _ (List.mem_singleton_self _)
  obtain rfl := Host.Outcome.next.inj ((exec_of_ok hrule).symm.trans hexec)
  have hlevels : (BitVec.ofNat 32 s.tree.levels).toNat = s.tree.levels := (toNat_treeCsrs hinv).1
  have hidx : (BitVec.ofNat 32 i0).toNat = i0 := by
    obtain ⟨hi, -⟩ := List.getElem?_eq_some_iff.mp hleaf
    exact (BitVec.toNat_ofNat ..).trans (Nat.mod_eq_of_lt (hi.trans hinv.treeCount))
  have hfold := exec_mfold_of_path (rd := rd) (pe := pathFrom T s.params.zero0 s.tree.levels 0 s.tree.leaves i0)
    (s := { s.succeededWith s.x (Memory.writeAll s.dmem s.dst.toNat _) (BitVec.ofNat 32 i0) s.tree s.status.eq with
      src := s.dst, levels := BitVec.ofNat 32 s.tree.levels })
    hT (hlevels.le.trans hinv.treeDepth) (by rw [hlevels]; exact hfits) hra (by rw [hlevels, length_pathFrom])
    fun L hL => (word_of_outcome houtcome _).trans (word_writeWords_map_ofFe s _ hL)
  refine ⟨_, _, hfold, rfl, exec_of_ok (i := .mroot rd) (ruleMroot_of_tables hT), rfl, ?_⟩
  change (s.setReg rd _).reg rd = (s.setReg rd _).reg rd
  rw [State.reg_setReg_same, State.reg_setReg_same, ← foldPath_pathFrom_eq_treeRoot T s.params.zero0 hinv.treeCapacity hleaf]
  exact congrArg (fun i => ofFe (foldPath T (s.regElem ra.val) _ i)) hidx

end Sys2Proof.Machine

/-! Proofs about 45_data_movement: the commands `FLD` and `FST`, which move one raw container. -/

namespace Sys2Proof.Machine

section
variable {off : Offset} {s : State}

/-- `FLD` from a word below `DMEM_WORDS` writes it raw to `x[rd]` (R210). -/
theorem ruleFld_of_lt {rd : Reg} (h : s.src.toNat + off.val < dmemWords s.params) :
    ruleFld rd off s = .ok (s.setReg rd (s.word (s.src.toNat + off.val))) := by
  rw [ruleFld, effective, requireRegion_of_fits (.inr h), ok_bind, pure_eq_ok]

/-- `FST` to a word below `DMEM_WORDS` writes `x[ra]` raw over that word (R211). -/
theorem ruleFst_of_lt {ra : Reg} (h : s.dst.toNat + off.val < dmemWords s.params) :
    ruleFst ra off s = .ok (s.writeWords (s.dst.toNat + off.val) [s.reg ra]) := by
  rw [ruleFst, effective, requireRegion_of_fits (.inr h), ok_bind, pure_eq_ok]

end

/-- Settles O40: each rule has the one region check, and the write region of `FST` is one word long, so any other word is outside it. -/
theorem loadAndStoreCommandResults : Obligations.LoadAndStoreCommandResults := by
  refine ⟨fun rd off s h => exec_of_ok (i := .fld rd off) (ruleFld_of_lt h), fun ra off s h => ?_⟩
  have hrule : ruleOf (.fst ra off) s = _ := ruleFst_of_lt h
  obtain ⟨-, -, houtcome⟩ := ruleOf_ok hrule
  refine ⟨_, exec_of_ok hrule, rfl, ?_, fun a ha => ?_⟩
  · exact (word_of_outcome houtcome _).trans (State.word_writeWords_inside s _ 0 [s.reg ra] Nat.one_pos)
  · have hout : a < s.dst.toNat + off.val ∨ s.dst.toNat + off.val + 1 ≤ a := by omega
    exact (word_of_outcome houtcome a).trans (outcomeOf_word houtcome hout)

end Sys2Proof.Machine

/-! Proofs about 60_exceptions: which check is reported first, when a command succeeds, and what an error writes. -/

namespace Sys2Proof.Machine

/-! ## A word that is no command (R85, R230) -/

theorem runCommand_of_illegal {s : State} {e : Illegal} (h : decode s.cmd = .error e) :
    runCommand s = .next (s.failedWith .illegalCommand s.cmd) := by
  simp only [runCommand, h, completeIllegal, complete, completed, fail_eq]

/-- Settles O4: the core's turn is the completion of the word in `CMD`, and the shared error entry leaves `CMD` alone. -/
theorem illegalWordCompletesWithIllegalCommand : Obligations.IllegalWordCompletesWithIllegalCommand :=
  fun _ _ hturn hdecode => ⟨(step_of_coreTurn hturn).trans (runCommand_of_illegal hdecode), rfl⟩

/-! ## The first check that does not pass (R225, R226, R231, R233) -/

section
variable {i : Instr} {s : State} {l m : List (Bool × Error)} {e : Error}

/-! Each group of the row passes when its predicate of Safety.lean holds. -/

theorem guardAll_widthChecks (hw : widthOk s i) : guardAll ((widthOf i).toList.map (widthCheck s.params)) = .ok () :=
  guardAll_ok.mpr (by simpa [widthCheck_fst, widthOk] using hw)

theorem guardAll_sizeChecks (hd : depthOk s i) (hc : capacityOk s i) : guardAll (sizeChecks s i) = .ok () :=
  guardAll_ok.mpr (sizeChecks_pass hd hc)

theorem guardAll_regionChecks (hr : regionsOk s i) : guardAll ((regionsOf s i).map (regionCheck s.params)) = .ok () :=
  guardAll_ok.mpr (List.forall_mem_map.mpr fun r h => regionCheck_fst.mpr (hr r h))

/-- A command whose width has no tables reports that width (R225). -/
theorem ruleOf_of_width_none {t : Nat} (hwf : i.wellFormed = true) (hi : widthOf i = some t) (ht : tablesFor s.params t = none) :
    ruleOf i s = .error { cause := .unsupportedWidth, info := BitVec.ofNat 32 t } := by
  have hcheck : widthCheck s.params t = (false, { cause := .unsupportedWidth, info := BitVec.ofNat 32 t }) :=
    check_false fun hpass => widthCheck_fst.mp hpass ht
  rw [ruleOf_eq hwf, guardAll_checksOf, hi, Option.toList_some, List.map_singleton, hcheck]
  rfl

/-- The first depth or capacity check that does not pass is the error, the width being right. -/
theorem ruleOf_of_first_size (hwf : i.wellFormed = true) (hw : widthOk s i) (hs : sizeChecks s i = l ++ (false, e) :: m)
    (hl : ∀ c ∈ l, c.1 = true) : ruleOf i s = .error e := by
  rw [ruleOf_eq hwf, guardAll_checksOf, guardAll_widthChecks hw, ok_bind, hs, guardAll_first hl]
  rfl

end

/-- Settles O41: the width check is the first of the row. -/
theorem unsupportedWidthIsReportedFirst : Obligations.UnsupportedWidthIsReportedFirst :=
  fun _ _ _ hwf hi ht => exec_of_error (ruleOf_of_width_none hwf hi ht)

theorem depthCheck_of_gt {s : State} (h : maxLevelsOf s.params < s.levels.toNat) :
    depthCheck s = (false, { cause := .badArgument, info := s.levels }) := by
  rw [depthCheck, decide_eq_false (Nat.not_le.mpr h)]

theorem capacityCheck_of_gt {s : State} (h : 2 ^ s.levels.toNat < s.len.toNat) :
    capacityCheck s = (false, { cause := .capacityExceeded, info := s.len }) := by
  rw [capacityCheck, decide_eq_false (Nat.not_le.mpr h)]

/-- Settles O42: depth, then capacity, stand right after the width in the row of `MBUILD`, and depth in that of `MFOLD`. -/
theorem depthAndCapacityErrors : Obligations.DepthAndCapacityErrors := by
  refine ⟨fun s hw hdepth => ?_, fun s rd ra hw hdepth => ?_, fun s hw hdepth hcap => ?_⟩
  · have hrow : sizeChecks s .mbuild = [] ++ (false, _) :: [capacityCheck s] := congrArg (· :: [capacityCheck s]) (depthCheck_of_gt hdepth)
    exact exec_of_error (ruleOf_of_first_size rfl hw hrow nofun)
  · have hrow : sizeChecks s (.mfold rd ra) = [] ++ (false, _) :: [] := congrArg (· :: []) (depthCheck_of_gt hdepth)
    exact exec_of_error (ruleOf_of_first_size rfl hw hrow nofun)
  · have hrow : sizeChecks s .mbuild = [depthCheck s] ++ (false, _) :: [] := congrArg ([depthCheck s, ·]) (capacityCheck_of_gt hcap)
    exact exec_of_error (ruleOf_of_first_size rfl hw hrow (List.forall_mem_singleton.mpr (decide_eq_true hdepth)))

/-! ## The first operand that holds no FieldElement (R227, R77) -/

section
variable {i : Instr} {s : State} (hwf : i.wellFormed = true) (hw : widthOk s i) (hd : depthOk s i) (hc : capacityOk s i)
  (hr : regionsOk s i)
include hwf hw hd hc hr

/-- Once the regions fit, only operands and data are left to look at. -/
theorem ruleOf_of_regionsOk : ruleOf i s =
    (guardAll ((operandRegs i).map (regCheck s)) >>= fun _ => guardAll ((operandWords s i).map (wordCheck s))) >>= fun _ =>
      outcomeOf s i := by
  rw [ruleOf_eq hwf, guardAll_checksOf, guardAll_widthChecks hw, ok_bind, guardAll_sizeChecks hd hc, ok_bind, guardAll_regionChecks hr,
    ok_bind]

theorem ruleOf_of_first_reg {before after : List Nat} {k : Nat} (hs : operandRegs i = before ++ k :: after)
    (hb : ∀ j ∈ before, s.regCanonical j) (hk : ¬s.regCanonical k) :
    ruleOf i s = .error { cause := .nonCanonical, info := BitVec.ofNat 32 (0x80000000 + k) } := by
  have hcheck : regCheck s k = (false, { cause := .nonCanonical, info := BitVec.ofNat 32 (0x80000000 + k) }) :=
    check_false (mt regCheck_fst.mp hk)
  have hpass : ∀ c ∈ before.map (regCheck s), c.1 = true := List.forall_mem_map.mpr fun j hj => regCheck_fst.mpr (hb j hj)
  rw [ruleOf_of_regionsOk hwf hw hd hc hr, hs, List.map_append, List.map_cons, hcheck, guardAll_first hpass]
  rfl

theorem ruleOf_of_first_word (hregs : ∀ j ∈ operandRegs i, s.regCanonical j) {before after : List Nat} {a : Nat}
    (hs : operandWords s i = before ++ a :: after) (hb : ∀ b ∈ before, s.wordCanonical b) (ha : ¬s.wordCanonical a) :
    ruleOf i s = .error { cause := .nonCanonical, info := BitVec.ofNat 32 a } := by
  have hregsPass : guardAll ((operandRegs i).map (regCheck s)) = .ok () :=
    guardAll_ok.mpr (List.forall_mem_map.mpr fun j hj => regCheck_fst.mpr (hregs j hj))
  have hcheck : wordCheck s a = (false, { cause := .nonCanonical, info := BitVec.ofNat 32 a }) :=
    check_false (mt wordCheck_fst.mp ha)
  have hpass : ∀ c ∈ before.map (wordCheck s), c.1 = true := List.forall_mem_map.mpr fun b h => wordCheck_fst.mpr (hb b h)
  rw [ruleOf_of_regionsOk hwf hw hd hc hr, hregsPass, ok_bind, hs, List.map_append, List.map_cons, hcheck, guardAll_first hpass]
  rfl

end

/-- Settles O44: the operand checks end the row, registers before words. -/
theorem nonCanonicalOperandsReportedInOrder : Obligations.NonCanonicalOperandsReportedInOrder := by
  intro i s hwf hw hd hc hr
  refine ⟨fun before k after hs hb hk => ?_, fun before a after hregs hs hb ha => ?_⟩
  · exact exec_of_error (ruleOf_of_first_reg hwf hw hd hc hr hs hb hk)
  · exact exec_of_error (ruleOf_of_first_word hwf hw hd hc hr hregs hs hb ha)

/-! ## When a command succeeds (R47, R231) -/

/-- A command whose checks passed succeeds unless the divisor is 0 or the leaf absent (R229, R228). -/
theorem outcomeOf_ok_iff {i : Instr} {s : State} : (∃ s', outcomeOf s i = .ok s') ↔ dataOk s i := by
  constructor
  · rintro ⟨s', h⟩
    refine ⟨?_, ?_⟩
    · rintro rd ra rb rfl hzero
      rw [outcomeOf, if_pos hzero] at h
      cases h
    · rintro ra rfl
      obtain ⟨i0, hfound, -⟩ := outcomeOf_mpath h
      by_contra habsent
      rw [findLeaf_none.mpr habsent] at hfound
      cases hfound
  · rintro ⟨hdivisor, hleaf⟩
    cases h : outcomeOf s i with
    | ok s' => exact ⟨s', rfl⟩
    | error e =>
      rcases outcomeOf_error h with ⟨rd, ra, rb, hi, hzero, -⟩ | ⟨ra, hi, habsent, -⟩
      · exact absurd hzero (hdivisor rd ra rb hi)
      · exact absurd (hleaf ra hi) habsent

theorem ruleOf_ok_iff {i : Instr} {s : State} (hwf : i.wellFormed = true) :
    (∃ s', ruleOf i s = .ok s') ↔ (∀ c ∈ checksOf s i, c.1 = true) ∧ dataOk s i := by
  constructor
  · rintro ⟨s', h⟩
    obtain ⟨-, hchecks, hout⟩ := ruleOf_ok h
    exact ⟨hchecks, outcomeOf_ok_iff.mp ⟨s', hout⟩⟩
  · rintro ⟨hchecks, hdata⟩
    rw [ruleOf_of_checks hwf hchecks]
    exact outcomeOf_ok_iff.mpr hdata

/-- A command ends without a cause exactly when its rule raised no error. -/
theorem cause_none_iff {i : Instr} {s t : State} (h : exec i s = .next t) : t.cause = none ↔ ∃ s', ruleOf i s = .ok s' := by
  refine ⟨ok_of_cause_none h, ?_⟩
  rintro ⟨s', hrule⟩
  rw [exec_of_ok hrule] at h
  cases h
  rfl

/-- Settles O45: no cause, no error of the rule, and that means its row of checks and its data are right. -/
theorem commandSucceedsExactlyWhenChecksPass : Obligations.CommandSucceedsExactlyWhenChecksPass := by
  intro i s hwf
  have hexec : exec i s = .next (completed s (ruleOf i s)) := exec_eq i s
  refine ⟨_, hexec, ?_⟩
  rw [cause_none_iff hexec, ruleOf_ok_iff hwf, checks_pass_iff]
  simp only [and_assoc]

/-! ## What an error writes (R224) -/

/-- A command that ended with a cause raised that error, and the state is the error entry's. -/
theorem error_of_cause_some {i : Instr} {s t : State} {c : Cause} (h : exec i s = .next t) (hc : t.cause = some c) :
    ∃ info, ruleOf i s = .error { cause := c, info := info } ∧ t = s.failedWith c info := by
  rcases exec_cases i s with ⟨s', -, he⟩ | ⟨e, hrule, he⟩ <;> rw [he] at h <;> cases h
  · cases hc
  · cases hc
    exact ⟨e.info, hrule, rfl⟩

/-- Settles O46: every error is taken in the one error entry, which writes the error registers and nothing else. -/
theorem errorsArePrecise : Obligations.ErrorsArePrecise := by
  intro i s t c h hc
  obtain ⟨info, -, rfl⟩ := error_of_cause_some h hc
  rfl

/-! ## The causes of each command (R223) -/

theorem illegalCommand_mem_causesOf (i : Instr) : .illegalCommand ∈ causesOf i := by cases i <;> simp [causesOf]

theorem unsupportedWidth_mem_causesOf {i : Instr} (h : widthOf i ≠ none) : .unsupportedWidth ∈ causesOf i := by
  cases i with
  | perm | hash | cenc | cdec | cchk | mbuild | mroot | mpath | mfold => simp [causesOf]
  | _ => exact absurd rfl h

theorem addressRange_mem_causesOf {i : Instr} {s : State} (h : regionsOf s i ≠ []) : .addressRange ∈ causesOf i := by
  cases i with
  | cenc | cdec | cchk | mbuild | mpath | mfold | fld | fst => simp [causesOf]
  | _ => exact absurd rfl h

theorem nonCanonical_mem_causesOf {i : Instr} {s : State} (h : operandRegs i ≠ [] ∨ operandWords s i ≠ []) :
    .nonCanonical ∈ causesOf i := by
  cases i with
  | fnorm | mroot | fld | fst => exact absurd ⟨rfl, rfl⟩ (not_and_or.mpr h)
  | _ => simp [causesOf]

theorem cause_of_mem_sizeChecks {i : Instr} {s : State} {c : Bool × Error} (h : c ∈ sizeChecks s i) :
    c.2.cause ∈ causesOf i ∧ c.2.cause ≠ .illegalCommand := by
  cases i with
  | mbuild => rcases List.mem_pair.mp h with rfl | rfl <;> simp [causesOf, depthCheck, capacityCheck]
  | mfold rd ra => obtain rfl := List.mem_singleton.mp h; simp [causesOf, depthCheck]
  | _ => cases h

/-- Every check of a command reports a cause of its row in the table, and none of them is the decoder's. -/
theorem cause_of_mem_checksOf {i : Instr} {s : State} {c : Bool × Error} (h : c ∈ checksOf s i) :
    c.2.cause ∈ causesOf i ∧ c.2.cause ≠ .illegalCommand := by
  simp only [checksOf, List.mem_append, List.mem_map] at h
  rcases h with ⟨t, ht, rfl⟩ | hsize | ⟨r, hr, rfl⟩ | ⟨k, hk, rfl⟩ | ⟨a, ha, rfl⟩
  · exact ⟨unsupportedWidth_mem_causesOf fun hnone => by simp [hnone] at ht, nofun⟩
  · exact cause_of_mem_sizeChecks hsize
  · exact ⟨addressRange_mem_causesOf (List.ne_nil_of_mem hr), nofun⟩
  · exact ⟨nonCanonical_mem_causesOf (s := s) (.inl (List.ne_nil_of_mem hk)), nofun⟩
  · exact ⟨nonCanonical_mem_causesOf (.inr (List.ne_nil_of_mem ha)), nofun⟩

/-- Settles O47: an error is the illegal term's, that of a check, or that of the data. -/
theorem causesPerCommand : Obligations.CausesPerCommand := by
  intro i s t c h hc
  obtain ⟨info, hrule, -⟩ := error_of_cause_some h hc
  rcases ruleOf_error hrule with ⟨hwf, he⟩ | ⟨-, hcheck | hdata⟩
  · cases he
    exact ⟨illegalCommand_mem_causesOf i, fun hwf' => absurd hwf' (Bool.eq_false_iff.mp hwf)⟩
  · obtain ⟨hmem, hne⟩ := cause_of_mem_checksOf hcheck
    exact ⟨hmem, fun _ => hne⟩
  · rcases outcomeOf_error hdata with ⟨rd, ra, rb, rfl, -, he⟩ | ⟨ra, rfl, -, he⟩ <;> cases he <;> exact ⟨by simp [causesOf], nofun⟩

end Sys2Proof.Machine

/-! Proofs about 70_reset_and_hazards: how far a run is from its end, and that every step brings it nearer. -/

namespace Sys2Proof.Machine

/-- The steps a run still takes at most: two for a queued event, which may be the issue of a command, and one for the command running. -/
def State.stepsToEnd (s : State) : Nat := 2 * s.inbox.length + s.status.busy.toNat

/-- No step is left exactly when the run has ended. -/
theorem State.stepsToEnd_eq_zero_iff {s : State} : s.stepsToEnd = 0 ↔ s.runEnded := by
  simp [stepsToEnd, runEnded]

theorem State.stepsToEnd_le (s : State) : s.stepsToEnd ≤ 2 * s.inbox.length + 1 :=
  Nat.add_le_add_left s.status.busy.toNat_le _

/-! ## What is left of the host's queue (R45, R47, R61) -/

/-- A transaction moves no event of the queue. -/
theorem perform_inbox {s t : State} {tr : Transaction} (h : perform s tr = .next t) : t.inbox = s.inbox := by
  obtain ⟨-, rfl⟩ := perform_next h
  split
  · rcases performBusy_cases s tr with ⟨-, _, _, e⟩ | ⟨-, e⟩ <;> rw [e]
  · rcases performIdle_cases s tr with ⟨_, e⟩ | ⟨_, e⟩ | ⟨_, _, e⟩ | ⟨_, _, e, -⟩ | ⟨_, _, _, _, _, _, e⟩ <;> rw [e] <;> rfl

/-- Completion leaves the queue as it was and the core idle. -/
theorem runCommand_inbox_busy {s t : State} (h : runCommand s = .next t) : t.inbox = s.inbox ∧ t.status.busy = false := by
  rcases runCommand_cases s with ⟨_, s', -, -, e⟩ | ⟨_, _, e⟩ <;> rw [e] at h <;> cases h <;> exact ⟨rfl, rfl⟩

/-- A host that keeps to existing words keeps to them when part of its queue is done. -/
theorem State.hostInRange.of_subset {s t : State} (hr : s.hostInRange) (hi : t.inbox ⊆ s.inbox) (hp : t.params = s.params) :
    t.hostInRange := by
  intro e he tr htr
  rw [hp]
  exact hr e (hi he) tr htr

/-! ## Every run ends (R268, R269) -/

/-- No step faults while the host keeps to existing words (R61, U16). -/
theorem step_answers_of_hostInRange {s : State} (hr : s.hostInRange) : ∃ t, step s = .next t := by
  rcases step_next_or_perform s with h | ⟨tr, rest, hi, h⟩
  · exact h
  · have ho : outside s.params tr = none := by
      rcases hi with hi | hi
      · exact hr (.request tr) (by simp [hi]) tr (.inl rfl)
      · exact hr (.barge tr) (by simp [hi]) tr (.inr rfl)
    exact ⟨_, h.trans (perform_of_outside (s := { s with inbox := rest }) ho)⟩

/-- Doing an event of the queue brings the end nearer, even when it issues a command. -/
theorem toward_end_of_inbox {s t : State} {e : HostEvent} (hi : s.inbox = e :: t.inbox) :
    t.inbox ⊆ s.inbox ∧ t.stepsToEnd ≤ s.stepsToEnd - 1 := by
  have hle := t.stepsToEnd_le
  refine ⟨hi ▸ List.subset_cons_self _ _, ?_⟩
  simp only [State.stepsToEnd, hi, List.length_cons] at hle ⊢
  omega

/-- A step never adds to the queue, and brings a run that has not ended nearer to its end. -/
theorem step_toward_end {s t : State} (h : step s = .next t) : t.inbox ⊆ s.inbox ∧ t.stepsToEnd ≤ s.stepsToEnd - 1 := by
  rcases step_cases s with ⟨⟨hb, -⟩, hs⟩ | ⟨tr, rest, hi, hs⟩ | ⟨rest, hi, hs⟩ | ⟨hi, hb, hs⟩ <;> rw [hs] at h
  · obtain ⟨hinbox, hidle⟩ := runCommand_inbox_busy h
    simp [State.stepsToEnd, hinbox, hidle, hb]
  · obtain rfl : t.inbox = rest := perform_inbox h
    rcases hi with ⟨hi, -⟩ | hi <;> exact toward_end_of_inbox hi
  · cases h
    exact toward_end_of_inbox hi
  · cases h
    simp [State.stepsToEnd, hi, hb]

theorem run_succ_of_step {n : Nat} {s s' : State} (h : step s = .next s') :
    Host.Core.run core (n + 1) s = Host.Core.run core n s' := by
  have hcore : core.step s = .next s' := h
  simp only [Host.Core.run, hcore]

/-- A run of as many steps as the end is away reaches it. -/
theorem run_ends_of_stepsToEnd_le {n : Nat} {s : State} (hr : s.hostInRange) (hn : s.stepsToEnd ≤ n) :
    ∃ t, Host.Core.run core n s = .next t ∧ t.runEnded := by
  induction n generalizing s with
  | zero => exact ⟨s, rfl, State.stepsToEnd_eq_zero_iff.mp (Nat.le_zero.mp hn)⟩
  | succ n ih =>
    obtain ⟨s', hs⟩ := step_answers_of_hostInRange hr
    obtain ⟨hinbox, hcloser⟩ := step_toward_end hs
    obtain ⟨t, hrun, hend⟩ := ih (hr.of_subset hinbox (step_params hs)) (by omega)
    exact ⟨t, (run_succ_of_step hs).trans hrun, hend⟩

/-- Settles O54: the run is as long as `stepsToEnd` says. -/
theorem everyRunEnds : Obligations.EveryRunEnds := by
  intro s hr
  obtain ⟨t, hrun, hend⟩ := run_ends_of_stepsToEnd_le hr le_rfl
  exact ⟨_, t, s.stepsToEnd_le, hrun, hend⟩

end Sys2Proof.Machine

/-! Proofs about 30_encoding section 4: the words written out there. -/

namespace Sys2Proof

/-- R85: a command's word decodes to it when its register group does not pass `x[15]`. -/
theorem decode_of_encode_eq {w : Word} {i : Instr} (h : encode i = w) (hwf : i.wellFormed = true) : decode w = .ok i := by
  rw [← h, decode_encode, if_pos hwf]

/-- R91: the word of a command whose register group passes `x[15]` is illegal. -/
theorem decode_groupPastX15_of_encode_eq {w : Word} {i : Instr} (h : encode i = w) (hwf : i.wellFormed = false) :
    decode w = .error .groupPastX15 := by
  rw [← h, decode_encode, hwf, if_neg Bool.false_ne_true]

/-- R85: a word whose fields are rejected, by its `op` or by a field that must be zero, is rejected for that reason. -/
theorem decode_error_of_fields {w : Word} {e : Illegal} (h : decodeFields w = .error e) : decode w = .error e := by
  rw [decode, h, Except.bind]

/-- Settles O5: an accepted word is its command's encoding, as are the two whose group passes `x[15]`; the fields of the other four are
rejected. -/
theorem encodingExamplesDecode : Obligations.EncodingExamplesDecode := by
  unfold Obligations.EncodingExamplesDecode
  refine ⟨?fadd, ?fsub, ?fmul, ?fpow5, ?fnorm, ?fdiv, ?perm3, ?perm9, ?hash2, ?hash8, ?cenc, ?cdec, ?cchk, ?mbuild, ?mroot, ?mpath,
    ?mfold, ?fld, ?fst, ?opZero, ?faddImm, ?permRd, ?hashGroup, ?cencGroup, ?op44, ?perm10⟩
  case opZero | op44 | faddImm | permRd => exact decode_error_of_fields (by decide)
  case hashGroup => exact decode_groupPastX15_of_encode_eq (i := .hash 0 9 8) (by decide) rfl
  case cencGroup => exact decode_groupPastX15_of_encode_eq (i := .cenc 15 6) (by decide) rfl
  all_goals exact decode_of_encode_eq (by decide) rfl

end Sys2Proof
